-- ==== Sys2Proof/Word.lean ====
section
/-! DEFINITION. The words of the machine: the widths the spec gives its bytes, identifiers, registers and counters. -/

namespace Sys2Proof

/-- A byte is 8 bits (spec/00 R10). -/
abbrev Byte := BitVec 8

/-- A byte string (spec/00 R10); it is numbered from offset 0. -/
abbrev Bytes := List Byte

/-- A fragment-id, 3 bits: always one of the eight contexts of a unit (spec/00 R7, R15). -/
abbrev Fid := BitVec 3

/-- An uncompressed protocol type, 16 bits (spec/41 R160). -/
abbrev Ptype := BitVec 16

/-- A configuration word, 56 bits (spec/10 R30). -/
abbrev CfgWord := BitVec 56

/-- A buffer index or length register, 12 bits (spec/10 R41, R52). -/
abbrev Index := BitVec 12

/-- A sequence number, 3 bits (spec/10 R43, R54). -/
abbrev SeqNb := BitVec 3

/-- A label type, 2 bits (spec/30 R108). -/
abbrev LabelType := BitVec 2

/-- A CRC-32 value (spec/40 R145). -/
abbrev Crc := BitVec 32

/-- A statistics counter: a number below `2^CNT_W`, the width being a parameter (spec/00 R8, spec/10 R35,
spec/40 R144). Every addition wraps there (`Machine.addCounters`). Log 5. -/
abbrev Count := Nat

end Sys2Proof
end

