-- ==== Sys2Proof/Config.lean ====
section
/-! DEFINITION. What an implementation fixes: the parameters of spec/00 R8, which the host's `exec` reads from the
state (log 1), and the values nothing in the spec determines, which are opaque constants. -/

namespace Sys2Proof.Config

/-! ### `CRC32` (spec/00 R8, spec/40 R145 to R147) -/

/-- The exclusive-or of the bytes: the simplest function with the property of spec/40 R147. It shows that instances
exist; nothing computes with it. -/
def xorOfBytes : Bytes → Crc
  | [] => 0
  | b :: m => b.setWidth 32 ^^^ xorOfBytes m

theorem xorOfBytes_flip (m : Bytes) (k j : Nat) (hk : k < m.length) (hj : j < 8) :
    xorOfBytes (m.modify k (fun b => b ^^^ BitVec.twoPow 8 j)) ≠ xorOfBytes m := by
  induction m generalizing k with
  | nil => simp at hk
  | cons b m ih =>
    cases k with
    | zero =>
      intro h
      have hb := congrArg (fun v : Crc => v.getLsbD j) h
      simp [xorOfBytes, hj, show j < 32 by omega] at hb
    | succ k =>
      intro h
      refine ih k (by simpa using hk) ?_
      have hb := congrArg (fun v : Crc => b.setWidth 32 ^^^ v) h
      simpa [xorOfBytes, ← BitVec.xor_assoc] using hb

/-- An instance of `CRC32`: "a total function of the bytes" (spec/40 R145) with the property every instance must have
(R147): a message with one bit flipped has another CRC. A flip inside the trailer changes what the CRC is compared
with, so it needs no law. The defaults only show that the type has a member. -/
structure CrcFunction where
  run : Bytes → Crc := xorOfBytes
  flip : ∀ (m : Bytes) (k j : Nat), k < m.length → j < 8 →
    run (m.modify k (fun b => b ^^^ BitVec.twoPow 8 j)) ≠ run m := by exact xorOfBytes_flip
deriving Inhabited

/-- Which function `CRC32` is. The spec makes it a parameter and names one default instance (spec/40 R145, R146).
`other k` stands for every other instance. Log 2. -/
inductive CrcInstance where
  | mpeg2
  | other (k : Nat)
deriving DecidableEq, Repr

/-- The CRC-32 instances other than the default. It has no body, so a statement about it holds whatever instance an
implementation uses. Log 2. -/
opaque crc32Other : Nat → CrcFunction

/-! ### `PPDU_LAYOUT` (spec/00 R8, spec/30 R103 to R107) -/

/-- `PPDU_LAYOUT`: the bit positions of the PPDU header fields. A position is the lowest bit of the field in `W` (COMP,
CONT and END) or in `X` (START); the widths are those of spec/30 R103 to R106, and END has the fields of CONT (R106).
`S` and `E` are no part of it: they are the first two bits of every header (R101). Log 19. -/
structure PpduLayout where
  compLt : Nat
  compPts : Nat
  compLength : Nat
  startLt : Nat
  startPts : Nat
  startFragLen : Nat
  startFid : Nat
  startTotalLen : Nat
  startUseCrc : Nat
  contLength : Nat
  contFid : Nat
deriving DecidableEq, Repr

/-- Fields, each a position and a width, that lie below bit `bits` and share no bit. -/
def fieldsFit (bits : Nat) (fields : List (Nat × Nat)) : Bool :=
  fields.all (fun x => decide (x.1 + x.2 ≤ bits)) &&
    decide (fields.Pairwise (fun x y => x.1 + x.2 ≤ y.1 ∨ y.1 + y.2 ≤ x.1))

/-- The fields of each header lie beside `S` and `E` and share no bit. DEDUCED, log 19: R107 takes every field out of
the header as it was put in. -/
def PpduLayout.legal (l : PpduLayout) : Bool :=
  fieldsFit 14 [(l.compLt, 2), (l.compPts, 1), (l.compLength, 11)] &&
    fieldsFit 30 [(l.startLt, 2), (l.startPts, 1), (l.startFragLen, 11), (l.startFid, 3), (l.startTotalLen, 12),
      (l.startUseCrc, 1)] &&
    fieldsFit 14 [(l.contLength, 11), (l.contFid, 3)]

/-- The tables of spec/30 R103 to R106. -/
def PpduLayout.standard : PpduLayout where
  compLt := 12
  compPts := 11
  compLength := 0
  startLt := 28
  startPts := 27
  startFragLen := 16
  startFid := 13
  startTotalLen := 1
  startUseCrc := 0
  contLength := 3
  contFid := 0

/-! ### The other parameters -/

/-- `FPDU_MAX`, the largest FPDU size a command may name: OPEN in the spec, and no rule depends on its value
(spec/00 R8, spec/92 D2). Log 4. -/
opaque fpduMax : Nat

/-- The parameters of spec/00 R8 that some rule reads; "fixed before reset", and "no command changes them"
(spec/70 R443). Log 1.

R8 puts no bound on `CODE_L2S` and `CODE_VLAN_WO_PTYPE`, so every byte is admitted for either. The values that spec/41
R162 and R179 presume away (0x30, 0xff, the code of another row, each other) are DESIGN CHOICE, log 28: the earlier row
of the table, and the earlier branch of spec/41 R170, then wins. -/
structure Params where
  /-- `MAX_FRAGS`: a natural of at least 2, or `none` for no cap (OPEN in the spec). -/
  maxFrags : Option { n : Nat // 2 ≤ n }
  /-- `SEQ_AMBIG_MIN`: the smallest `delta` that is ambiguous. -/
  seqAmbigMin : Nat
  /-- `CRC32`. -/
  crc32 : CrcInstance
  /-- `CODE_L2S`. Any byte; log 28. -/
  codeL2s : Byte
  /-- `CODE_VLAN_WO_PTYPE`. Any byte; log 28. -/
  codeVlanWoPtype : Byte
  /-- `ETH_HDR_LEN`. -/
  ethHdrLen : Nat
  /-- `VLAN_HDR_LEN`. -/
  vlanHdrLen : Nat
  /-- `CNT_W`: the width of every statistics counter in bits (spec/10 R35, spec/40 R144). Log 5. -/
  cntW : Nat
  /-- `RASM_BUF_LEN`: the length of the reassembly buffers, at least the largest total length (spec/10 R51,
  spec/92 D17). DEDUCED bound, log 21. -/
  rasmBufLen : { n : Nat // 4095 ≤ n }
  /-- `PPDU_LAYOUT`. -/
  ppduLayout : { l : PpduLayout // l.legal = true }
deriving DecidableEq, Repr

/-- The default column of spec/00 R8. `MAX_FRAGS` has no default there; `none` is the value the test vectors take
(spec/95, preamble). DESIGN CHOICE, log 1; PRESUMED values, log 2 and log 3. -/
def Params.standard : Params where
  maxFrags := none
  seqAmbigMin := 8
  crc32 := .mpeg2
  codeL2s := 0x42#8
  codeVlanWoPtype := 0x31#8
  ethHdrLen := 14
  vlanHdrLen := 4
  cntW := 64
  rasmBufLen := ⟨4095, Nat.le_refl 4095⟩
  ppduLayout := ⟨PpduLayout.standard, by decide⟩

end Sys2Proof.Config
end

