-- ==== Sys2Proof/Syntax.lean ====
section
/-! DEFINITION. The instructions: one constructor for every row of spec/opcode_table.json, with its fields and
operands, and the record of operands that a host command carries beside its code. -/

namespace Sys2Proof

/-- The FPDU kinds of `HDRSZ` (spec/30 R117). -/
inductive FpduType where
  | logon
  | ctrl
  | trafficCtrl
  | traffic
deriving DecidableEq, Repr

/-- The instructions. The first eleven are wire units decoded from bytes, the others host commands (spec/30 R100).
A byte-string operand that may be absent is an `Option`; `none` is `absent` (spec/00 R14). -/
inductive Instr where
  /-- `PAD`: a zero byte at a PPDU-header position (R102). -/
  | pad
  /-- `COMP`: a PPDU that carries a whole ALPDU (R103). -/
  | comp (lt : LabelType) (pts : Bool) (length : BitVec 11)
  /-- `START`: the first fragment of an ALPDU (R104). -/
  | start (lt : LabelType) (pts : Bool) (fragLen : BitVec 11) (fid : Fid) (totalLen : Index) (useCrc : Bool)
  /-- `CONT`: a middle fragment (R105). -/
  | cont (length : BitVec 11) (fid : Fid)
  /-- `END`: the last fragment, its payload ends with the trailer (R106). -/
  | endPpdu (length : BitVec 11) (fid : Fid)
  /-- `PT_OMIT`: no protocol-type field (R110). -/
  | ptOmit
  /-- `PT_COMP`: a one-byte compressed code (R110). -/
  | ptComp (code : Byte)
  /-- `PT_FALLBACK`: 0xff and the little-endian protocol type (R110). -/
  | ptFallback (ptype : Ptype)
  /-- `PT_UNCOMP`: the little-endian protocol type (R110). -/
  | ptUncomp (ptype : Ptype)
  /-- `TRL_SEQ`: the one-byte sequence-number trailer (R111). -/
  | trlSeq (seq : SeqNb)
  /-- `TRL_CRC`: the four-byte little-endian CRC trailer (R111). -/
  | trlCrc (crc : Crc)
  /-- `TX_NEW`, code 0 (R191). -/
  | txNew (cfgword : CfgWord)
  /-- `TX_DESTROY`, code 1 (R193). -/
  | txDestroy
  /-- `ENCAP`, code 2 (R220). -/
  | encap (sdu : Option Bytes) (ptype : Ptype) (fid : Fid)
  /-- `EMIT`, code 3 (R240). -/
  | emit (fid : Fid) (burstSize : Nat)
  /-- `PACK`, code 4 (R280). -/
  | pack (fpduSize : Nat) (label : Option Bytes) (sched : List Fid)
  /-- `DUMP_ALPDU`, code 5 (R386). -/
  | dumpAlpdu (fid : Fid)
  /-- `TX_STAT`, code 6 (R384). -/
  | txStat (sel n : Nat)
  /-- `RX_NEW`, code 7 (R192). -/
  | rxNew (cfgword : CfgWord)
  /-- `RX_DESTROY`, code 8 (R194). -/
  | rxDestroy
  /-- `DECAP`, code 9 (R321). -/
  | decap (fpdu : Option Bytes)
  /-- `RX_STAT`, code 10 (R385). -/
  | rxStat (sel n : Nat)
  /-- `HDRSZ`, code 11 (R197). -/
  | hdrsz (cfgword : CfgWord) (fpduType : FpduType)
  /-- Reserved command code 12 (R116). -/
  | reserved12
  /-- Reserved command code 13 (R116). -/
  | reserved13
  /-- Reserved command code 14 (R116). -/
  | reserved14
  /-- Reserved command code 15 (R116). -/
  | reserved15
deriving DecidableEq, Repr

/-- The operands a host command carries beside its 4-bit code: "operands are passed by value beside the code, not
packed into bits" (spec/opcode_table.json; spec/30 R116). A command reads the ones R116 lists for it. -/
structure Operands where
  cfgword : CfgWord := 0
  sdu : Option Bytes := none
  ptype : Ptype := 0
  fid : Fid := 0
  /-- `burst_size` of `EMIT`, `fpdu_size` of `PACK`. -/
  size : Nat := 0
  label : Option Bytes := none
  /-- `sched` of `PACK`; the default is the one of `pack_one_fpdu` (R115, R282). -/
  sched : List Fid := [0, 1, 2, 3, 4, 5, 6, 7]
  sel : Nat := 0
  n : Nat := 0
  fpdu : Option Bytes := none
  fpduType : BitVec 2 := 0
deriving DecidableEq, Repr

end Sys2Proof
end

