-- ==== Sys2Proof/WellFormed.lean ====
section
/-! DEFINITION. Which instruction terms stand for an encoding. The field types already hold every width of
spec/30; what remains are the two forms whose bytes are read as another unit, and the size bound `FPDU_MAX`. -/

namespace Sys2Proof

/-- A `CONT` whose length is below 32 has a zero first byte and is a `PAD` (spec/30 R102, R105, R109). -/
def contIsNotPad (length : BitVec 11) : Bool := decide (32 ≤ length.toNat)

/-- The code byte 0xff is the fallback marker, so it is no `PT_COMP` (spec/30 R110). -/
def codeIsNotFallback (code : Byte) : Bool := code != 0xff#8

/-- The instruction terms whose encoding decodes to themselves. -/
def Instr.wellFormed : Instr → Bool
  | .cont length _ => contIsNotPad length
  | .ptComp code => codeIsNotFallback code
  | .pad | .comp .. | .start .. | .endPpdu .. | .ptOmit | .ptFallback _ | .ptUncomp _ | .trlSeq _ | .trlCrc _
  | .txNew _ | .txDestroy | .encap .. | .emit .. | .pack .. | .dumpAlpdu _ | .txStat .. | .rxNew _ | .rxDestroy
  | .decap _ | .rxStat .. | .hdrsz .. | .reserved12 | .reserved13 | .reserved14 | .reserved15 => true

/-- The operand bound of spec/30 R116: sizes and FPDUs a command names are at most `FPDU_MAX`. No rule depends on
it (spec/92 D2), so no meaning reads it. Log 4. -/
def Instr.withinFpduMax : Instr → Prop
  | .emit _ burst => burst ≤ Config.fpduMax
  | .pack size _ _ => size ≤ Config.fpduMax
  | .decap (some fpdu) => fpdu.length ≤ Config.fpduMax
  | .decap none => True
  | .pad | .comp .. | .start .. | .cont .. | .endPpdu .. | .ptOmit | .ptComp _ | .ptFallback _ | .ptUncomp _
  | .trlSeq _ | .trlCrc _ | .txNew _ | .txDestroy | .encap .. | .dumpAlpdu _ | .txStat .. | .rxNew _ | .rxDestroy
  | .rxStat .. | .hdrsz .. | .reserved12 | .reserved13 | .reserved14 | .reserved15 => True

end Sys2Proof
end

