-- ==== Sys2Proof/Decode.lean ====
section
/-! DEFINITION. Encodings (spec/30, spec/40): byte-order helpers, the PPDU header codec, the ALPDU header and
trailer codecs, the host command codes, the decoder over all of them and the encoder. -/

namespace Sys2Proof

/-! ### Multi-byte scalars (spec/00 R12, spec/40 R142) -/

/-- `le16(v)`: least significant byte first. -/
def le16 (v : BitVec 16) : Bytes := [v.extractLsb' 0 8, v.extractLsb' 8 8]

/-- `be16(v)`: most significant byte first. -/
def be16 (v : BitVec 16) : Bytes := [v.extractLsb' 8 8, v.extractLsb' 0 8]

/-- `le32(v)`: least significant byte first. -/
def le32 (v : BitVec 32) : Bytes :=
  [v.extractLsb' 0 8, v.extractLsb' 8 8, v.extractLsb' 16 8, v.extractLsb' 24 8]

/-- The four bytes of a 32-bit word, most significant first (spec/00 R11). -/
def be32 (v : BitVec 32) : Bytes :=
  [v.extractLsb' 24 8, v.extractLsb' 16 8, v.extractLsb' 8 8, v.extractLsb' 0 8]

/-- The 16-bit value whose more significant byte is `hi`. -/
def word16 (hi lo : Byte) : BitVec 16 := hi ++ lo

/-- The 32-bit value of four bytes, the most significant first: `X` of spec/00 R11. -/
def word32 (b3 b2 b1 b0 : Byte) : BitVec 32 := (b3 ++ b2 ++ b1 ++ b0 : BitVec 32)

/-! ### PPDU headers: PACK_HDR and UNPACK_HDR (spec/30 R101 to R107, spec/40 R140, R141)

The places of the fields are the parameter `PPDU_LAYOUT` of spec/00 R8; log 19. -/

/-- A field's value at its place in a header of `n` bits, zero elsewhere (R107). -/
def fieldAt (n pos : Nat) {w : Nat} (v : BitVec w) : BitVec n := v.setWidth n <<< pos

/-- `W` of a COMP header (R103): S=1, E=1, LT, PTS, length. -/
def compWord (l : Config.PpduLayout) (lt : LabelType) (pts : Bool) (length : BitVec 11) : BitVec 16 :=
  0xC000#16 ||| fieldAt 16 l.compLt lt ||| fieldAt 16 l.compPts (BitVec.ofBool pts) |||
    fieldAt 16 l.compLength length

/-- `X` of a START header (R104): S=1, E=0, LT, PTS, fragLen, FID, totalLen, UseCRC. -/
def startWord (l : Config.PpduLayout) (lt : LabelType) (pts : Bool) (fragLen : BitVec 11) (fid : Fid)
    (totalLen : Index) (useCrc : Bool) : BitVec 32 :=
  0x80000000#32 ||| fieldAt 32 l.startLt lt ||| fieldAt 32 l.startPts (BitVec.ofBool pts) |||
    fieldAt 32 l.startFragLen fragLen ||| fieldAt 32 l.startFid fid ||| fieldAt 32 l.startTotalLen totalLen |||
    fieldAt 32 l.startUseCrc (BitVec.ofBool useCrc)

/-- `W` of a CONT header (R105): S=0, E=0, length, FID. -/
def contWord (l : Config.PpduLayout) (length : BitVec 11) (fid : Fid) : BitVec 16 :=
  fieldAt 16 l.contLength length ||| fieldAt 16 l.contFid fid

/-- `W` of an END header (R106): a CONT header with E=1. -/
def endWord (l : Config.PpduLayout) (length : BitVec 11) (fid : Fid) : BitVec 16 :=
  0x4000#16 ||| contWord l length fid

/-- The fields of a COMP header (R107). -/
def unpackComp (l : Config.PpduLayout) (w : BitVec 16) : Instr :=
  .comp (w.extractLsb' l.compLt 2) (w.getLsbD l.compPts) (w.extractLsb' l.compLength 11)

/-- The fields of a START header (R107). -/
def unpackStart (l : Config.PpduLayout) (x : BitVec 32) : Instr :=
  .start (x.extractLsb' l.startLt 2) (x.getLsbD l.startPts) (x.extractLsb' l.startFragLen 11)
    (x.extractLsb' l.startFid 3) (x.extractLsb' l.startTotalLen 12) (x.getLsbD l.startUseCrc)

/-- The fields of a CONT header (R107). -/
def unpackCont (l : Config.PpduLayout) (w : BitVec 16) : Instr :=
  .cont (w.extractLsb' l.contLength 11) (w.extractLsb' l.contFid 3)

/-- The fields of an END header (R107). -/
def unpackEnd (l : Config.PpduLayout) (w : BitVec 16) : Instr :=
  .endPpdu (w.extractLsb' l.contLength 11) (w.extractLsb' l.contFid 3)

/-! ### The decoder -/

/-- Why no unit can be decoded. -/
inductive DecodeError where
  /-- No byte is left at a PPDU-header position: the scan ends (spec/46 R302). -/
  | endOfFpdu
  /-- The PPDU header runs past the end of the FPDU (spec/46 R304). -/
  | truncatedHeader
  /-- The ALPDU is too short for its protocol-type field (spec/47 R350). -/
  | ptypeFieldTooShort
  /-- Too few bytes for the trailer form (spec/47 R332). -/
  | trailerTooShort
  /-- A byte that is no 4-bit command code (spec/30 R116). -/
  | notACommandCode
deriving DecidableEq, Repr

/-- Where a unit stands. The bytes alone do not say what they are: an ALPDU header form "is not self-describing"
(spec/30 R110), a trailer's form is the START's UseCRC (R111), and commands are a separate code space (R116). -/
inductive Site where
  /-- A PPDU-header position of an FPDU. -/
  | ppdu
  /-- The head of an ALPDU, with the PPDU's PTS bit and the receiver's `use_compressed_ptype`. -/
  | alpduHdr (pts useCompressed : Bool)
  /-- The end of an END payload, with the START's UseCRC bit. -/
  | trailer (useCrc : Bool)
  /-- A host command, with the operands passed beside its code. -/
  | command (operands : Operands)
deriving DecidableEq, Repr

/-- What is decoded from two bytes of a header whose first byte is not zero, START apart (R101). -/
def unpackShort (l : Config.PpduLayout) (w : BitVec 16) : Instr :=
  if w.getLsbD 15 then unpackComp l w else if w.getLsbD 14 then unpackEnd l w else unpackCont l w

/-- S = 1 and E = 0: a START, whose header has four bytes (R101, R303). -/
def isStartByte (b : Byte) : Bool := b.getLsbD 7 && !b.getLsbD 6

/-- The decode order at a PPDU-header position (R109): PAD first, then S and E. -/
def decodePpduWith (l : Config.PpduLayout) : Bytes → Except DecodeError (Instr × Bytes)
  | [] => .error .endOfFpdu
  | b :: rest =>
    if b = 0 then .ok (.pad, rest)
    else if isStartByte b then
      match rest with
      | b1 :: b2 :: b3 :: rest' => .ok (unpackStart l (word32 b b1 b2 b3), rest')
      | _ => .error .truncatedHeader
    else
      match rest with
      | b1 :: rest' => .ok (unpackShort l (word16 b b1), rest')
      | [] => .error .truncatedHeader

/-- The ALPDU header form, as the receiver recognises it (R110, spec/47 R350). -/
def decodeAlpduHdr (pts useCompressed : Bool) (bytes : Bytes) : Except DecodeError (Instr × Bytes) :=
  if pts then .ok (.ptOmit, bytes)
  else if useCompressed then
    match bytes with
    | [] => .error .ptypeFieldTooShort
    | code :: rest =>
      if code = 0xff#8 then
        match rest with
        | lo :: hi :: rest' => .ok (.ptFallback (word16 hi lo), rest')
        | _ => .error .ptypeFieldTooShort
      else .ok (.ptComp code, rest)
  else
    match bytes with
    | lo :: hi :: rest => .ok (.ptUncomp (word16 hi lo), rest)
    | _ => .error .ptypeFieldTooShort

/-- The trailer form (R111); bits 7:3 of a sequence trailer are ignored (R113, spec/47 R345). -/
def decodeTrailer (useCrc : Bool) (bytes : Bytes) : Except DecodeError (Instr × Bytes) :=
  if useCrc then
    match bytes with
    | b0 :: b1 :: b2 :: b3 :: rest => .ok (.trlCrc (word32 b3 b2 b1 b0), rest)
    | _ => .error .trailerTooShort
  else
    match bytes with
    | b :: rest => .ok (.trlSeq (b.extractLsb' 0 3), rest)
    | [] => .error .trailerTooShort

/-- The `fpdu_type` values (R117). -/
def decodeFpduType (v : BitVec 2) : FpduType :=
  match v.toNat with
  | 0 => .logon
  | 1 => .ctrl
  | 2 => .trafficCtrl
  | _ => .traffic

/-- The command codes (R116): total, since the code has 4 bits. -/
def decodeCommand (code : BitVec 4) (o : Operands) : Instr :=
  match code.toNat with
  | 0 => .txNew o.cfgword
  | 1 => .txDestroy
  | 2 => .encap o.sdu o.ptype o.fid
  | 3 => .emit o.fid o.size
  | 4 => .pack o.size o.label o.sched
  | 5 => .dumpAlpdu o.fid
  | 6 => .txStat o.sel o.n
  | 7 => .rxNew o.cfgword
  | 8 => .rxDestroy
  | 9 => .decap o.fpdu
  | 10 => .rxStat o.sel o.n
  | 11 => .hdrsz o.cfgword (decodeFpduType o.fpduType)
  | 12 => .reserved12
  | 13 => .reserved13
  | 14 => .reserved14
  | _ => .reserved15

/-- A command byte: the code in its low four bits, nothing above them. -/
def decodeCommandByte (o : Operands) : Bytes → Except DecodeError (Instr × Bytes)
  | [] => .error .notACommandCode
  | b :: rest =>
    if b.extractLsb' 4 4 = 0 then .ok (decodeCommand (b.extractLsb' 0 4) o, rest) else .error .notACommandCode

/-- The decoder under a layout of the PPDU headers: total on any bytes, refusing by name. It gives the unit and the
bytes after it. -/
def decodeWith (l : Config.PpduLayout) : Site → Bytes → Except DecodeError (Instr × Bytes)
  | .ppdu, bytes => decodePpduWith l bytes
  | .alpduHdr pts useCompressed, bytes => decodeAlpduHdr pts useCompressed bytes
  | .trailer useCrc, bytes => decodeTrailer useCrc bytes
  | .command o, bytes => decodeCommandByte o bytes

/-- The decoder under the layout of spec/30. -/
def decode : Site → Bytes → Except DecodeError (Instr × Bytes) := decodeWith .standard

/-! ### The encoder -/

/-- The command code of a host command (R116); a wire unit has none. -/
def commandCode : Instr → Option (BitVec 4)
  | .txNew _ => some 0
  | .txDestroy => some 1
  | .encap .. => some 2
  | .emit .. => some 3
  | .pack .. => some 4
  | .dumpAlpdu _ => some 5
  | .txStat .. => some 6
  | .rxNew _ => some 7
  | .rxDestroy => some 8
  | .decap _ => some 9
  | .rxStat .. => some 10
  | .hdrsz .. => some 11
  | .reserved12 => some 12
  | .reserved13 => some 13
  | .reserved14 => some 14
  | .reserved15 => some 15
  | .pad | .comp .. | .start .. | .cont .. | .endPpdu .. | .ptOmit | .ptComp _ | .ptFallback _ | .ptUncomp _
  | .trlSeq _ | .trlCrc _ => none

/-- The bytes of a unit: PACK_HDR for a PPDU header (spec/40 R140), the header and trailer forms of spec/30 R110
and R111, the code byte of a command. -/
def encodeWith (l : Config.PpduLayout) : Instr → Bytes
  | .pad => [0]
  | .comp lt pts length => be16 (compWord l lt pts length)
  | .start lt pts fragLen fid totalLen useCrc => be32 (startWord l lt pts fragLen fid totalLen useCrc)
  | .cont length fid => be16 (contWord l length fid)
  | .endPpdu length fid => be16 (endWord l length fid)
  | .ptOmit => []
  | .ptComp code => [code]
  | .ptFallback ptype => 0xff#8 :: le16 ptype
  | .ptUncomp ptype => le16 ptype
  | .trlSeq seq => [seq.setWidth 8]
  | .trlCrc crc => le32 crc
  | .txNew _ => [0]
  | .txDestroy => [1]
  | .encap .. => [2]
  | .emit .. => [3]
  | .pack .. => [4]
  | .dumpAlpdu _ => [5]
  | .txStat .. => [6]
  | .rxNew _ => [7]
  | .rxDestroy => [8]
  | .decap _ => [9]
  | .rxStat .. => [10]
  | .hdrsz .. => [11]
  | .reserved12 => [12]
  | .reserved13 => [13]
  | .reserved14 => [14]
  | .reserved15 => [15]

/-- The encoder under the layout of spec/30. Only PPDU headers depend on a layout. -/
def encode : Instr → Bytes := encodeWith .standard

/-- The instruction terms whose encoding under a layout decodes to themselves: a CONT whose header begins with a zero
byte is a `PAD` (R102, R109). Under the layout of spec/30 this is `Instr.wellFormed`. -/
def Instr.wellFormedWith (l : Config.PpduLayout) : Instr → Bool
  | .cont length fid => (contWord l length fid).extractLsb' 8 8 != 0
  | .ptComp code => codeIsNotFallback code
  | .pad | .comp .. | .start .. | .endPpdu .. | .ptOmit | .ptFallback _ | .ptUncomp _ | .trlSeq _ | .trlCrc _
  | .txNew _ | .txDestroy | .encap .. | .emit .. | .pack .. | .dumpAlpdu _ | .txStat .. | .rxNew _ | .rxDestroy
  | .decap _ | .rxStat .. | .hdrsz .. | .reserved12 | .reserved13 | .reserved14 | .reserved15 => true

/-- The number of an `fpdu_type` (R117). -/
def encodeFpduType : FpduType → BitVec 2
  | .logon => 0
  | .ctrl => 1
  | .trafficCtrl => 2
  | .traffic => 3

/-- The operands that go beside a command's code; a wire unit has none. -/
def operandsOf : Instr → Operands
  | .txNew cfgword => { cfgword := cfgword }
  | .encap sdu ptype fid => { sdu := sdu, ptype := ptype, fid := fid }
  | .emit fid size => { fid := fid, size := size }
  | .pack size label sched => { size := size, label := label, sched := sched }
  | .dumpAlpdu fid => { fid := fid }
  | .txStat sel n => { sel := sel, n := n }
  | .rxNew cfgword => { cfgword := cfgword }
  | .decap fpdu => { fpdu := fpdu }
  | .rxStat sel n => { sel := sel, n := n }
  | .hdrsz cfgword fpduType => { cfgword := cfgword, fpduType := encodeFpduType fpduType }
  | .txDestroy | .rxDestroy | .reserved12 | .reserved13 | .reserved14 | .reserved15 => {}
  | .pad | .comp .. | .start .. | .cont .. | .endPpdu .. | .ptOmit | .ptComp _ | .ptFallback _ | .ptUncomp _
  | .trlSeq _ | .trlCrc _ => {}

/-- Where an instruction's bytes are decoded. -/
def siteOf (i : Instr) : Site :=
  match i with
  | .pad | .comp .. | .start .. | .cont .. | .endPpdu .. => .ppdu
  | .ptOmit => .alpduHdr true false
  | .ptComp _ | .ptFallback _ => .alpduHdr false true
  | .ptUncomp _ => .alpduHdr false false
  | .trlSeq _ => .trailer false
  | .trlCrc _ => .trailer true
  | .txNew _ | .txDestroy | .encap .. | .emit .. | .pack .. | .dumpAlpdu _ | .txStat .. | .rxNew _ | .rxDestroy
  | .decap _ | .rxStat .. | .hdrsz .. | .reserved12 | .reserved13 | .reserved14 | .reserved15 =>
    .command (operandsOf i)

/-! ### The words of spec/opcode_table.json

The table gives a unit of n bytes one word of 8n bits with the first wire byte at the top, and a command its 4-bit
code. The word does not say which of the four code spaces it belongs to; `tableSite` chooses one by the width and,
where rows of one width overlap, as log 13 says. -/

/-- The bytes of a table word, first wire byte first; a code of 4 bits is one byte. -/
def tableBytes (nbits w : Nat) : Bytes :=
  match nbits with
  | 0 => []
  | 4 | 8 => [BitVec.ofNat 8 w]
  | 16 => be16 (BitVec.ofNat 16 w)
  | 24 => BitVec.ofNat 8 (w / 65536) :: be16 (BitVec.ofNat 16 w)
  | 32 => be32 (BitVec.ofNat 32 w)
  | _ => []

/-- The code space a table word is read in. Log 13. -/
def tableSite (nbits w : Nat) : Option Site :=
  match nbits with
  | 0 => some (.alpduHdr true false)
  | 4 => some (.command {})
  | 8 =>
    if w % 256 = 0 then some .ppdu
    else if w % 256 < 16 then some (.command {}) else some (.alpduHdr false true)
  | 16 => if w / 16384 % 4 = 2 ∨ w / 256 % 256 = 0 then some (.alpduHdr false false) else some .ppdu
  | 24 => if w / 65536 % 256 = 255 then some (.alpduHdr false true) else none
  | 32 => if w / 1073741824 % 4 = 2 then some .ppdu else some (.trailer true)
  | _ => none

/-- The instruction the decoder reads from a table word. -/
def decodeTableWord (nbits w : Nat) : Option Instr :=
  match tableSite nbits w with
  | none => none
  | some site =>
    match decode site (tableBytes nbits w) with
    | .ok (i, _) => some i
    | .error _ => none

end Sys2Proof
end

