-- ==== Sys2Proof/Machine/State.lean ====
section
/-! DEFINITION. The state of the machine as plain data: the two units with their contexts, buffers and counters
(spec/10), the DECAP command in progress, the host's side, the parameters; the outcomes' reasons; and reset. -/

namespace Sys2Proof.Machine

/-! ### What commands answer -/

/-- The command statuses (spec/60 R400). -/
inductive Status where
  | ok
  | okAndDone
  | err
  | errNullTrmt
  | errNullRcvr
  | errNullBuf
  | errSduTooBig
  | errBurstTooSmall
  | errNInitBuf
  | errCtxBusy
  | errContextTimeout
  | errTooMuchFrag
  | errFrag
  | errConfig
  | headerSizeOk
  | headerSizeErrNonDeterministic
  | headerSizeErrInvalidConfig
deriving DecidableEq, Repr

/-- The receiver's drop reasons (spec/60 R410). -/
inductive DropReason where
  | invalidTransition
  | contextNotFree
  | totalExceeded
  | lengthMismatch
  | trailerShort
  | seqAmbiguous
  | crcMismatch
  | malformedPtype
  | malformedVlan
  | reservedLt
  | fpduTruncated
  | sduTooBigRx
deriving DecidableEq, Repr

/-- The events of a `DECAP` result (spec/47 R322); a fragment-id of `none` is the spec's `-`. -/
inductive Event where
  | sdu (f : Option Fid) (ptype : Ptype) (bytes : Bytes)
  | frag (f : Fid)
  | drop (f : Option Fid) (reason : DropReason)
deriving DecidableEq, Repr

/-- The results of one command (spec/30 R116): its status and, where the command has them, its byte string (the
PPDU, FPDU or dumped ALPDU), its numbers and its events. A result the command does not have holds the value here;
log 16. -/
structure Response where
  status : Status
  bytes : Bytes := []
  bytesWritten : Nat := 0
  paddingSize : Nat := 0
  value : Count := 0
  size : Nat := 0
  events : List Event := []
deriving DecidableEq, Repr

/-! ### The units -/

/-- A counter record: nine counters of `CNT_W` bits, in the order of their numbers (spec/10 R35). An update, which is
added to a record, has the same form. -/
structure Counters where
  pktsIn : Count := 0
  pktsOut : Count := 0
  pktsOk : Count := 0
  pktsDropped : Count := 0
  pktsLost : Count := 0
  bytesIn : Count := 0
  bytesOut : Count := 0
  bytesOk : Count := 0
  bytesDropped : Count := 0
deriving DecidableEq, Repr

/-- A buffer: (offset, byte) pairs, offsets strictly rising; an offset that is not listed has no value
(spec/10 R40, R51, R63; log 8). -/
abbrev Mem := List Host.Cell

/-- A transmitter context (spec/10 R40 to R46). -/
structure TxCtx where
  buf : Mem
  head : Index
  sduStart : Index
  sduEnd : Index
  tail : Index
  cursor : Index
  initialised : Bool
  sduCopied : Bool
  isFragmented : Bool
  useCrc : Bool
  nextSeqNb : SeqNb
  lt : LabelType
  pts : Bool
  sduLen : Index
  fragCount : Nat
  cnt : Counters
deriving DecidableEq, Repr

/-- The transmitter unit (spec/10 R20, R21, R30, R33). -/
structure Tx where
  configured : Bool
  cfg : CfgWord
  busy : BitVec 8
  agg : Counters
  ctx : Vector TxCtx 8
deriving DecidableEq, Repr

/-- A receiver context (spec/10 R51 to R55). -/
structure RxCtx where
  buf : Mem
  totalLen : Index
  bytesReceived : Index
  burstBytes : Index
  lt : LabelType
  pts : Bool
  useCrc : Bool
  seqInit : Bool
  nextExpSeq : SeqNb
  cnt : Counters
deriving DecidableEq, Repr

/-- The receiver unit (spec/10 R20, R21, R30, R34, R57). -/
structure Rx where
  configured : Bool
  cfg : CfgWord
  busy : BitVec 8
  agg : Counters
  ctx : Vector RxCtx 8
  off : Nat
deriving DecidableEq, Repr

/-! ### The DECAP command in progress -/

/-- Which unit of the FPDU the receiver decodes next. `trailer` and `alpdu` hold the locals of spec/47 R331 and
R350: the reassembled ALPDU, the PPDU's length field `len` and the `prior` of R323. Log 10. -/
inductive ScanPhase where
  /-- No DECAP is in progress. -/
  | idle
  /-- At `rx.off`, a PPDU-header position (spec/46 R302). -/
  | header
  /-- At the trailer `trl` of an END on context `f` whose ALPDU is complete (spec/47 R331, R333). -/
  | trailer (f : Fid) (alpdu trl : Bytes) (len prior : Nat)
  /-- At the head of a complete ALPDU that is to be delivered (spec/47 R350). -/
  | alpdu (f : Option Fid) (alpdu : Bytes) (lt : LabelType) (pts : Bool) (len prior : Nat)
deriving DecidableEq, Repr

/-- The locals of a DECAP (spec/47 R321): the FPDU taken by value, the events so far, the error mark. -/
structure Scan where
  phase : ScanPhase
  fpdu : Bytes
  events : List Event
  err : Bool
deriving DecidableEq, Repr

/-! ### The host's side -/

/-- A command the host has issued: its code, its operands, and which producer issued it (spec/30 R116,
spec/20 R86, R87). -/
structure Request where
  producer : Nat
  code : BitVec 4
  operands : Operands
deriving DecidableEq, Repr

/-- The host's side of the block: the model's own fields. `requests` are the commands not yet accepted, in the
order the block accepts them (log 11); `producer` issued the command being executed; `owner` is the producer whose
`ENCAP` last took each transmitter context (log 15); `response` is the last command's result (log 16). -/
structure HostPort where
  requests : List Request
  producer : Nat
  owner : Vector Nat 8
  response : Option Response
deriving DecidableEq, Repr

/-- The machine. `params` carries the named parameters of spec/00 R8, which no instruction writes (log 1). -/
structure State where
  tx : Tx
  rx : Rx
  scan : Scan
  host : HostPort
  params : Config.Params
deriving DecidableEq, Repr

/-! ### Why a step stops -/

/-- The machine stops with a fault. Neither fault happens in a state that meets the invariant of Safety.lean. -/
inductive Fault where
  /-- A buffer access at an offset outside the buffer, which the spec says does not exist (spec/10 R40, R51). Raised by
  the buffer operations of Machine/Ops.lean. Safe: the spec's rules never make such an access. Log 9. -/
  | bufferBounds
  /-- A read of a buffer byte that nothing has written, whose content the spec leaves unspecified (spec/10 R63,
  spec/20 R80). Raised by the buffer read. Safe: no proof can lean on a value. Log 8. -/
  | unwrittenByte
deriving DecidableEq, Repr

/-- The model gives the instruction no meaning here. -/
inductive Refusal where
  /-- An instruction whose arm has no meaning yet. Safe. -/
  | notModelled (mnemonic : String)
  /-- A wire unit is executed where no such unit is being decoded: the spec gives a wire unit an effect only inside
  a DECAP, at its place in the FPDU (spec/30 R100, spec/46 R306). Raised by the meanings of the wire units. Safe.
  Log 12. -/
  | unitOutOfPlace
  /-- A second producer's command names a fragment-id that another producer has taken: "outside the admitted
  behaviour (refuse)" (spec/20 R87). Raised by the step when it accepts a command. Safe. Log 15. -/
  | foreignProducer
deriving DecidableEq, Repr

/-! ### Reset (spec/10 R63, spec/70 R440) -/

/-- A transmitter context after reset: empty, every index at `sdu_start` = 3. -/
def TxCtx.reset : TxCtx where
  buf := []
  head := 3
  sduStart := 3
  sduEnd := 3
  tail := 3
  cursor := 3
  initialised := false
  sduCopied := false
  isFragmented := false
  useCrc := false
  nextSeqNb := 0
  lt := 0
  pts := false
  sduLen := 0
  fragCount := 0
  cnt := {}

/-- The transmitter unit after reset and after `TX_DESTROY`. `cfg` is unspecified there: log 6. -/
def Tx.reset : Tx where
  configured := false
  cfg := 0
  busy := 0
  agg := {}
  ctx := Vector.replicate 8 TxCtx.reset

/-- A receiver context after reset. -/
def RxCtx.reset : RxCtx where
  buf := []
  totalLen := 0
  bytesReceived := 0
  burstBytes := 0
  lt := 0
  pts := false
  useCrc := false
  seqInit := false
  nextExpSeq := 0
  cnt := {}

/-- The receiver unit after reset and after `RX_DESTROY`. `cfg` is unspecified there (log 6), `off` not live
(log 7). -/
def Rx.reset : Rx where
  configured := false
  cfg := 0
  busy := 0
  agg := {}
  ctx := Vector.replicate 8 RxCtx.reset
  off := 0

/-- No DECAP in progress. -/
def Scan.idle : Scan where
  phase := .idle
  fpdu := []
  events := []
  err := false

/-- The host has issued nothing and no command has ended. -/
def HostPort.reset : HostPort where
  requests := []
  producer := 0
  owner := Vector.replicate 8 0
  response := none

/-- The machine right after reset: both units unconfigured, nothing issued (spec/70 R440). -/
def State.reset : State where
  tx := Tx.reset
  rx := Rx.reset
  scan := Scan.idle
  host := HostPort.reset
  params := Config.Params.standard

end Sys2Proof.Machine
end

