-- ==== Sys2Proof/Machine/Operands.lean ====
section
/-! DEFINITION. Operand forms and derived values: the fixed numbers of spec/00 R7, the fields of the configuration
word (spec/10 R30, R32), the validator (spec/42 R190), the numbers of statuses, reasons and counters, and the
derived lengths of a transmitter context. -/

namespace Sys2Proof.Machine

/-! ### Fixed parameters (spec/00 R7, R8) -/

/-- `SDU_MAX`. -/
def sduMax : Nat := 4088

/-- `FRAG_BUF_LEN`, the length of a transmitter buffer; a receiver buffer has the parameter `RASM_BUF_LEN`. -/
def fragBufLen : Nat := 4095

/-- `ALPDU_HDR_MAX`, which is also the constant `sdu_start` (spec/20 R78). -/
def alpduHdrMax : Nat := 3

/-- `PPDU_LEN_MAX`, the largest 11-bit length. -/
def ppduLenMax : Nat := 2047

/-- `LABEL_MAX`. -/
def labelMax : Nat := 15

/-! ### The configuration word (spec/10 R30) -/

/-- `allow_ptype_omission`, bit 0. -/
def allowPtypeOmission (w : CfgWord) : Bool := w.getLsbD 0

/-- `use_compressed_ptype`, bit 1. -/
def useCompressedPtype (w : CfgWord) : Bool := w.getLsbD 1

/-- `allow_alpdu_crc`, bit 2; it is also the derived `cfg.use_crc` (R32). -/
def allowAlpduCrc (w : CfgWord) : Bool := w.getLsbD 2

/-- `allow_alpdu_sequence_number`, bit 3. -/
def allowAlpduSequenceNumber (w : CfgWord) : Bool := w.getLsbD 3

/-- `use_explicit_payload_header_map`, bit 4. -/
def useExplicitPayloadHeaderMap (w : CfgWord) : Bool := w.getLsbD 4

/-- Reserved bits 7:5. -/
def cfgReservedLow (w : CfgWord) : BitVec 3 := w.extractLsb' 5 3

/-- `implicit_protocol_type`, bits 15:8. -/
def implicitProtocolType (w : CfgWord) : Byte := w.extractLsb' 8 8

/-- `implicit_ppdu_label_size`, bits 23:16. -/
def implicitPpduLabelSize (w : CfgWord) : Nat := (w.extractLsb' 16 8).toNat

/-- `implicit_payload_label_size`, bits 31:24. -/
def implicitPayloadLabelSize (w : CfgWord) : Nat := (w.extractLsb' 24 8).toNat

/-- `type_0_alpdu_label_size`, bits 39:32. -/
def type0AlpduLabelSize (w : CfgWord) : Nat := (w.extractLsb' 32 8).toNat

/-- Reserved bits 55:40. -/
def cfgReservedHigh (w : CfgWord) : BitVec 16 := w.extractLsb' 40 16

/-- `VALID_IMPLICIT` (spec/41 R179). -/
def validImplicit (code : Byte) : Bool :=
  code == 0x0d#8 || code == 0x0e#8 || code == 0x0f#8 || code == 0x11#8 || code == 0x19#8 || code == 0x1a#8 ||
    code == 0x30#8

/-- `cfg_valid`: the tests V1 to V7 of spec/42 R190. -/
def cfgValid (w : CfgWord) : Bool :=
  decide (implicitPpduLabelSize w ≤ labelMax) && decide (implicitPayloadLabelSize w ≤ labelMax) &&
    decide (type0AlpduLabelSize w ≤ labelMax) && validImplicit (implicitProtocolType w) &&
    (allowAlpduCrc w || allowAlpduSequenceNumber w) && !useExplicitPayloadHeaderMap w &&
    cfgReservedLow w == 0 && cfgReservedHigh w == 0

/-- The trailer length a mode bit asks for (R32, spec/47 R331). -/
def trlLen (useCrc : Bool) : Nat := if useCrc then 4 else 1

/-! ### Register values -/

/-- A 12-bit register holding a length or offset; the invariant keeps every one below 4096 (spec/10 R47, R56). -/
def index (n : Nat) : Index := BitVec.ofNat 12 n

/-- `alpdu_len`: ALPDU header and SDU of the pending ALPDU (spec/43 R226). -/
def alpduLen (c : TxCtx) : Nat := c.sduEnd.toNat - c.head.toNat

/-- `rem_a`: ALPDU bytes not yet emitted (spec/44 R248). -/
def remAlpdu (c : TxCtx) : Nat := c.sduEnd.toNat - c.cursor.toNat

/-- `rem_t`: what remains with the trailer (spec/44 R248). -/
def remTotal (c : TxCtx) : Nat := remAlpdu c + (c.tail.toNat - c.sduEnd.toNat)

/-! ### Numbers of the results (spec/60 R400, R410) and of the counters (spec/10 R35) -/

/-- The code of a status (spec/60 R400). -/
def statusCode : Status → Nat
  | .ok => 0
  | .okAndDone => 1
  | .err => 2
  | .errNullTrmt => 3
  | .errNullRcvr => 4
  | .errNullBuf => 5
  | .errSduTooBig => 6
  | .errBurstTooSmall => 7
  | .errNInitBuf => 8
  | .errCtxBusy => 9
  | .errContextTimeout => 10
  | .errTooMuchFrag => 11
  | .errFrag => 12
  | .errConfig => 13
  | .headerSizeOk => 14
  | .headerSizeErrNonDeterministic => 15
  | .headerSizeErrInvalidConfig => 16

/-- The code of a drop reason (spec/60 R410). -/
def dropCode : DropReason → Nat
  | .invalidTransition => 1
  | .contextNotFree => 2
  | .totalExceeded => 3
  | .lengthMismatch => 4
  | .trailerShort => 5
  | .seqAmbiguous => 6
  | .crcMismatch => 7
  | .malformedPtype => 8
  | .malformedVlan => 9
  | .reservedLt => 10
  | .fpduTruncated => 11
  | .sduTooBigRx => 12

/-- Counter number `n` of a record (spec/10 R35); a number above 8 names none. -/
def counter (c : Counters) (n : Nat) : Option Count :=
  match n with
  | 0 => some c.pktsIn
  | 1 => some c.pktsOut
  | 2 => some c.pktsOk
  | 3 => some c.pktsDropped
  | 4 => some c.pktsLost
  | 5 => some c.bytesIn
  | 6 => some c.bytesOut
  | 7 => some c.bytesOk
  | 8 => some c.bytesDropped
  | _ => none

end Sys2Proof.Machine
end

