-- ==== Sys2Proof/Machine/Flags.lean ====
section
/-! DEFINITION. The flags of the machine (spec/10 R59): the busy bitmaps with their test, set and clear
(spec/10 R33, R34, spec/20 R82). The other flags are single Bool fields of the units and contexts. -/

namespace Sys2Proof.Machine

/-- Bit `f` of a busy bitmap: 1 means busy (spec/10 R33). -/
def busyBit (busy : BitVec 8) (f : Fid) : Bool := busy.getLsbD f.toNat

/-- The bitmap with bit `f` set (spec/20 R82). -/
def setBusy (busy : BitVec 8) (f : Fid) : BitVec 8 := busy ||| BitVec.twoPow 8 f.toNat

/-- The bitmap with bit `f` cleared (spec/20 R82). -/
def clearBusy (busy : BitVec 8) (f : Fid) : BitVec 8 := busy &&& ~~~ BitVec.twoPow 8 f.toNat

end Sys2Proof.Machine
end

