-- ==== Sys2Proof/Machine/Ops.lean ====
section
/-! DEFINITION. The named operations every meaning is written over: buffer reads and writes (spec/20), context
access, counting (spec/48), answering a command, and the receiver's exceptions `drop` and `truncated` with the
release of a context (spec/47 R340, R341, spec/46 R310). There is no exception return (spec/60 R417): after a drop
the scan goes on with the next unit. -/

namespace Sys2Proof.Machine

open Host (Outcome)

/-! ### Buffers (spec/20 R70, R78 to R80) -/

/-- The offsets of a buffer's cells rise strictly from `lo` on and stay inside its `size` bytes. -/
def risingFrom (size lo : Nat) : Mem → Bool
  | [] => true
  | (a, _) :: m => decide (lo ≤ a) && decide (a < size) && risingFrom size (a + 1) m

/-- The canonical form of a buffer of `size` bytes: offsets strictly rising and inside 0..size-1. An unlisted offset
has no value, so no entry can repeat one. -/
def Mem.wf (size : Nat) (m : Mem) : Bool := risingFrom size 0 m

/-- The byte at offset `a`, where one has been written. -/
def byteAt (m : Mem) (a : Nat) : Option Byte := m.lookup a

/-- One byte of a buffer of `size` bytes: a fault outside the buffer (log 9) and where nothing has been written
(log 8). -/
def readByte (size : Nat) (m : Mem) (a : Nat) : Except Fault Byte :=
  if a < size then
    match byteAt m a with
    | some b => .ok b
    | none => .error .unwrittenByte
  else .error .bufferBounds

/-- `MemRead(buf, off, n)` (spec/00 R13) in a buffer of `size` bytes. -/
def memRead (size : Nat) (m : Mem) (off : Nat) : Nat → Except Fault Bytes
  | 0 => .ok []
  | n + 1 =>
    match readByte size m off, memRead size m (off + 1) n with
    | .ok b, .ok bs => .ok (b :: bs)
    | .error e, _ => .error e
    | .ok _, .error e => .error e

/-- The cells of a byte string stored from offset `off` on. -/
def cellsFrom (off : Nat) : Bytes → Mem
  | [] => []
  | b :: bs => (off, b) :: cellsFrom (off + 1) bs

/-- The cells of a buffer with offsets below `lo`. -/
def cellsBelow (m : Mem) (lo : Nat) : Mem := m.filter (fun c => decide (c.1 < lo))

/-- The cells of a buffer with offsets from `hi` on. -/
def cellsFromOn (m : Mem) (hi : Nat) : Mem := m.filter (fun c => decide (hi ≤ c.1))

/-- `MemWrite(buf, off, S)` (spec/00 R13) in a buffer of `size` bytes: a fault where it would pass the end (log 9). -/
def memWrite (size : Nat) (m : Mem) (off : Nat) (bytes : Bytes) : Except Fault Mem :=
  if off + bytes.length ≤ size then
    .ok (cellsBelow m off ++ cellsFrom off bytes ++ cellsFromOn m (off + bytes.length))
  else .error .bufferBounds

/-! ### Contexts -/

/-- `tx.ctx[f]`. -/
def txCtx (t : Tx) (f : Fid) : TxCtx := t.ctx[f.toNat]'f.isLt

/-- The unit with `tx.ctx[f]` replaced. -/
def setTxCtx (t : Tx) (f : Fid) (c : TxCtx) : Tx := { t with ctx := t.ctx.set f.toNat c f.isLt }

/-- `rx.ctx[f]`. -/
def rxCtx (r : Rx) (f : Fid) : RxCtx := r.ctx[f.toNat]'f.isLt

/-- The unit with `rx.ctx[f]` replaced. -/
def setRxCtx (r : Rx) (f : Fid) (c : RxCtx) : Rx := { r with ctx := r.ctx.set f.toNat c f.isLt }

/-! ### Counters (spec/10 R35, spec/48 R380) -/

/-- One counter with an update added to it, modulo `2^CNT_W` (spec/40 R144). -/
def addCount (w a d : Nat) : Count := (a + d) % 2 ^ w

/-- A record with an update added to it, counter by counter (spec/48 R380). -/
def addCounters (w : Nat) (a d : Counters) : Counters where
  pktsIn := addCount w a.pktsIn d.pktsIn
  pktsOut := addCount w a.pktsOut d.pktsOut
  pktsOk := addCount w a.pktsOk d.pktsOk
  pktsDropped := addCount w a.pktsDropped d.pktsDropped
  pktsLost := addCount w a.pktsLost d.pktsLost
  bytesIn := addCount w a.bytesIn d.bytesIn
  bytesOut := addCount w a.bytesOut d.bytesOut
  bytesOk := addCount w a.bytesOk d.bytesOk
  bytesDropped := addCount w a.bytesDropped d.bytesDropped

/-- An update of `tx.ctx[f].cnt`, applied to `tx.agg` in the same step (spec/10 R35). -/
def countTx (w : Nat) (t : Tx) (f : Fid) (d : Counters) : Tx :=
  let c := txCtx t f
  { setTxCtx t f { c with cnt := addCounters w c.cnt d } with agg := addCounters w t.agg d }

/-- An update of `rx.ctx[f].cnt` and of `rx.agg`; with no fragment-id, of `rx.agg` alone (spec/48 R380). -/
def countRx (w : Nat) (r : Rx) (f : Option Fid) (d : Counters) : Rx :=
  match f with
  | none => { r with agg := addCounters w r.agg d }
  | some f =>
    let c := rxCtx r f
    { setRxCtx r f { c with cnt := addCounters w c.cnt d } with agg := addCounters w r.agg d }

/-! ### Answering a command (spec/30 R116, spec/60 R416) -/

/-- The state after a command has ended with the result `r`. -/
def respond (r : Response) (s : State) : State := { s with host := { s.host with response := some r } }

/-- A command ends with the result `r`. -/
def answer (r : Response) (s : State) : Outcome State Fault Refusal := .next (respond r s)

/-- A command ends with a status and no other result. -/
def answerStatus (status : Status) (s : State) : Outcome State Fault Refusal := answer { status := status } s

/-! ### The receiver's exceptions (spec/47 R340, R341, spec/46 R310) -/

/-- Append an event to the event list of the DECAP (spec/47 R321, R322). -/
def logEvent (e : Event) (s : State) : State := { s with scan := { s.scan with events := s.scan.events ++ [e] } }

/-- Append a DROP event and set the error mark (spec/47 R340, R352). -/
def logDrop (f : Option Fid) (reason : DropReason) (s : State) : State :=
  { s with scan := { s.scan with events := s.scan.events ++ [.drop f reason], err := true } }

/-- `release(f)`: the context goes FREE and nothing else is written (spec/47 R341). -/
def releaseRx (r : Rx) (f : Fid) : Rx := { r with busy := clearBusy r.busy f }

/-- The reasons that count one lost packet whatever the context holds (spec/47 R340). -/
def alwaysLosesOne (reason : DropReason) : Bool := reason == .contextNotFree || reason == .seqAmbiguous

/-- The reasons that count one lost packet when part of the ALPDU was still missing (spec/47 R340). -/
def losesRemainder (reason : DropReason) : Bool :=
  reason == .totalExceeded || reason == .lengthMismatch || reason == .trailerShort

/-- How many packets a drop on context `f` counts as lost (spec/47 R340, spec/48 R390). -/
def lostOnDrop (r : Rx) (f : Fid) (reason : DropReason) (prior : Nat) : Nat :=
  if alwaysLosesOne reason then 1
  else if losesRemainder reason && busyBit r.busy f && decide (prior < (rxCtx r f).totalLen.toNat) then 1
  else 0

/-- The counter update of a drop on a context (spec/47 R340, spec/48 R388). -/
def dropCounters (lost len prior : Nat) : Counters where
  pktsLost := lost
  pktsDropped := 1
  bytesDropped := prior + len

/-- TAKING AN EXCEPTION: `drop(f, reason, L)` (spec/47 R340). It counts the drop, releases the context, appends the
DROP event and sets the error mark; nothing is saved and no control transfer takes place (spec/60 R416). With no
fragment-id only `rx.agg` counts. -/
def takeDrop (f : Option Fid) (reason : DropReason) (len prior : Nat) (s : State) : State :=
  match f with
  | some f =>
    logDrop (some f) reason
      { s with
        rx := releaseRx
          (countRx s.params.cntW s.rx (some f) (dropCounters (lostOnDrop s.rx f reason prior) len prior)) f }
  | none => logDrop none reason { s with rx := countRx s.params.cntW s.rx none (dropCounters 0 len 0) }

/-- `truncated()`: the exception `FPDU_TRUNCATED` (spec/46 R310, spec/48 R391); the bytes from `rx.off` on cannot
be decoded, and no context is touched. -/
def takeTruncated (s : State) : State :=
  logDrop none .fpduTruncated
    { s with rx := countRx s.params.cntW s.rx none (dropCounters 0 (s.scan.fpdu.length - s.rx.off) 0) }

/-! ### The scan of a DECAP (spec/46, spec/47 R321) -/

/-- The scan goes on at another kind of unit. -/
def setPhase (p : ScanPhase) (s : State) : State := { s with scan := { s.scan with phase := p } }

/-- `rx.off <- v` (spec/00 R13). -/
def setOff (v : Nat) (s : State) : State := { s with rx := { s.rx with off := v } }

/-- The scan ends and the DECAP answers: `ERR` when at least one unit was dropped, else `OK` (spec/47 R321, R352). -/
def finishScan (s : State) : State :=
  respond { status := if s.scan.err then .err else .ok, events := s.scan.events } { s with scan := Scan.idle }

end Sys2Proof.Machine
end

