-- ==== Sys2Proof/Machine/Ptype.lean ====
section
/-! DEFINITION. The protocol-type compressor and expander (spec/41). None of these touches state; a failure is a
drop reason for the caller. -/

namespace Sys2Proof.Machine

/-- 0x0800. -/
def ptypeIpv4 : Ptype := 0x0800#16
/-- 0x86dd. -/
def ptypeIpv6 : Ptype := 0x86dd#16
/-- 0x0806. -/
def ptypeArp : Ptype := 0x0806#16
/-- 0x8100. -/
def ptypeVlan : Ptype := 0x8100#16
/-- 0x88a8. -/
def ptypeQinQ : Ptype := 0x88a8#16
/-- 0x9100. -/
def ptypeQinQLegacy : Ptype := 0x9100#16
/-- 0x0082. -/
def ptypeL2s : Ptype := 0x0082#16

/-- The table of spec/41 R161: the named protocol types and their codes. -/
def ptypeTable (p : Config.Params) : List (Ptype × Byte) :=
  [(ptypeIpv4, 0x0d#8), (ptypeArp, 0x0e#8), (ptypeVlan, 0x0f#8), (ptypeIpv6, 0x11#8), (ptypeQinQ, 0x19#8),
    (ptypeQinQLegacy, 0x1a#8), (ptypeL2s, p.codeL2s)]

/-- `PTYPE_COMPRESS` (spec/41 R162). That it never returns 0x30, 0xff or `CODE_VLAN_WO_PTYPE` is so for a `CODE_L2S`
that is none of them; log 28. -/
def ptypeCompress (p : Config.Params) (ptype : Ptype) : Option Byte := (ptypeTable p).lookup ptype

/-- The protocol type of a code of the table (spec/41 R161, R170). Where `CODE_L2S` is the code of another row, the
earlier row wins: DESIGN CHOICE, log 28. -/
def ptypeOfCode (p : Config.Params) (code : Byte) : Option Ptype :=
  ((ptypeTable p).find? (fun row => row.2 == code)).map (fun row => row.1)

/-- `IS_SUPPRESSIBLE` (spec/41 R163, R164): VLAN and Q-in-Q are not suppressible under 0x30. -/
def isSuppressible (ptype : Ptype) (implicit : Byte) : Bool :=
  ptype == ptypeL2s ||
    (ptype == ptypeVlan && implicit == 0x0f#8) ||
    (ptype == ptypeQinQ && implicit == 0x19#8) ||
    (ptype == ptypeQinQLegacy && implicit == 0x1a#8) ||
    (ptype == ptypeIpv4 && (implicit == 0x0d#8 || implicit == 0x30#8)) ||
    (ptype == ptypeIpv6 && (implicit == 0x11#8 || implicit == 0x30#8)) ||
    (ptype == ptypeArp && implicit == 0x0e#8)

/-- `LABEL_TYPE` (spec/41 R165): 3 marks a signalling ALPDU, 0 every other (spec/30 R108). -/
def labelTypeOf (ptype : Ptype) : LabelType := if ptype = ptypeL2s then 3 else 0

/-- The reserved label types 1 and 2 (spec/30 R108, spec/47 R324). -/
def isReservedLt (lt : LabelType) : Bool := lt == 1 || lt == 2

/-- The IP protocol type of a version nibble: the high nibble of the byte (spec/41 R172, R175). -/
def ipByNibble (b : Byte) : Option Ptype :=
  if b.extractLsb' 4 4 = 4#4 then some ptypeIpv4
  else if b.extractLsb' 4 4 = 6#4 then some ptypeIpv6
  else none

/-- What the receive side makes of a protocol-type field: the protocol type and the SDU, or a drop reason. -/
abbrev Expanded := Except DropReason (Ptype × Bytes)

/-- `IP_BY_NIBBLE` (spec/41 R172). -/
def expandIp (sdu : Bytes) : Expanded :=
  match sdu with
  | [] => .error .malformedPtype
  | b :: _ =>
    match ipByNibble b with
    | some ptype => .ok (ptype, sdu)
    | none => .error .malformedPtype

/-- The offset `P` of the VLAN header's protocol-type field (spec/41 R175). -/
def vlanPtypeOff (p : Config.Params) : Nat := p.ethHdrLen + p.vlanHdrLen - 2

/-- `VLAN_RESTORE` (spec/41 R175, R176): the missing protocol type is inserted, most significant byte first
(spec/20 R74), and the frame is delivered as VLAN. Log 3, log 20. -/
def vlanRestore (p : Config.Params) (sdu : Bytes) : Expanded :=
  let off := vlanPtypeOff p
  if sdu.length < off + 1 then .error .malformedVlan
  else if sdu[12]? = some 0x81#8 ∧ sdu[13]? = some 0x00#8 then
    match sdu[off]?.bind ipByNibble with
    | some r => .ok (ptypeVlan, sdu.take off ++ be16 r ++ sdu.drop off)
    | none => .error .malformedVlan
  else .error .malformedVlan

/-- `PTYPE_EXPAND` (spec/41 R170, R171). The branches are tested in R170's order; a `CODE_L2S` or `CODE_VLAN_WO_PTYPE`
that is also the code of an earlier branch takes that branch: DESIGN CHOICE, log 28. -/
def ptypeExpand (p : Config.Params) (code : Byte) (sdu : Bytes) : Expanded :=
  match ptypeOfCode p code with
  | some ptype => .ok (ptype, sdu)
  | none =>
    if code = 0x30#8 then expandIp sdu
    else if code = p.codeVlanWoPtype then vlanRestore p sdu
    else .error .malformedPtype

/-- The ALPDU header form the transmitter chooses (spec/43 R222), a function of the configuration and the protocol
type alone. -/
def chooseHeader (p : Config.Params) (cfg : CfgWord) (ptype : Ptype) : Instr :=
  if allowPtypeOmission cfg && isSuppressible ptype (implicitProtocolType cfg) then .ptOmit
  else if useCompressedPtype cfg then
    match ptypeCompress p ptype with
    | some code => .ptComp code
    | none => .ptFallback ptype
  else .ptUncomp ptype

/-- The protocol type is suppressed: `p` of spec/43 R222 and R224. -/
def suppressesPtype (p : Config.Params) (cfg : CfgWord) (ptype : Ptype) : Bool :=
  chooseHeader p cfg ptype == .ptOmit

end Sys2Proof.Machine
end

