-- ==== Sys2Proof/Machine/Scan.lean ====
section
/-! DEFINITION. The FPDU unpacker (spec/46): where the next unit of the scan is decoded, the payload bounds, the
arrival count, and the wire unit PAD. -/

namespace Sys2Proof.Machine

open Host (Outcome)

/-- A unit met where it is not being decoded: the spec gives it no effect there. Log 12. -/
def outOfPlace : Outcome State Fault Refusal := .refused .unitOutOfPlace

/-- The payload of a PPDU whose header has `hl` bytes at `rx.off`, or none where it runs past the end of the FPDU
(spec/46 R305, R306). -/
def payloadAt (s : State) (hl len : Nat) : Option Bytes :=
  if s.rx.off + hl + len ≤ s.scan.fpdu.length then some ((s.scan.fpdu.drop (s.rx.off + hl)).take len) else none

/-- A truncated PPDU: `FPDU_TRUNCATED`, and the scan ends (spec/46 R304, R305, R310). -/
def endTruncated (s : State) : State := finishScan (takeTruncated s)

/-- The counter update of a PPDU's arrival (spec/48 R387): COMP and START announce an SDU. -/
def arrivalCounters (announcesSdu : Bool) (len : Nat) : Counters where
  pktsIn := if announcesSdu then 1 else 0
  bytesIn := len

/-- A PPDU is routed: its arrival is counted (spec/47 R323) and `rx.off` moves past it (spec/46 R306; routing reads
neither, spec/46 R300). -/
def arrive (f : Option Fid) (announcesSdu : Bool) (hl len : Nat) (s : State) : State :=
  setOff (s.rx.off + hl + len) { s with rx := countRx s.params.cntW s.rx f (arrivalCounters announcesSdu len) }

/-- The unit the scan meets next, decoded from the FPDU at `rx.off` (spec/46 R302 to R304), from the END's trailer
bytes (spec/47 R331) or from the ALPDU (spec/47 R350). -/
def fetchUnit (s : State) : Except DecodeError Instr :=
  match s.scan.phase with
  | .idle => .error .endOfFpdu
  | .header => (decodeWith s.params.ppduLayout .ppdu (s.scan.fpdu.drop s.rx.off)).map (fun r => r.1)
  | .trailer f _ trl _ _ => (decode (.trailer (rxCtx s.rx f).useCrc) trl).map (fun r => r.1)
  | .alpdu _ alpdu _ pts _ _ =>
    (decode (.alpduHdr pts (useCompressedPtype s.rx.cfg)) alpdu).map (fun r => r.1)

/-- The drop of the PPDU being routed, after which the scan goes on at the next header (spec/47 R340, R350). -/
def dropRouted (reason : DropReason) (s : State) : State :=
  match s.scan.phase with
  | .trailer f _ _ len prior => setPhase .header (takeDrop (some f) reason len prior s)
  | .alpdu f _ _ _ len prior => setPhase .header (takeDrop f reason len prior s)
  | .idle | .header => s

/-- What the scan does where no unit can be decoded: it ends (spec/46 R302, R304), or the PPDU is dropped for a
protocol-type field (spec/47 R350) or trailer (R332, log 24) that is too short. -/
def onDecodeError (e : DecodeError) (s : State) : State :=
  match e with
  | .endOfFpdu | .notACommandCode => finishScan s
  | .truncatedHeader => endTruncated s
  | .ptypeFieldTooShort => dropRouted .malformedPtype s
  | .trailerTooShort => dropRouted .trailerShort s

/-- `PAD` (spec/46 R302): the scan ends; no counter moves and no event is produced. -/
def execPad (s : State) : Outcome State Fault Refusal :=
  match s.scan.phase with
  | .header => .next (finishScan s)
  | .idle | .trailer .. | .alpdu .. => outOfPlace

end Sys2Proof.Machine
end

