-- ==== Sys2Proof/Machine/Delivery.lean ====
section
/-! DEFINITION. SDU delivery (spec/47 R350, R351): the ALPDU header forms PT_OMIT, PT_COMP, PT_FALLBACK and
PT_UNCOMP as the receiver executes them. -/

namespace Sys2Proof.Machine

open Host (Outcome)

/-- The counter update of a delivered SDU (spec/48 R389). -/
def deliveredCounters (n : Nat) : Counters where
  pktsOk := 1
  pktsOut := 1
  bytesOk := n
  bytesOut := n

/-- The release after a delivery: of the context of an END, of none for a COMP (spec/47 R325, R331). -/
def releaseDelivered (f : Option Fid) (r : Rx) : Rx :=
  match f with
  | none => r
  | some f => releaseRx r f

/-- The SDU is counted, delivered as an event, and the context released (spec/47 R331, R350). -/
def deliverSdu (f : Option Fid) (ptype : Ptype) (sdu : Bytes) (s : State) : State :=
  logEvent (.sdu f ptype sdu)
    { s with rx := releaseDelivered f (countRx s.params.cntW s.rx f (deliveredCounters sdu.length)) }

/-- The end of `deliver` (spec/47 R350, R351): a malformed field or an SDU above 4088 bytes is dropped, anything
else delivered; the scan goes on at the next PPDU header. -/
def deliver (f : Option Fid) (expanded : Expanded) (len prior : Nat) (s : State) : State :=
  setPhase .header
    (match expanded with
      | .error reason => takeDrop f reason len prior s
      | .ok (ptype, sdu) =>
        if sduMax < sdu.length then takeDrop f .sduTooBigRx len prior s else deliverSdu f ptype sdu s)

/-- What a suppressed protocol type expands to (spec/41 R173, spec/47 R350). -/
def expandOmitted (s : State) (lt : LabelType) (alpdu : Bytes) : Expanded :=
  if lt = 3 then .ok (ptypeL2s, alpdu) else ptypeExpand s.params (implicitProtocolType s.rx.cfg) alpdu

/-- `PT_OMIT` received (spec/47 R350): signalling for label type 3, else the implicit protocol type. -/
def execPtOmit (s : State) : Outcome State Fault Refusal :=
  match s.scan.phase with
  | .alpdu f alpdu lt _ len prior => .next (deliver f (expandOmitted s lt alpdu) len prior s)
  | .idle | .header | .trailer .. => outOfPlace

/-- `PT_COMP` received (spec/47 R350): the code is expanded over the bytes after it. -/
def execPtComp (code : Byte) (s : State) : Outcome State Fault Refusal :=
  match s.scan.phase with
  | .alpdu f alpdu _ _ len prior => .next (deliver f (ptypeExpand s.params code (alpdu.drop 1)) len prior s)
  | .idle | .header | .trailer .. => outOfPlace

/-- `PT_FALLBACK` received (spec/47 R350): the protocol type is delivered as it is. -/
def execPtFallback (ptype : Ptype) (s : State) : Outcome State Fault Refusal :=
  match s.scan.phase with
  | .alpdu f alpdu _ _ len prior => .next (deliver f (.ok (ptype, alpdu.drop 3)) len prior s)
  | .idle | .header | .trailer .. => outOfPlace

/-- `PT_UNCOMP` received (spec/47 R350): the protocol type is delivered as it is. -/
def execPtUncomp (ptype : Ptype) (s : State) : Outcome State Fault Refusal :=
  match s.scan.phase with
  | .alpdu f alpdu _ _ len prior => .next (deliver f (.ok (ptype, alpdu.drop 2)) len prior s)
  | .idle | .header | .trailer .. => outOfPlace

end Sys2Proof.Machine
end

