-- ==== Sys2Proof/Machine/Reassembly.lean ====
section
/-! DEFINITION. The reassembly machine (spec/47 R320 to R337): the wire units COMP, START, CONT and END. -/

namespace Sys2Proof.Machine

open Host (Outcome)

/-- `prior` of spec/47 R323: the bytes the context held when the PPDU arrived. -/
def priorBytes (r : Rx) (f : Fid) : Nat := if busyBit r.busy f then (rxCtx r f).bytesReceived.toNat else 0

/-- `COMP` (spec/47 R323, R324, R325): no context is read or written; the ALPDU goes to delivery (R350). -/
def execComp (lt : LabelType) (pts : Bool) (length : BitVec 11) (s : State) : Outcome State Fault Refusal :=
  match s.scan.phase with
  | .header =>
    match payloadAt s 2 length.toNat with
    | none => .next (endTruncated s)
    | some payload =>
      let s := arrive none true 2 length.toNat s
      if isReservedLt lt then .next (takeDrop none .reservedLt length.toNat 0 s)
      else .next (setPhase (.alpdu none payload lt pts length.toNat 0) s)
  | .idle | .trailer .. | .alpdu .. => outOfPlace

/-- The context after an accepted START (spec/47 R326), its buffer already written. -/
def startedCtx (c : RxCtx) (buf : Mem) (lt : LabelType) (pts : Bool) (len : Nat) (totalLen : Index) (useCrc : Bool) :
    RxCtx :=
  { c with
    buf := buf
    totalLen := totalLen
    lt := lt
    pts := pts
    useCrc := useCrc
    bytesReceived := index len
    burstBytes := index len }

/-- `FREE | START` with a legal label type and length: the fragment is stored and the context is IN_PROGRESS
(spec/47 R326, R327). -/
def acceptStart (lt : LabelType) (pts : Bool) (payload : Bytes) (f : Fid) (totalLen : Index) (useCrc : Bool)
    (s : State) : Outcome State Fault Refusal :=
  let c := rxCtx s.rx f
  match memWrite s.params.rasmBufLen c.buf 0 payload with
  | .error e => .fault e
  | .ok buf =>
    let r := setRxCtx s.rx f (startedCtx c buf lt pts payload.length totalLen useCrc)
    .next (logEvent (.frag f) { s with rx := { r with busy := setBusy r.busy f } })

/-- `START` (spec/47 R323, R326, R329): the state of the context is tested before the label type and the lengths
(R337). -/
def execStart (lt : LabelType) (pts : Bool) (fragLen : BitVec 11) (fid : Fid) (totalLen : Index) (useCrc : Bool)
    (s : State) : Outcome State Fault Refusal :=
  match s.scan.phase with
  | .header =>
    match payloadAt s 4 fragLen.toNat with
    | none => .next (endTruncated s)
    | some payload =>
      let prior := priorBytes s.rx fid
      let s := arrive (some fid) true 4 fragLen.toNat s
      if busyBit s.rx.busy fid then .next (takeDrop (some fid) .contextNotFree fragLen.toNat prior s)
      else if isReservedLt lt then .next (takeDrop (some fid) .reservedLt fragLen.toNat prior s)
      else if totalLen.toNat < fragLen.toNat then .next (takeDrop (some fid) .totalExceeded fragLen.toNat prior s)
      else acceptStart lt pts payload fid totalLen useCrc s
  | .idle | .trailer .. | .alpdu .. => outOfPlace

/-- The context after payload bytes have been appended (spec/47 R330, R331), its buffer already written. -/
def appendedCtx (c : RxCtx) (buf : Mem) (n : Nat) : RxCtx :=
  { c with
    buf := buf
    bytesReceived := index (c.bytesReceived.toNat + n)
    burstBytes := c.burstBytes + index n }

/-- `IN_PROGRESS | CONT` within the declared length: append (spec/47 R330). -/
def acceptCont (payload : Bytes) (f : Fid) (s : State) : Outcome State Fault Refusal :=
  let c := rxCtx s.rx f
  match memWrite s.params.rasmBufLen c.buf c.bytesReceived.toNat payload with
  | .error e => .fault e
  | .ok buf => .next (logEvent (.frag f) { s with rx := setRxCtx s.rx f (appendedCtx c buf payload.length) })

/-- `CONT` (spec/47 R323, R328, R330). -/
def execCont (length : BitVec 11) (fid : Fid) (s : State) : Outcome State Fault Refusal :=
  match s.scan.phase with
  | .header =>
    match payloadAt s 2 length.toNat with
    | none => .next (endTruncated s)
    | some payload =>
      let prior := priorBytes s.rx fid
      let s := arrive (some fid) false 2 length.toNat s
      if !busyBit s.rx.busy fid then .next (takeDrop (some fid) .invalidTransition length.toNat prior s)
      else if (rxCtx s.rx fid).totalLen.toNat < (rxCtx s.rx fid).bytesReceived.toNat + length.toNat then
        .next (takeDrop (some fid) .totalExceeded length.toNat prior s)
      else acceptCont payload fid s
  | .idle | .trailer .. | .alpdu .. => outOfPlace

/-- `IN_PROGRESS | END` whose lengths add up: the ALPDU bytes are appended, the trailer is cut off and comes next
(spec/47 R331, R333, R335). -/
def acceptEnd (payload : Bytes) (f : Fid) (prior : Nat) (s : State) : Outcome State Fault Refusal :=
  let c := rxCtx s.rx f
  let n := payload.length - trlLen c.useCrc
  match memWrite s.params.rasmBufLen c.buf c.bytesReceived.toNat (payload.take n) with
  | .error e => .fault e
  | .ok buf =>
    match memRead s.params.rasmBufLen buf 0 c.totalLen.toNat with
    | .error e => .fault e
    | .ok alpdu =>
      .next (setPhase (.trailer f alpdu (payload.drop n) payload.length prior)
        { s with rx := setRxCtx s.rx f (appendedCtx c buf n) })

/-- `END` (spec/47 R323, R328, R331, R332, R334). -/
def execEndPpdu (length : BitVec 11) (fid : Fid) (s : State) : Outcome State Fault Refusal :=
  match s.scan.phase with
  | .header =>
    match payloadAt s 2 length.toNat with
    | none => .next (endTruncated s)
    | some payload =>
      let prior := priorBytes s.rx fid
      let s := arrive (some fid) false 2 length.toNat s
      let c := rxCtx s.rx fid
      if !busyBit s.rx.busy fid then .next (takeDrop (some fid) .invalidTransition length.toNat prior s)
      else if length.toNat < trlLen c.useCrc then .next (takeDrop (some fid) .trailerShort length.toNat prior s)
      else if c.bytesReceived.toNat + (length.toNat - trlLen c.useCrc) ≠ c.totalLen.toNat then
        .next (takeDrop (some fid) .lengthMismatch length.toNat prior s)
      else acceptEnd payload fid prior s
  | .idle | .trailer .. | .alpdu .. => outOfPlace

end Sys2Proof.Machine
end

