-- ==== Sys2Proof/Machine/Crc.lean ====
section
/-! DEFINITION. CRC-32 and the trailer validator (spec/40 R145 to R149). -/

namespace Sys2Proof.Machine

/-- The generator polynomial of the default instance (spec/40 R146). -/
def crcPoly : Crc := 0x04C11DB7#32

/-- One of the eight bit steps of the default instance (spec/40 R146). -/
def crcBit (crc : Crc) : Crc := if crc.msb then (crc <<< 1) ^^^ crcPoly else crc <<< 1

/-- The register after one byte of the message (spec/40 R146). -/
def crcByte (crc : Crc) (b : Byte) : Crc :=
  crcBit (crcBit (crcBit (crcBit (crcBit (crcBit (crcBit (crcBit (crc ^^^ (b.setWidth 32 <<< 24)))))))))

/-- CRC-32/MPEG-2, the default instance of `CRC32` (spec/40 R146; general knowledge in the spec, log 2). -/
def crcMpeg2 (message : Bytes) : Crc := message.foldl crcByte 0xFFFFFFFF#32

/-- `CRC32(M)` under the instance the parameters name (spec/40 R145). -/
def crc32 (k : Config.CrcInstance) (message : Bytes) : Crc :=
  match k with
  | .mpeg2 => crcMpeg2 message
  | .other n => (Config.crc32Other n).run message

/-- `CRC_CHECK(M, T)` with the value of the trailer already read as `rd_le32(T, 0)` (spec/40 R149). -/
def crcCheck (k : Config.CrcInstance) (message : Bytes) (trailer : Crc) : Bool := trailer == crc32 k message

end Sys2Proof.Machine
end

