-- ==== Sys2Proof/Machine/Trailer.lean ====
section
/-! DEFINITION. Trailer validation (spec/47 R344, R345): the wire units TRL_SEQ and TRL_CRC. -/

namespace Sys2Proof.Machine

open Host (Outcome)

/-- The trailer is good: the ALPDU goes to delivery with the label type and PTS latched at the START
(spec/47 R331). -/
def trailerGood (f : Fid) (alpdu : Bytes) (len prior : Nat) (s : State) : State :=
  let c := rxCtx s.rx f
  setPhase (.alpdu (some f) alpdu c.lt c.pts len prior) s

/-- The sequence registers after an END with number `seq` (spec/47 R345): always resynchronised. -/
def seqRecorded (r : Rx) (f : Fid) (seq : SeqNb) : Rx :=
  setRxCtx r f { rxCtx r f with seqInit := true, nextExpSeq := seq + 1 }

/-- `TRL_SEQ` (spec/47 R345): the first one on a context is recorded; later ones are compared modulo 8, a gap is
counted as lost, and an ambiguous difference drops the SDU. -/
def execTrlSeq (seq : SeqNb) (s : State) : Outcome State Fault Refusal :=
  match s.scan.phase with
  | .trailer f alpdu _ len prior =>
    let c := rxCtx s.rx f
    let recorded := { s with rx := seqRecorded s.rx f seq }
    if !c.seqInit then .next (trailerGood f alpdu len prior recorded)
    else
      let d := (seq - c.nextExpSeq).toNat
      if s.params.seqAmbigMin ≤ d then
        .next (setPhase .header (takeDrop (some f) .seqAmbiguous len prior recorded))
      else
        .next (trailerGood f alpdu len prior
          { recorded with rx := countRx s.params.cntW recorded.rx (some f) { pktsLost := d } })
  | .idle | .header | .alpdu .. => outOfPlace

/-- `TRL_CRC` (spec/47 R344): no sequence state is read or written. -/
def execTrlCrc (crc : Crc) (s : State) : Outcome State Fault Refusal :=
  match s.scan.phase with
  | .trailer f alpdu _ len prior =>
    if crcCheck s.params.crc32 alpdu crc then .next (trailerGood f alpdu len prior s)
    else .next (setPhase .header (takeDrop (some f) .crcMismatch len prior s))
  | .idle | .header | .alpdu .. => outOfPlace

end Sys2Proof.Machine
end

