-- ==== Sys2Proof/Machine/Decap.lean ====
section
/-! DEFINITION. The command DECAP (spec/47 R321): the scan of a whole FPDU as one atomic step (spec/20 R86), unit by
unit. -/

namespace Sys2Proof.Machine

open Host (Outcome)

/-- The meaning of one wire unit of the scan; a host command is no unit of an FPDU. -/
def execUnit (i : Instr) (s : State) : Outcome State Fault Refusal :=
  match i with
  | .pad => execPad s
  | .comp lt pts length => execComp lt pts length s
  | .start lt pts fragLen fid totalLen useCrc => execStart lt pts fragLen fid totalLen useCrc s
  | .cont length fid => execCont length fid s
  | .endPpdu length fid => execEndPpdu length fid s
  | .ptOmit => execPtOmit s
  | .ptComp code => execPtComp code s
  | .ptFallback ptype => execPtFallback ptype s
  | .ptUncomp ptype => execPtUncomp ptype s
  | .trlSeq seq => execTrlSeq seq s
  | .trlCrc crc => execTrlCrc crc s
  | .txNew _ | .txDestroy | .encap .. | .emit .. | .pack .. | .dumpAlpdu _ | .txStat .. | .rxNew _ | .rxDestroy
  | .decap _ | .rxStat .. | .hdrsz .. | .reserved12 | .reserved13 | .reserved14 | .reserved15 => outOfPlace

/-- One round of the scan (spec/46 R307): the next unit is decoded and executed, or the scan ends or drops where
none can be decoded. -/
def scanStep (s : State) : Outcome State Fault Refusal :=
  match fetchUnit s with
  | .ok i => execUnit i s
  | .error e => .next (onDecodeError e s)

/-- At most `rounds` rounds of the scan, fewer when it ends. -/
def runScan : Nat → State → Outcome State Fault Refusal
  | 0, s => .next s
  | rounds + 1, s =>
    if s.scan.phase = .idle then .next s
    else
      match scanStep s with
      | .next s' => runScan rounds s'
      | .fault e => .fault e
      | .refused e => .refused e

/-- `burst_bytes <- 0` in every context (spec/47 R321). -/
def clearBursts (r : Rx) : Rx := { r with ctx := r.ctx.map (fun c => { c with burstBytes := 0 }) }

/-- The start of a DECAP (spec/47 R321) and of its scan (spec/46 R301): the label is skipped unread, or the FPDU is
shorter than its label. -/
def beginScan (fpdu : Bytes) (s : State) : State :=
  let pl := implicitPayloadLabelSize s.rx.cfg
  let s : State :=
    { s with
      rx := clearBursts s.rx
      scan := { phase := .header, fpdu := fpdu, events := [], err := false } }
  if fpdu.length < pl then endTruncated (setOff 0 s) else setOff pl s

/-- Rounds enough for any FPDU: a PPDU takes at most three (header, trailer, ALPDU) and at least two bytes
(spec/46 R306), and one more ends the scan. -/
def scanRounds (fpdu : Bytes) : Nat := 3 * fpdu.length + 3

/-- `DECAP(fpdu)` (spec/47 R321). -/
def execDecap (fpdu : Option Bytes) (s : State) : Outcome State Fault Refusal :=
  if s.rx.configured then
    match fpdu with
    | none => answerStatus .errNullBuf s
    | some bytes => runScan (scanRounds bytes) (beginScan bytes s)
  else answerStatus .errNullRcvr s

end Sys2Proof.Machine
end

