-- ==== Sys2Proof/Machine/Encap.lean ====
section
/-! DEFINITION. The ALPDU encapsulator (spec/43): ENCAP. -/

namespace Sys2Proof.Machine

open Host (Outcome)

/-- The context after a successful ENCAP (spec/43 R221), but for its counters: the SDU at `sdu_start`, the ALPDU
header before it, no trailer yet (R225); `next_seq_nb` and `initialised` are kept. -/
def fillCtx (p : Config.Params) (cfg : CfgWord) (sdu : Bytes) (ptype : Ptype) (c : TxCtx) : Except Fault TxCtx :=
  let hdr := encode (chooseHeader p cfg ptype)
  let head := alpduHdrMax - hdr.length
  let sduEnd := alpduHdrMax + sdu.length
  match memWrite fragBufLen c.buf alpduHdrMax sdu with
  | .error e => .error e
  | .ok buf =>
    match memWrite fragBufLen buf head hdr with
    | .error e => .error e
    | .ok buf =>
      .ok { c with
        buf := buf
        sduCopied := true
        sduEnd := index sduEnd
        head := index head
        tail := index sduEnd
        cursor := index head
        isFragmented := false
        fragCount := 0
        useCrc := allowAlpduCrc cfg
        lt := labelTypeOf ptype
        pts := suppressesPtype p cfg ptype
        sduLen := index sdu.length }

/-- The producer whose ENCAP took a context (spec/20 R87; log 15). -/
def recordOwner (f : Fid) (h : HostPort) : HostPort := { h with owner := h.owner.set f.toNat h.producer f.isLt }

/-- The counter update of an ENCAP (spec/48 R381). -/
def encapCounters (n : Nat) : Counters where
  pktsIn := 1
  bytesIn := n

/-- `ENCAP(sdu, ptype, fid)` (spec/43 R220, R221): the checks in the written order, each with no state change; then
the test-and-set of the busy bit (spec/20 R82) and the filling of the context. -/
def execEncap (sdu : Option Bytes) (ptype : Ptype) (fid : Fid) (s : State) : Outcome State Fault Refusal :=
  if s.tx.configured then
    match sdu with
    | none => answerStatus .errNullBuf s
    | some bytes =>
      if sduMax < bytes.length then answerStatus .errSduTooBig s
      else if !(txCtx s.tx fid).initialised then answerStatus .errNInitBuf s
      else if busyBit s.tx.busy fid then answerStatus .errCtxBusy s
      else
        match fillCtx s.params s.tx.cfg bytes ptype (txCtx s.tx fid) with
        | .error e => .fault e
        | .ok c =>
          let t := setTxCtx { s.tx with busy := setBusy s.tx.busy fid } fid c
          answerStatus .ok
            { s with tx := countTx s.params.cntW t fid (encapCounters bytes.length), host := recordOwner fid s.host }
  else answerStatus .errNullTrmt s

end Sys2Proof.Machine
end

