-- ==== Sys2Proof/Machine/Emit.lean ====
section
/-! DEFINITION. The fragmentation engine (spec/44): EMIT, with the emission of COMP, START, CONT and END and of the
two trailers. -/

namespace Sys2Proof.Machine

open Host (Outcome)

/-- What an emission gives: the unit's new state, the PPDU (empty unless the status is OK or OK_AND_DONE,
spec/44 R240) and the status. -/
structure Emission where
  tx : Tx
  ppdu : Bytes
  status : Status
deriving DecidableEq, Repr

/-- Nothing is emitted and no state changes (spec/44 R241, R251). -/
def noEmission (t : Tx) (status : Status) : Emission := { tx := t, ppdu := [], status := status }

/-- The registers of a released context: "initialised to empty" (spec/44 R253). -/
def emptyCtx (c : TxCtx) : TxCtx :=
  { c with
    sduCopied := false
    isFragmented := false
    fragCount := 0
    head := index alpduHdrMax
    sduEnd := index alpduHdrMax
    tail := index alpduHdrMax
    cursor := index alpduHdrMax }

/-- The counter update of a release with outcome `sent` (spec/48 R382). -/
def sentCounters (sduLen : Nat) : Counters where
  pktsOut := 1
  bytesOut := sduLen

/-- The counter update of a release with outcome `dropped` (spec/48 R383). -/
def txDroppedCounters (sduLen : Nat) : Counters where
  pktsDropped := 1
  bytesDropped := sduLen

/-- Release of a transmitter context with the counter update of its outcome; the busy bit is cleared last
(spec/44 R253). -/
def releaseTx (w : Nat) (t : Tx) (f : Fid) (d : Counters) : Tx :=
  let t := countTx w t f d
  let t := setTxCtx t f (emptyCtx (txCtx t f))
  { t with busy := clearBusy t.busy f }

/-- COMP emission and release (spec/44 R243, R244). -/
def emitComp (p : Config.Params) (t : Tx) (f : Fid) : Except Fault Emission :=
  let c := txCtx t f
  match memRead fragBufLen c.buf c.head.toNat (alpduLen c) with
  | .error e => .error e
  | .ok payload =>
    .ok { tx := releaseTx p.cntW t f (sentCounters c.sduLen.toNat)
          ppdu := encodeWith p.ppduLayout (.comp c.lt c.pts (BitVec.ofNat 11 (alpduLen c))) ++ payload
          status := .okAndDone }

/-- The trailer write of a START: the CRC of header and SDU (spec/44 R246), or the sequence number, which is then
advanced modulo 8 (R247); `tail` moves past the trailer (R245). -/
def writeTrailer (p : Config.Params) (c : TxCtx) : Except Fault TxCtx :=
  if c.useCrc then
    match memRead fragBufLen c.buf c.head.toNat (alpduLen c) with
    | .error e => .error e
    | .ok alpdu =>
      match memWrite fragBufLen c.buf c.sduEnd.toNat (encode (.trlCrc (crc32 p.crc32 alpdu))) with
      | .error e => .error e
      | .ok buf => .ok { c with buf := buf, tail := index (c.sduEnd.toNat + trlLen true) }
  else
    match memWrite fragBufLen c.buf c.sduEnd.toNat (encode (.trlSeq c.nextSeqNb)) with
    | .error e => .error e
    | .ok buf =>
      .ok { c with buf := buf, nextSeqNb := c.nextSeqNb + 1, tail := index (c.sduEnd.toNat + trlLen false) }

/-- START emission (spec/44 R245). -/
def emitStart (p : Config.Params) (t : Tx) (f : Fid) (burst : Nat) : Except Fault Emission :=
  match writeTrailer p (txCtx t f) with
  | .error e => .error e
  | .ok c =>
    let n := min (burst - 4) ppduLenMax
    match memRead fragBufLen c.buf c.head.toNat n with
    | .error e => .error e
    | .ok payload =>
      .ok { tx := setTxCtx t f { c with cursor := index (c.head.toNat + n), isFragmented := true, fragCount := 1 }
            ppdu := encodeWith p.ppduLayout
              (.start c.lt c.pts (BitVec.ofNat 11 n) f (index (alpduLen c)) c.useCrc) ++ payload
            status := .ok }

/-- First emission (spec/44 R242): a COMP is preferred whenever it fits. -/
def emitFirst (p : Config.Params) (t : Tx) (f : Fid) (burst : Nat) : Except Fault Emission :=
  let a := alpduLen (txCtx t f)
  if a ≤ ppduLenMax ∧ a + 2 ≤ burst then emitComp p t f
  else if burst < 5 then .ok (noEmission t .errBurstTooSmall)
  else emitStart p t f burst

/-- The fragment cap is reached (spec/44 R249, R250, R252). -/
def fragCapReached (p : Config.Params) (c : TxCtx) : Bool :=
  match p.maxFrags with
  | none => false
  | some cap => decide (cap.val ≤ c.fragCount)

/-- `ERR_TOO_MUCH_FRAG`: the context is released and the SDU counted dropped (spec/44 R252). -/
def tooMuchFrag (p : Config.Params) (t : Tx) (f : Fid) : Emission :=
  { tx := releaseTx p.cntW t f (txDroppedCounters (txCtx t f).sduLen.toNat), ppdu := [], status := .errTooMuchFrag }

/-- END emission: all that remains, the whole trailer last (spec/44 R249, R254). -/
def emitEnd (p : Config.Params) (t : Tx) (f : Fid) : Except Fault Emission :=
  let c := txCtx t f
  if fragCapReached p c then .ok (tooMuchFrag p t f)
  else
    match memRead fragBufLen c.buf c.cursor.toNat (remTotal c) with
    | .error e => .error e
    | .ok payload =>
      .ok { tx := releaseTx p.cntW t f (sentCounters c.sduLen.toNat)
            ppdu := encodeWith p.ppduLayout (.endPpdu (BitVec.ofNat 11 (remTotal c)) f) ++ payload
            status := .okAndDone }

/-- CONT emission of `n` ALPDU bytes (spec/44 R250). -/
def emitCont (p : Config.Params) (t : Tx) (f : Fid) (n : Nat) : Except Fault Emission :=
  let c := txCtx t f
  if fragCapReached p c then .ok (tooMuchFrag p t f)
  else
    match memRead fragBufLen c.buf c.cursor.toNat n with
    | .error e => .error e
    | .ok payload =>
      .ok { tx := setTxCtx t f { c with cursor := index (c.cursor.toNat + n), fragCount := c.fragCount + 1 }
            ppdu := encodeWith p.ppduLayout (.cont (BitVec.ofNat 11 n) f) ++ payload
            status := .ok }

/-- Later emission (spec/44 R248): an END when everything left fits, else a CONT of ALPDU bytes only. -/
def emitLater (p : Config.Params) (t : Tx) (f : Fid) (burst : Nat) : Except Fault Emission :=
  let c := txCtx t f
  if burst < 3 then .ok (noEmission t .errBurstTooSmall)
  else if remTotal c ≤ min (burst - 2) ppduLenMax then emitEnd p t f
  else
    let n := min (min (burst - 2) ppduLenMax) (remAlpdu c)
    if n = 0 then .ok (noEmission t .errBurstTooSmall) else emitCont p t f n

/-- `EMIT(fid, burst_size)` on the transmitter unit (spec/44 R240). -/
def emit (p : Config.Params) (t : Tx) (f : Fid) (burst : Nat) : Except Fault Emission :=
  if !t.configured then .ok (noEmission t .errNullTrmt)
  else if !(txCtx t f).initialised then .ok (noEmission t .errNInitBuf)
  else if !busyBit t.busy f then .ok (noEmission t .errContextTimeout)
  else if (txCtx t f).isFragmented then emitLater p t f burst
  else emitFirst p t f burst

/-- `EMIT(fid, burst_size)` (spec/44 R240): the PPDU and the status are the results. -/
def execEmit (fid : Fid) (burst : Nat) (s : State) : Outcome State Fault Refusal :=
  match emit s.params s.tx fid burst with
  | .error e => .fault e
  | .ok e => answer { status := e.status, bytes := e.ppdu } { s with tx := e.tx }

end Sys2Proof.Machine
end

