-- ==== Sys2Proof/Machine/Pack.lean ====
section
/-! DEFINITION. The FPDU packer (spec/45): PACK. -/

namespace Sys2Proof.Machine

open Host (Outcome)

/-- An FPDU under construction: the unit, the bytes placed so far, and whether an EMIT failed (spec/45 R280). -/
structure Packing where
  tx : Tx
  out : Bytes
  failed : Bool
deriving DecidableEq, Repr

/-- The inner loop of PACK on context `f` (spec/45 R280, R282): PPDUs are drawn with a burst equal to the space
left, until the context is finished, was not busy, or the space is too small. Each OK adds at least 3 bytes, so
`size + 1` rounds are more than enough. -/
def drainCtx (p : Config.Params) (size : Nat) (f : Fid) : Nat → Packing → Except Fault Packing
  | 0, k => .ok k
  | rounds + 1, k =>
    if busyBit k.tx.busy f then
      match emit p k.tx f (size - k.out.length) with
      | .error e => .error e
      | .ok e =>
        match e.status with
        | .ok => drainCtx p size f rounds { k with tx := e.tx, out := k.out ++ e.ppdu }
        | .okAndDone => .ok { k with tx := e.tx, out := k.out ++ e.ppdu }
        | .errBurstTooSmall => .ok { k with tx := e.tx }
        | _ => .ok { k with tx := e.tx, failed := true }
    else .ok k

/-- The outer loop of PACK over the schedule; a failed EMIT leaves both loops (spec/45 R280, R285). -/
def serveSched (p : Config.Params) (size : Nat) : List Fid → Packing → Except Fault Packing
  | [], k => .ok k
  | f :: fs, k =>
    match drainCtx p size f (size + 1) k with
    | .error e => .error e
    | .ok k' => if k'.failed then .ok k' else serveSched p size fs k'

/-- The FPDU and the numbers PACK returns, zero-padded to the FPDU size (spec/45 R280, R283, R284). -/
def packResponse (size : Nat) (k : Packing) : Response where
  status := if k.failed then .errFrag else .ok
  bytes := k.out ++ List.replicate (size - k.out.length) 0
  bytesWritten := k.out.length
  paddingSize := size - k.out.length

/-- `PACK(fpdu_size, label, sched)` past its operand checks, the FPDU beginning with `start` (spec/45 R280). -/
def packFrom (size : Nat) (start : Bytes) (sched : List Fid) (s : State) : Outcome State Fault Refusal :=
  match serveSched s.params size sched { tx := s.tx, out := start, failed := false } with
  | .error e => .fault e
  | .ok k => answer (packResponse size k) { s with tx := k.tx }

/-- `PACK(fpdu_size, label, sched)` (spec/45 R280, R281): four checks that change no state, then the loops. With a
payload-label size of 0 the label operand is ignored. -/
def execPack (size : Nat) (label : Option Bytes) (sched : List Fid) (s : State) : Outcome State Fault Refusal :=
  let pl := implicitPayloadLabelSize s.tx.cfg
  if s.tx.configured then
    if pl = 0 then packFrom size [] sched s
    else
      match label with
      | none => answerStatus .errNullBuf s
      | some bytes =>
        if bytes.length = pl then
          if size < pl then answerStatus .errFrag s else packFrom size bytes sched s
        else answerStatus .err s
  else answerStatus .errNullTrmt s

end Sys2Proof.Machine
end

