-- ==== Sys2Proof/Machine/Reserved.lean ====
section
/-! DEFINITION. The reserved command codes 12 to 15 (spec/30 R116): each answers `ERR` and changes no state. -/

namespace Sys2Proof.Machine

open Host (Outcome)

/-- Reserved command code 12 (spec/30 R116). -/
def execReserved12 (s : State) : Outcome State Fault Refusal := answerStatus .err s

/-- Reserved command code 13 (spec/30 R116). -/
def execReserved13 (s : State) : Outcome State Fault Refusal := answerStatus .err s

/-- Reserved command code 14 (spec/30 R116). -/
def execReserved14 (s : State) : Outcome State Fault Refusal := answerStatus .err s

/-- Reserved command code 15 (spec/30 R116). -/
def execReserved15 (s : State) : Outcome State Fault Refusal := answerStatus .err s

end Sys2Proof.Machine
end

