-- ==== Sys2Proof/Machine/Stats.lean ====
section
/-! DEFINITION. Statistics and debug reads (spec/48): TX_STAT, RX_STAT, DUMP_ALPDU. They change no state. -/

namespace Sys2Proof.Machine

open Host (Outcome)

/-- The record `sel` names: a context's, or the aggregate with 8 (spec/48 R384). -/
def txRecord (t : Tx) (sel : Nat) : Option Counters :=
  if sel = 8 then some t.agg else (t.ctx[sel]?).map (fun c => c.cnt)

/-- The record `sel` names in the receiver (spec/48 R385). -/
def rxRecord (r : Rx) (sel : Nat) : Option Counters :=
  if sel = 8 then some r.agg else (r.ctx[sel]?).map (fun c => c.cnt)

/-- The answer to a counter read: the value, or `ERR` for a record or counter that does not exist (spec/48 R384). -/
def answerCounter (rec : Option Counters) (n : Nat) (s : State) : Outcome State Fault Refusal :=
  match rec.bind (fun c => counter c n) with
  | some v => answer { status := .ok, value := v } s
  | none => answerStatus .err s

/-- `TX_STAT(sel, n)` (spec/48 R384). -/
def execTxStat (sel n : Nat) (s : State) : Outcome State Fault Refusal :=
  if s.tx.configured then answerCounter (txRecord s.tx sel) n s else answerStatus .errNullTrmt s

/-- `RX_STAT(sel, n)` (spec/48 R385). -/
def execRxStat (sel n : Nat) (s : State) : Outcome State Fault Refusal :=
  if s.rx.configured then answerCounter (rxRecord s.rx sel) n s else answerStatus .errNullRcvr s

/-- `DUMP_ALPDU(fid)` (spec/48 R386): header, SDU and, once a START has been emitted, the trailer. -/
def execDumpAlpdu (fid : Fid) (s : State) : Outcome State Fault Refusal :=
  if s.tx.configured then
    if busyBit s.tx.busy fid then
      let c := txCtx s.tx fid
      match memRead fragBufLen c.buf c.head.toNat (c.tail.toNat - c.head.toNat) with
      | .error e => .fault e
      | .ok bytes => answer { status := .ok, bytes := bytes } s
    else answerStatus .errContextTimeout s
  else answerStatus .errNullTrmt s

end Sys2Proof.Machine
end

