-- ==== Sys2Proof/Machine/Units.lean ====
section
/-! DEFINITION. Unit creation and destruction, and the header-size query (spec/42): TX_NEW, TX_DESTROY, RX_NEW,
RX_DESTROY, HDRSZ. -/

namespace Sys2Proof.Machine

open Host (Outcome)

/-- The transmitter unit a valid configuration word creates (spec/42 R191, spec/10 R64). -/
def newTx (cfgword : CfgWord) : Tx :=
  { Tx.reset with
    configured := true
    cfg := cfgword
    ctx := Vector.replicate 8 { TxCtx.reset with initialised := true } }

/-- The receiver unit a valid configuration word creates (spec/42 R192, spec/10 R64). -/
def newRx (cfgword : CfgWord) : Rx := { Rx.reset with configured := true, cfg := cfgword }

/-- `TX_NEW(cfgword)` (spec/42 R191). -/
def execTxNew (cfgword : CfgWord) (s : State) : Outcome State Fault Refusal :=
  if cfgValid cfgword then answerStatus .ok { s with tx := newTx cfgword }
  else answerStatus .errConfig s

/-- `TX_DESTROY` (spec/42 R193). -/
def execTxDestroy (s : State) : Outcome State Fault Refusal :=
  if s.tx.configured then answerStatus .ok { s with tx := Tx.reset }
  else answerStatus .errNullTrmt s

/-- `RX_NEW(cfgword)` (spec/42 R192). A DECAP in progress has no place between commands (spec/20 R86). -/
def execRxNew (cfgword : CfgWord) (s : State) : Outcome State Fault Refusal :=
  if cfgValid cfgword then answerStatus .ok { s with rx := newRx cfgword, scan := Scan.idle }
  else answerStatus .errConfig s

/-- `RX_DESTROY` (spec/42 R194). -/
def execRxDestroy (s : State) : Outcome State Fault Refusal :=
  if s.rx.configured then answerStatus .ok { s with rx := Rx.reset, scan := Scan.idle }
  else answerStatus .errNullRcvr s

/-- The fixed header overheads (spec/00 R7, spec/42 R197, R198); a Traffic FPDU has none. -/
def headerSize : FpduType → Option Nat
  | .logon => some 6
  | .ctrl => some 3
  | .trafficCtrl => some 5
  | .traffic => none

/-- `HDRSZ(cfgword, fpdu_type)` (spec/42 R197): reads and writes no state of either unit. -/
def execHdrsz (cfgword : CfgWord) (fpduType : FpduType) (s : State) : Outcome State Fault Refusal :=
  if cfgValid cfgword then
    match headerSize fpduType with
    | some n => answer { status := .headerSizeOk, size := n } s
    | none => answerStatus .headerSizeErrNonDeterministic s
  else answerStatus .headerSizeErrInvalidConfig s

end Sys2Proof.Machine
end

