-- ==== Sys2Proof/Machine/Dispatch.lean ====
section
/-! DEFINITION. One arm per instruction: the direct call of its meaning. -/

namespace Sys2Proof.Machine

open Host (Outcome)

def exec (i : Instr) (s : State) : Host.Outcome State Fault Refusal :=
  match i with
  | .pad => Sys2Proof.Machine.execPad s
  | .comp lt pts length => Sys2Proof.Machine.execComp lt pts length s
  | .start lt pts fragLen fid totalLen useCrc => Sys2Proof.Machine.execStart lt pts fragLen fid totalLen useCrc s
  | .cont length fid => Sys2Proof.Machine.execCont length fid s
  | .endPpdu length fid => Sys2Proof.Machine.execEndPpdu length fid s
  | .ptOmit => Sys2Proof.Machine.execPtOmit s
  | .ptComp code => Sys2Proof.Machine.execPtComp code s
  | .ptFallback ptype => Sys2Proof.Machine.execPtFallback ptype s
  | .ptUncomp ptype => Sys2Proof.Machine.execPtUncomp ptype s
  | .trlSeq seq => Sys2Proof.Machine.execTrlSeq seq s
  | .trlCrc crc => Sys2Proof.Machine.execTrlCrc crc s
  | .txNew cfgword => Sys2Proof.Machine.execTxNew cfgword s
  | .txDestroy => Sys2Proof.Machine.execTxDestroy s
  | .encap sdu ptype fid => Sys2Proof.Machine.execEncap sdu ptype fid s
  | .emit fid burstSize => Sys2Proof.Machine.execEmit fid burstSize s
  | .pack fpduSize label sched => Sys2Proof.Machine.execPack fpduSize label sched s
  | .dumpAlpdu fid => Sys2Proof.Machine.execDumpAlpdu fid s
  | .txStat sel n => Sys2Proof.Machine.execTxStat sel n s
  | .rxNew cfgword => Sys2Proof.Machine.execRxNew cfgword s
  | .rxDestroy => Sys2Proof.Machine.execRxDestroy s
  | .decap fpdu => Sys2Proof.Machine.execDecap fpdu s
  | .rxStat sel n => Sys2Proof.Machine.execRxStat sel n s
  | .hdrsz cfgword fpduType => Sys2Proof.Machine.execHdrsz cfgword fpduType s
  | .reserved12 => Sys2Proof.Machine.execReserved12 s
  | .reserved13 => Sys2Proof.Machine.execReserved13 s
  | .reserved14 => Sys2Proof.Machine.execReserved14 s
  | .reserved15 => Sys2Proof.Machine.execReserved15 s

end Sys2Proof.Machine
end

