-- ==== Sys2Proof/Machine/HostPort.lean ====
section
/-! DEFINITION. The host's side of a step: accepting the next command (spec/30 R116, spec/20 R86) and the
single-writer rule for several producers (spec/20 R87), and how a table word is placed where the step fetches. -/

namespace Sys2Proof.Machine

/-- The fragment-ids a transmitter command names under the single-writer rule: "`EMIT`, `PACK` entries, or
`DUMP_ALPDU`" (spec/20 R87). -/
def namedFids : Instr → List Fid
  | .emit fid _ => [fid]
  | .pack _ _ sched => sched
  | .dumpAlpdu fid => [fid]
  | .pad | .comp .. | .start .. | .cont .. | .endPpdu .. | .ptOmit | .ptComp _ | .ptFallback _ | .ptUncomp _
  | .trlSeq _ | .trlCrc _ | .txNew _ | .txDestroy | .encap .. | .txStat .. | .rxNew _ | .rxDestroy | .decap _
  | .rxStat .. | .hdrsz .. | .reserved12 | .reserved13 | .reserved14 | .reserved15 => []

/-- A producer may name a fragment-id that is free or that its own ENCAP has taken (spec/20 R87). Log 15. -/
def mayName (s : State) (producer : Nat) (f : Fid) : Bool :=
  !busyBit s.tx.busy f || s.host.owner[f.toNat]'f.isLt == producer

/-- The command is inside the admitted use of the fragment-ids it names (spec/20 R87, spec/70 R451). -/
def allowedTo (s : State) (producer : Nat) (i : Instr) : Bool := (namedFids i).all (mayName s producer)

/-- The instruction of a request (spec/30 R116). -/
def requestInstr (q : Request) : Instr := decodeCommand q.code q.operands

/-- The block accepts a request: it leaves the queue and its producer's command begins. -/
def accept (q : Request) (rest : List Request) (s : State) : State :=
  { s with host := { s.host with requests := rest, producer := q.producer } }

/-- The host issues a command: it waits behind those not yet accepted (spec/20 R86). Log 11. -/
def issue (q : Request) (s : State) : State := { s with host := { s.host with requests := s.host.requests ++ [q] } }

/-! ### Placing a table word where the step fetches (log 11, log 13, log 14) -/

/-- A receiver that a DECAP can be running on: created with the word `cfgword`. -/
def runningRx (cfgword : CfgWord) (r : Rx) : Rx := { r with configured := true, cfg := cfgword }

/-- A configuration word with every option off but the sequence number, or with compression on. -/
def fetchCfg (useCompressed : Bool) : CfgWord := if useCompressed then 0x0D0A#56 else 0x0D08#56

/-- The state in which the step's next fetch meets the bytes of a unit at `site`, zeros after them: the next request
of the host, the head of the FPDU, the trailer of an END on context 0, or the head of a COMP's ALPDU. -/
def placeUnit (site : Site) (bytes : Bytes) (s : State) : State :=
  let running := { Scan.idle with fpdu := bytes ++ List.replicate ppduLenMax 0 }
  match site with
  | .command operands =>
    let code := match bytes with
      | [] => 0
      | b :: _ => b.extractLsb' 0 4
    { s with
      scan := Scan.idle
      host := { s.host with requests := { producer := s.host.producer, code := code, operands := operands }
        :: s.host.requests } }
  | .ppdu =>
    { s with
      rx := { runningRx (fetchCfg false) s.rx with off := 0 }
      scan := { running with phase := .header } }
  | .alpduHdr pts useCompressed =>
    { s with
      rx := runningRx (fetchCfg useCompressed) s.rx
      scan := { Scan.idle with phase := .alpdu none bytes 0 pts bytes.length 0 } }
  | .trailer useCrc =>
    let r := runningRx (fetchCfg false) s.rx
    { s with
      rx := setRxCtx { r with busy := setBusy r.busy 0 } 0 { rxCtx r 0 with useCrc := useCrc }
      scan := { Scan.idle with phase := .trailer 0 [] bytes bytes.length 0 } }

end Sys2Proof.Machine
end

