-- ==== Sys2Proof/Machine/Step.lean ====
section
/-! DEFINITION. One step of the machine: the next host command, or, inside a DECAP, the next wire unit. -/

namespace Sys2Proof.Machine

open Host (Outcome)

/-- A step between commands: the oldest request is accepted and executed (spec/20 R86), unless the single-writer
rule does not admit it (R87); with no request nothing changes (spec/70 R440, spec/60 R430). -/
def commandStep (s : State) : Outcome State Fault Refusal :=
  match s.host.requests with
  | [] => .next s
  | q :: rest =>
    if allowedTo s q.producer (requestInstr q) then exec (requestInstr q) (accept q rest s)
    else .refused .foreignProducer

/-- A step inside a DECAP: the wire unit at the scan's place is decoded and executed (spec/46 R307). -/
def unitStep (s : State) : Outcome State Fault Refusal :=
  match fetchUnit s with
  | .ok i => exec i s
  | .error e => .next (onDecodeError e s)

/-- One step. Log 10, log 11, log 17. -/
def step (s : State) : Outcome State Fault Refusal :=
  if s.scan.phase = .idle then commandStep s else unitStep s

/-- `s` with the instruction of a table word placed where the step fetches next. Log 11, log 13, log 14. -/
def State.withFetchWord (s : State) (nbits w : Nat) : State :=
  match tableSite nbits w with
  | none => s
  | some site => placeUnit site (tableBytes nbits w) s

end Sys2Proof.Machine
end

