-- ==== Sys2Proof/Safety.lean ====
section
/-! DEFINITION. What a good state and a safe run are, in the terms the claims use: the invariants of the contexts
(spec/10 R47, R56), the units and the scan, the reachable states, and the frames. -/

namespace Sys2Proof.Machine

/-- Every offset of `lo .. hi-1` of a buffer has been written. -/
def Written (m : Mem) (lo hi : Nat) : Prop := ∀ a, lo ≤ a → a < hi → (byteAt m a).isSome = true

/-- The invariant of a transmitter context whose busy bit is `busy`: spec/10 R47, the room for a trailer
(spec/20 R78), and that the pending ALPDU has been written (spec/20 R80). -/
structure TxCtxInv (busy : Bool) (c : TxCtx) : Prop where
  bufWf : Mem.wf fragBufLen c.buf = true
  sduStartIs3 : c.sduStart = 3
  headLe : c.head.toNat ≤ 3
  sduEndGe : 3 ≤ c.sduEnd.toNat
  sduEndLe : c.sduEnd.toNat ≤ alpduHdrMax + sduMax
  tailGe : c.sduEnd.toNat ≤ c.tail.toNat
  tailLen : c.tail.toNat - c.sduEnd.toNat = 0 ∨ c.tail.toNat - c.sduEnd.toNat = 1 ∨
    c.tail.toNat - c.sduEnd.toNat = 4
  cursorGe : c.head.toNat ≤ c.cursor.toNat
  cursorLe : c.cursor.toNat ≤ c.tail.toNat
  busyIsCopied : c.sduCopied = busy
  fragmented : c.isFragmented = true → busy = true ∧ c.head.toNat < c.cursor.toNat ∧
    c.cursor.toNat ≤ c.sduEnd.toNat ∧ c.tail.toNat = c.sduEnd.toNat + trlLen c.useCrc
  notFragmented : busy = true → c.isFragmented = false → c.cursor = c.head ∧ c.tail = c.sduEnd
  free : busy = false → c.head = 3 ∧ c.sduEnd = 3 ∧ c.tail = 3 ∧ c.cursor = 3 ∧ c.fragCount = 0
  sduLenIs : busy = true → c.sduLen.toNat + alpduHdrMax = c.sduEnd.toNat
  written : busy = true → Written c.buf c.head.toNat c.tail.toNat

/-- The invariant of the transmitter unit: a stored configuration is valid (spec/10 R31), the `initialised` flags go
with `configured` (spec/60 R406), every context meets its own. -/
structure TxInv (t : Tx) : Prop where
  cfgOk : t.configured = true → cfgValid t.cfg = true
  initialisedIs : ∀ f, (txCtx t f).initialised = t.configured
  freeUnconfigured : t.configured = false → t.busy = 0
  ctx : ∀ f, TxCtxInv (busyBit t.busy f) (txCtx t f)

/-- The invariant of a receiver context whose busy bit is `busy` and whose buffer has `size` bytes (spec/10 R52, R56,
spec/20 R79). -/
structure RxCtxInv (size : Nat) (busy : Bool) (c : RxCtx) : Prop where
  bufWf : Mem.wf size c.buf = true
  receivedLe : busy = true → c.bytesReceived.toNat ≤ c.totalLen.toNat
  burstLe : busy = true → c.burstBytes.toNat ≤ c.bytesReceived.toNat
  written : busy = true → Written c.buf 0 c.bytesReceived.toNat

/-- The invariant of the receiver unit, whose buffers have `size` bytes. -/
structure RxInv (size : Nat) (r : Rx) : Prop where
  cfgOk : r.configured = true → cfgValid r.cfg = true
  freeUnconfigured : r.configured = false → r.busy = 0
  ctx : ∀ f, RxCtxInv size (busyBit r.busy f) (rxCtx r f)

/-- The context of an END or of its ALPDU is still IN_PROGRESS (spec/47 R331). -/
def phaseBusy (r : Rx) : ScanPhase → Prop
  | .idle | .header => True
  | .trailer f .. => busyBit r.busy f = true
  | .alpdu f .. => ∀ g, f = some g → busyBit r.busy g = true

/-- Some unit of the scan was dropped (spec/47 R352). -/
def hasDrop (events : List Event) : Bool :=
  events.any (fun e => match e with
    | .drop .. => true
    | .sdu .. | .frag _ => false)

/-- The invariant of the scan: a DECAP runs on a configured unit, `rx.off` is bounded by the FPDU (spec/10 R57), the
error mark says whether something was dropped (spec/47 R352), and the scan is empty between commands. -/
structure ScanInv (r : Rx) (c : Scan) : Prop where
  idleIsEmpty : c.phase = .idle → c = Scan.idle
  configured : c.phase ≠ .idle → r.configured = true
  offLe : c.phase ≠ .idle → r.off ≤ c.fpdu.length
  errIs : c.err = hasDrop c.events
  busyIs : phaseBusy r c.phase

/-- The invariant of the machine. -/
structure Inv (s : State) : Prop where
  tx : TxInv s.tx
  rx : RxInv s.params.rasmBufLen s.rx
  scan : ScanInv s.rx s.scan

/-- The states a run can meet: from reset, under any parameters (spec/70 R443), by steps and by the host issuing
commands. -/
inductive Reachable : State → Prop where
  | reset (p : Config.Params) : Reachable { State.reset with params := p }
  | issue (q : Request) {s : State} (h : Reachable s) : Reachable (issue q s)
  | step {s t : State} (h : Reachable s) (hs : step s = .next t) : Reachable t

/-- A step from `s` is safe: it does not fault. -/
def SafeStep (s : State) : Prop := ∀ e, step s ≠ .fault e

/-! ### When EMIT emits what (spec/44 R240, R242, R248) -/

/-- The unit is configured, the context's buffer initialised and its ALPDU pending (spec/44 R240). -/
structure EmitReady (t : Tx) (f : Fid) : Prop where
  configured : t.configured = true
  initialised : (txCtx t f).initialised = true
  busy : busyBit t.busy f = true

/-- A COMP fits (spec/44 R242). -/
def compFits (t : Tx) (f : Fid) (burst : Nat) : Prop :=
  alpduLen (txCtx t f) ≤ ppduLenMax ∧ alpduLen (txCtx t f) + 2 ≤ burst

/-- Everything left fits in an END (spec/44 R248). -/
def endFits (t : Tx) (f : Fid) (burst : Nat) : Prop := remTotal (txCtx t f) ≤ min (burst - 2) ppduLenMax

/-- How many ALPDU bytes a START takes (spec/44 R245). -/
def startLen (burst : Nat) : Nat := min (burst - 4) ppduLenMax

/-- How many ALPDU bytes a CONT takes (spec/44 R248). -/
def contLen (t : Tx) (f : Fid) (burst : Nat) : Nat := min (min (burst - 2) ppduLenMax) (remAlpdu (txCtx t f))

/-! ### Frames -/

/-- Nothing of the transmitter differs but context `f`, its busy bit and the aggregate counters. -/
structure TxSameBut (f : Fid) (t t' : Tx) : Prop where
  configured : t'.configured = t.configured
  cfg : t'.cfg = t.cfg
  busy : ∀ g, g ≠ f → busyBit t'.busy g = busyBit t.busy g
  ctx : ∀ g, g ≠ f → txCtx t' g = txCtx t g

/-- Nothing of the receiver differs but context `f`, its busy bit, the aggregate counters and `off`. -/
structure RxSameBut (f : Fid) (r r' : Rx) : Prop where
  configured : r'.configured = r.configured
  cfg : r'.cfg = r.cfg
  busy : ∀ g, g ≠ f → busyBit r'.busy g = busyBit r.busy g
  ctx : ∀ g, g ≠ f → rxCtx r' g = rxCtx r g

/-- Nothing of the receiver differs but the aggregate counters and `off`. -/
structure RxSameButAgg (r r' : Rx) : Prop where
  configured : r'.configured = r.configured
  cfg : r'.cfg = r.cfg
  busy : r'.busy = r.busy
  ctx : r'.ctx = r.ctx

/-- A command that is not the receiver's, or that changes nothing there, leaves the receiver, the scan and the
parameters. -/
structure RxUntouched (s t : State) : Prop where
  rx : t.rx = s.rx
  scan : t.scan = s.scan
  params : t.params = s.params

/-- A receiver command leaves the transmitter, the parameters and the host's queue and owners. -/
structure TxUntouched (s t : State) : Prop where
  tx : t.tx = s.tx
  params : t.params = s.params
  requests : t.host.requests = s.host.requests
  owner : t.host.owner = s.host.owner

/-- A command leaves the host's queue, the current producer and the owners of the fragment-ids. -/
structure QueueKept (s t : State) : Prop where
  requests : t.host.requests = s.host.requests
  producer : t.host.producer = s.host.producer
  owner : t.host.owner = s.host.owner

/-- A wire unit that does not end the scan leaves everything but the receiver and the scan. -/
structure OnlyRx (s t : State) : Prop where
  tx : t.tx = s.tx
  params : t.params = s.params
  host : t.host = s.host

/-- Nothing differs but the response the host reads. -/
structure OnlyResponse (s t : State) : Prop where
  tx : t.tx = s.tx
  rx : t.rx = s.rx
  scan : t.scan = s.scan
  params : t.params = s.params
  requests : t.host.requests = s.host.requests
  producer : t.host.producer = s.host.producer
  owner : t.host.owner = s.host.owner

/-- The command ended with this status. -/
def Answered (t : State) (status : Status) : Prop := ∃ r, t.host.response = some r ∧ r.status = status

/-- The command ended with this status and no other result, and changed nothing else. -/
def AnswersOnly (i : Instr) (s : State) (status : Status) : Prop :=
  ∃ t, exec i s = .next t ∧ OnlyResponse s t ∧ t.host.response = some { status := status }

/-- The receiver after context `f` (none for a PPDU with no fragment-id) has counted `d` and been released: its
other registers, the other contexts and the configuration stay (spec/47 R340, R341). Counters have `w` bits. -/
structure RxReleased (w : Nat) (f : Option Fid) (d : Counters) (r r' : Rx) : Prop where
  configured : r'.configured = r.configured
  cfg : r'.cfg = r.cfg
  agg : r'.agg = addCounters w r.agg d
  ctx : ∀ g, rxCtx r' g =
    if f = some g then { rxCtx r g with cnt := addCounters w (rxCtx r g).cnt d } else rxCtx r g
  busy : ∀ g, busyBit r'.busy g = (busyBit r.busy g && decide (f ≠ some g))

/-- The PPDU or ALPDU in hand was dropped for `reason`: it is counted by `d`, its context released, the DROP event
appended and the error mark set; the scan goes on at header position `off` (spec/47 R340, spec/60 R416). -/
structure DroppedBy (f : Option Fid) (reason : DropReason) (d : Counters) (off : Nat) (s t : State) : Prop where
  only : OnlyRx s t
  rx : RxReleased s.params.cntW f d s.rx t.rx
  off : t.rx.off = off
  scan : t.scan =
    { s.scan with phase := .header, events := s.scan.events ++ [.drop f reason], err := true }

/-- The ALPDU in hand was delivered as an SDU (spec/47 R350, spec/48 R389), its context released (R331). -/
structure DeliveredAs (f : Option Fid) (ptype : Ptype) (sdu : Bytes) (s t : State) : Prop where
  only : OnlyRx s t
  rx : RxReleased s.params.cntW f
    { pktsOk := 1, pktsOut := 1, bytesOk := sdu.length, bytesOut := sdu.length } s.rx t.rx
  off : t.rx.off = s.rx.off
  scan : t.scan = { s.scan with phase := .header, events := s.scan.events ++ [.sdu f ptype sdu] }

/-- The PPDU in hand fits: `hl` header bytes and `len` payload bytes at `rx.off` (spec/46 R305, R306). -/
def PayloadIs (s : State) (hl len : Nat) (payload : Bytes) : Prop :=
  s.rx.off + hl + len ≤ s.scan.fpdu.length ∧ payload = (s.scan.fpdu.drop (s.rx.off + hl)).take len

/-- The context's buffer of `size` bytes after `bytes` have been stored from offset `off` on: they are read back, every
other byte reads as before. -/
structure Stored (size : Nat) (m m' : Mem) (off : Nat) (bytes : Bytes) : Prop where
  stored : memRead size m' off bytes.length = .ok bytes
  rest : ∀ a, a < off ∨ off + bytes.length ≤ a → readByte size m' a = readByte size m a

/-- The label type of a COMP or START that the receiver takes (spec/30 R108). -/
def LegalLt (lt : LabelType) : Prop := lt = 0 ∨ lt = 3

/-! ### What a rule says of the next state -/

/-- The registers and counters of a context released by EMIT (R253), and what stays. -/
def ReleasedTx (f : Fid) (d : Counters) (s t : State) : Prop :=
  txCtx t.tx f =
    { txCtx s.tx f with
      sduCopied := false
      isFragmented := false
      fragCount := 0
      head := 3
      sduEnd := 3
      tail := 3
      cursor := 3
      cnt := addCounters s.params.cntW (txCtx s.tx f).cnt d } ∧
  busyBit t.tx.busy f = false ∧ t.tx.agg = addCounters s.params.cntW s.tx.agg d ∧
  TxSameBut f s.tx t.tx ∧
  RxUntouched s t ∧ QueueKept s t

/-- The nine counters of a record in the order of their numbers (R35). -/
def countersOf (c : Counters) : List Count :=
  [c.pktsIn, c.pktsOut, c.pktsOk, c.pktsDropped, c.pktsLost, c.bytesIn, c.bytesOut, c.bytesOk, c.bytesDropped]

/-- The trailer is good: delivery comes next, and nothing changes but context `f`, which becomes `c`, and the
aggregate, which becomes `agg`. -/
def TrailerPassed (f : Fid) (alpdu : Bytes) (len prior : Nat) (c : RxCtx) (agg : Counters)
    (s t : State) : Prop :=
  OnlyRx s t ∧ RxSameBut f s.rx t.rx ∧ t.rx.busy = s.rx.busy ∧ t.rx.off = s.rx.off ∧ rxCtx t.rx f = c ∧
    t.rx.agg = agg ∧
    t.scan = { s.scan with phase := .alpdu (some f) alpdu (rxCtx s.rx f).lt (rxCtx s.rx f).pts len prior }

/-- What an ALPDU header form makes of the ALPDU (R350): the protocol type and the SDU, or a drop reason. -/
def formExpands (s : State) (lt : LabelType) (alpdu : Bytes) (i : Instr) : Option Expanded :=
  match i with
  | .ptOmit =>
    some (if lt = 3 then .ok (0x0082, alpdu)
      else ptypeExpand s.params (implicitProtocolType s.rx.cfg) alpdu)
  | .ptComp code => some (ptypeExpand s.params code (alpdu.drop 1))
  | .ptFallback ptype => some (.ok (ptype, alpdu.drop 3))
  | .ptUncomp ptype => some (.ok (ptype, alpdu.drop 2))
  | _ => none

/-- The statuses each command can return (R403). -/
def statusesOf : Instr → List Status
  | .txNew _ | .rxNew _ => [.ok, .errConfig]
  | .txDestroy => [.ok, .errNullTrmt]
  | .rxDestroy => [.ok, .errNullRcvr]
  | .encap .. => [.ok, .errNullTrmt, .errNullBuf, .errSduTooBig, .errNInitBuf, .errCtxBusy]
  | .emit .. => [.ok, .okAndDone, .errNullTrmt, .errNInitBuf, .errContextTimeout, .errBurstTooSmall, .errTooMuchFrag]
  | .pack .. => [.ok, .errNullTrmt, .errNullBuf, .err, .errFrag]
  | .dumpAlpdu _ => [.ok, .errNullTrmt, .errContextTimeout]
  | .txStat .. => [.ok, .errNullTrmt, .err]
  | .rxStat .. => [.ok, .errNullRcvr, .err]
  | .decap _ => [.ok, .err, .errNullRcvr, .errNullBuf]
  | .hdrsz .. => [.headerSizeOk, .headerSizeErrNonDeterministic, .headerSizeErrInvalidConfig]
  | .reserved12 | .reserved13 | .reserved14 | .reserved15 => [.err]
  | .pad | .comp .. | .start .. | .cont .. | .endPpdu .. | .ptOmit | .ptComp _ | .ptFallback _ | .ptUncomp _
  | .trlSeq _ | .trlCrc _ => []

/-- The eight fragment-ids (spec/00 R7). -/
def allFids : List Fid := [0, 1, 2, 3, 4, 5, 6, 7]

/-- How many contexts of the transmitter are busy (spec/48 R392). -/
def busyCount (t : Tx) : Nat := (allFids.map (fun f => if busyBit t.busy f then 1 else 0)).sum

/-- The bytes of the SDU a transmitter context holds. -/
def pendingBytes (t : Tx) (f : Fid) : Nat := if busyBit t.busy f then (txCtx t f).sduLen.toNat else 0

/-- A record of the transmitter: the aggregate's or a context's. -/
def TxRecord (t : Tx) (c : Counters) : Prop := c = t.agg ∨ ∃ f, c = (txCtx t f).cnt

/-- A record of the receiver: the aggregate's or a context's. -/
def RxRecord (r : Rx) (c : Counters) : Prop := c = r.agg ∨ ∃ f, c = (rxCtx r f).cnt

/-- In a transmitter record with counters of `w` bits, what came in is what went out, was dropped or is still pending:
`packets` packets and `bytes` bytes (spec/48 R381 to R383, R392). -/
def TxBalance (w : Nat) (c : Counters) (packets bytes : Nat) : Prop :=
  c.pktsIn = (c.pktsOut + c.pktsDropped + packets) % 2 ^ w ∧ c.bytesIn = (c.bytesOut + c.bytesDropped + bytes) % 2 ^ w

/-- The relations between counters that a step keeps, wrapping or not: every counter has `CNT_W` bits (spec/10 R35);
the transmitter's records balance against the busy contexts, and what R382 says never moves stays 0; a receiver record's
ok counters equal its out counters (spec/48 R392). -/
structure CountersAgree (s : State) : Prop where
  width : ∀ c, TxRecord s.tx c ∨ RxRecord s.rx c → ∀ v ∈ countersOf c, v < 2 ^ s.params.cntW
  txCtxs : ∀ f,
    TxBalance s.params.cntW (txCtx s.tx f).cnt (if busyBit s.tx.busy f then 1 else 0) (pendingBytes s.tx f)
  txAgg : TxBalance s.params.cntW s.tx.agg (busyCount s.tx) (allFids.map (pendingBytes s.tx)).sum
  txStill : ∀ c, TxRecord s.tx c → c.pktsOk = 0 ∧ c.bytesOk = 0 ∧ c.pktsLost = 0
  rx : ∀ c, RxRecord s.rx c → c.pktsOk = c.pktsOut ∧ c.bytesOk = c.bytesOut

/-- The length field of a PPDU header: how many payload bytes follow it (spec/30 R101 to R106). PAD has none. -/
def payloadField : Instr → Option Nat
  | .comp _ _ length | .cont length _ | .endPpdu length _ => some length.toNat
  | .start _ _ fragLen _ _ _ => some fragLen.toNat
  | .pad | .ptOmit | .ptComp _ | .ptFallback _ | .ptUncomp _ | .trlSeq _ | .trlCrc _ | .txNew _ | .txDestroy
  | .encap .. | .emit .. | .pack .. | .dumpAlpdu _ | .txStat .. | .rxNew _ | .rxDestroy | .decap _ | .rxStat ..
  | .hdrsz .. | .reserved12 | .reserved13 | .reserved14 | .reserved15 => none

/-! ### Runs -/

/-- The wire units of one DECAP, one step each, to the end of the scan (spec/46 R307). -/
inductive ScanRun : State → State → Prop where
  | ended {s : State} (h : s.scan.phase = .idle) : ScanRun s s
  | unit {s t u : State} (h : s.scan.phase ≠ .idle) (hs : step s = .next t) (hr : ScanRun t u) : ScanRun s u

/-- EMITs on one context up to the one that finishes the ALPDU, with the PPDUs in order (spec/44 R240). -/
inductive EmitRun (f : Fid) : State → List Bytes → State → Prop where
  | last {s t : State} {burst : Nat} {r : Response} (hs : exec (.emit f burst) s = .next t)
      (hr : t.host.response = some r) (hd : r.status = .okAndDone) : EmitRun f s [r.bytes] t
  | more {s t u : State} {burst : Nat} {r : Response} {ppdus : List Bytes} (hs : exec (.emit f burst) s = .next t)
      (hr : t.host.response = some r) (hd : r.status = .ok) (hm : EmitRun f t ppdus u) :
      EmitRun f s (r.bytes :: ppdus) u

/-- The inner loop of PACK on context `f` (spec/45 R280, R282), with no bound on its rounds. -/
inductive DrawRun (p : Config.Params) (size : Nat) (f : Fid) : Packing → Packing → Prop where
  | notBusy {k : Packing} (hb : busyBit k.tx.busy f = false) : DrawRun p size f k k
  | again {k k' : Packing} {e : Emission} (hb : busyBit k.tx.busy f = true)
      (he : emit p k.tx f (size - k.out.length) = .ok e) (hs : e.status = .ok)
      (hr : DrawRun p size f { k with tx := e.tx, out := k.out ++ e.ppdu } k') : DrawRun p size f k k'
  | finished {k : Packing} {e : Emission} (hb : busyBit k.tx.busy f = true)
      (he : emit p k.tx f (size - k.out.length) = .ok e) (hs : e.status = .okAndDone) :
      DrawRun p size f k { k with tx := e.tx, out := k.out ++ e.ppdu }
  | full {k : Packing} {e : Emission} (hb : busyBit k.tx.busy f = true)
      (he : emit p k.tx f (size - k.out.length) = .ok e) (hs : e.status = .errBurstTooSmall) :
      DrawRun p size f k { k with tx := e.tx }
  | failed {k : Packing} {e : Emission} (hb : busyBit k.tx.busy f = true)
      (he : emit p k.tx f (size - k.out.length) = .ok e)
      (hs : e.status ≠ .ok ∧ e.status ≠ .okAndDone ∧ e.status ≠ .errBurstTooSmall) :
      DrawRun p size f k { k with tx := e.tx, failed := true }

/-- The outer loop of PACK over the schedule (spec/45 R280): a failure leaves both loops. -/
inductive PackRun (p : Config.Params) (size : Nat) : List Fid → Packing → Packing → Prop where
  | done {k : Packing} : PackRun p size [] k k
  | failed {f : Fid} {fs : List Fid} {k k' : Packing} (hd : DrawRun p size f k k') (hf : k'.failed = true) :
      PackRun p size (f :: fs) k k'
  | next {f : Fid} {fs : List Fid} {k k1 k2 : Packing} (hd : DrawRun p size f k k1) (hf : k1.failed = false)
      (hr : PackRun p size fs k1 k2) : PackRun p size (f :: fs) k k2

/-- Every byte of a buffer of `size` bytes outside `lo .. hi-1` reads as before. -/
def SameOutside (size : Nat) (m m' : Mem) (lo hi : Nat) : Prop :=
  ∀ a, a < lo ∨ hi ≤ a → readByte size m' a = readByte size m a

end Sys2Proof.Machine
end

