-- ==== Sys2Proof/Certificates/Slice0/Obligations.lean ====
section
/-! DEFINITION. The statements about the machine, in the order of the rules of spec/: encodings, byte codec,
protocol types, configuration, the transmitter's commands, the wire units, DECAP, statistics, and the whole
machine. -/

section

open Sys2Proof Sys2Proof.Machine

/-! ### Encodings (spec/30, spec/40) -/

/-- Decoding the encoding of a well-formed instruction gives it back, whatever bytes follow (R107, R110, R111,
R116): under every legal layout of the PPDU headers (R8, log 19), and so under the one of spec/30. -/
def Obligations.EncodeDecodeRoundTrip : Prop :=
  (∀ (l : Config.PpduLayout) (i : Instr) (rest : Bytes), l.legal = true → i.wellFormedWith l = true →
    decodeWith l (siteOf i) (encodeWith l i ++ rest) = .ok (i, rest)) ∧
  ∀ (i : Instr) (rest : Bytes), i.wellFormed = true → decode (siteOf i) (encode i ++ rest) = .ok (i, rest)

/-- R141: UNPACK_HDR inverts PACK_HDR for every kind and all field values, except that a CONT header with a length
below 32 unpacks as PAD. -/
def Obligations.UnpackInvertsPack : Prop :=
  ∀ rest : Bytes,
    (∀ lt pts len, decode .ppdu (encode (.comp lt pts len) ++ rest) = .ok (.comp lt pts len, rest)) ∧
    (∀ lt pts len fid total crc,
      decode .ppdu (encode (.start lt pts len fid total crc) ++ rest) = .ok (.start lt pts len fid total crc, rest)) ∧
    (∀ len fid, decode .ppdu (encode (.endPpdu len fid) ++ rest) = .ok (.endPpdu len fid, rest)) ∧
    (∀ len fid, 32 ≤ len.toNat → decode .ppdu (encode (.cont len fid) ++ rest) = .ok (.cont len fid, rest)) ∧
    (∀ len fid, len.toNat < 32 → ∃ b, encode (.cont len fid) = [0, b] ∧
      decode .ppdu (encode (.cont len fid) ++ rest) = .ok (.pad, b :: rest))

/-- The other direction, at a PPDU-header position: the decoded unit is well-formed and its encoding is exactly the
bytes read (R101 to R109), so no two byte strings have one meaning there. -/
def Obligations.PpduBytesDetermined : Prop :=
  ∀ (bytes rest : Bytes) (i : Instr), decode .ppdu bytes = .ok (i, rest) →
    bytes = encode i ++ rest ∧ i.wellFormed = true ∧ siteOf i = .ppdu

/-- Words written out in the spec decode to the units they stand for (R103 to R106, R110, R346, R149, R116). -/
def Obligations.SpecWordsDecode : Prop :=
  decode .ppdu [0xC0, 0x66] = .ok (.comp 0 false 102, []) ∧
  decode .ppdu [0x80, 0x2E, 0x00, 0xCC] = .ok (.start 0 false 46 0 102 false, []) ∧
  decode .ppdu [0x01, 0x80] = .ok (.cont 48 0, []) ∧
  decode .ppdu [0x40, 0x48] = .ok (.endPpdu 9 0, []) ∧
  decode .ppdu [0x00, 0x40, 0x55] = .ok (.pad, [0x40, 0x55]) ∧
  decode (.alpduHdr false true) [0xff, 0x34, 0x12, 0x07] = .ok (.ptFallback 0x1234, [0x07]) ∧
  decode (.alpduHdr false false) [0x00, 0x08] = .ok (.ptUncomp 0x0800, []) ∧
  decode (.alpduHdr false true) [0x0d] = .ok (.ptComp 0x0d, []) ∧
  decode (.trailer false) [0xFB] = .ok (.trlSeq 3, []) ∧
  decode (.trailer true) [0x2F, 0xD4, 0xE4, 0xF1] = .ok (.trlCrc 0xF1E4D42F, []) ∧
  decode (.command {}) [0x08] = .ok (.rxDestroy, [])

/-- R147, for every instance of CRC32, the default one among them: whatever single bit of a message and its trailer is
flipped, the check of the flipped bytes fails. -/
def Obligations.CrcDetectsSingleBitFlip : Prop :=
  ∀ (c : Config.CrcInstance) (m n : Bytes) (t : Crc) (k j : Nat), k < m.length + 4 → j < 8 →
    n ++ le32 t = (m ++ le32 (crc32 c m)).modify k (fun b => b ^^^ BitVec.twoPow 8 j) →
    crcCheck c n t = false

/-! ### Protocol types (spec/41) -/

/-- R163 and R164: IS_SUPPRESSIBLE holds exactly for the pairs of the table; VLAN and Q-in-Q are not suppressible
under 0x30. -/
def Obligations.SuppressibleTable : Prop :=
  ∀ (ptype : Ptype) (implicit : Byte), isSuppressible ptype implicit = true ↔
    ptype = 0x0082 ∨ (ptype = 0x8100 ∧ implicit = 0x0f) ∨ (ptype = 0x88a8 ∧ implicit = 0x19) ∨
      (ptype = 0x9100 ∧ implicit = 0x1a) ∨ (ptype = 0x0800 ∧ (implicit = 0x0d ∨ implicit = 0x30)) ∨
      (ptype = 0x86dd ∧ (implicit = 0x11 ∨ implicit = 0x30)) ∨ (ptype = 0x0806 ∧ implicit = 0x0e)

/-- R170 to R172, the expander under every value of its parameters: the six fixed rows of R161 and CODE_L2S give their
protocol type, 0x30 is decided by the nibble and is malformed for an empty SDU or another nibble, CODE_VLAN_WO_PTYPE
gives VLAN_RESTORE, and every other code is malformed. R178, the round-trip law of the compressor and the expander,
where CODE_L2S is no implicit code, as R179 has it. That a code which two branches of R170 name takes the earlier one is
the model's choice (log 28). -/
def Obligations.PtypeRoundTrip : Prop :=
  ∀ (p : Config.Params) (rows : List (Ptype × Byte)), rows =
      [(0x0800, 0x0d), (0x0806, 0x0e), (0x8100, 0x0f), (0x86dd, 0x11), (0x88a8, 0x19), (0x9100, 0x1a)] →
    (∀ ptype code sdu, (ptype, code) ∈ rows → ptypeExpand p code sdu = .ok (ptype, sdu)) ∧
    (∀ sdu, p.codeL2s ∉ rows.map Prod.snd → ptypeExpand p p.codeL2s sdu = .ok (0x0082, sdu)) ∧
    (p.codeL2s ≠ 0x30 →
      ptypeExpand p 0x30 [] = .error .malformedPtype ∧
      ∀ (b : Byte) (rest : Bytes),
        (b.toNat / 16 = 4 → ptypeExpand p 0x30 (b :: rest) = .ok (0x0800, b :: rest)) ∧
        (b.toNat / 16 = 6 → ptypeExpand p 0x30 (b :: rest) = .ok (0x86dd, b :: rest)) ∧
        (b.toNat / 16 ≠ 4 → b.toNat / 16 ≠ 6 → ptypeExpand p 0x30 (b :: rest) = .error .malformedPtype)) ∧
    (∀ sdu, p.codeVlanWoPtype ∉ rows.map Prod.snd → p.codeVlanWoPtype ≠ p.codeL2s →
      p.codeVlanWoPtype ≠ 0x30 → ptypeExpand p p.codeVlanWoPtype sdu = vlanRestore p sdu) ∧
    (∀ code sdu, code ∉ rows.map Prod.snd → code ≠ p.codeL2s → code ≠ 0x30 → code ≠ p.codeVlanWoPtype →
      ptypeExpand p code sdu = .error .malformedPtype) ∧
    (validImplicit p.codeL2s = false →
      (∀ ptype code sdu, ptypeCompress p ptype = some code → ptypeExpand p code sdu = .ok (ptype, sdu)) ∧
      (∀ ptype implicit sdu, isSuppressible ptype implicit = true → ptype ≠ 0x0082 → implicit ≠ 0x30 →
        ptypeExpand p implicit sdu = .ok (ptype, sdu)) ∧
      (∀ ptype sdu, isSuppressible ptype 0x30 = true → ptype ≠ 0x0082 →
        (ptypeExpand p 0x30 sdu = .ok (ptype, sdu) ↔
          ∃ b rest, sdu = b :: rest ∧
            ((ptype = 0x0800 ∧ b.toNat / 16 = 4) ∨ (ptype = 0x86dd ∧ b.toNat / 16 = 6)))))

/-- R175 and R176: VLAN_RESTORE drops a frame that is too short, whose outer EtherType is not VLAN or whose nibble is
neither 4 nor 6, and otherwise inserts the protocol type, most significant byte first, at the offset `P`. The places 12
and 13 and the byte order are those the spec marks as general knowledge (log 3). That a frame with no byte 12 or 13
is dropped as one of another EtherType, and that `P` is 0 where the header lengths add up to less than 2, is the
model's reading (log 20). -/
def Obligations.VlanRestoreRule : Prop :=
  ∀ (p : Config.Params) (sdu : Bytes) (P : Nat), P = p.ethHdrLen + p.vlanHdrLen - 2 →
    (sdu.length < P + 1 → vlanRestore p sdu = .error .malformedVlan) ∧
    (sdu[12]? ≠ some 0x81 ∨ sdu[13]? ≠ some 0x00 → vlanRestore p sdu = .error .malformedVlan) ∧
    (∀ b, sdu[P]? = some b → b.toNat / 16 ≠ 4 → b.toNat / 16 ≠ 6 → vlanRestore p sdu = .error .malformedVlan) ∧
    (∀ b, sdu[P]? = some b → sdu[12]? = some 0x81 → sdu[13]? = some 0x00 → b.toNat / 16 = 4 →
      vlanRestore p sdu = .ok (0x8100, sdu.take P ++ [0x08, 0x00] ++ sdu.drop P)) ∧
    (∀ b, sdu[P]? = some b → sdu[12]? = some 0x81 → sdu[13]? = some 0x00 → b.toNat / 16 = 6 →
      vlanRestore p sdu = .ok (0x8100, sdu.take P ++ [0x86, 0xdd] ++ sdu.drop P))

/-- R227: the ALPDU header length is 0 when omitted; else 1 for the seven named types and 3 for all others when
types are compressed; else 2. -/
def Obligations.HeaderLengthLaw : Prop :=
  ∀ (p : Config.Params) (cfg : CfgWord) (ptype : Ptype),
    (encode (chooseHeader p cfg ptype)).length =
      if cfg.getLsbD 0 = true ∧ isSuppressible ptype (cfg.extractLsb' 8 8) = true then 0
      else if cfg.getLsbD 1 = true then
        if ptype ∈ ([0x0082, 0x8100, 0x88a8, 0x9100, 0x0800, 0x86dd, 0x0806] : List Ptype) then 1 else 3
      else 2

/-! ### Configuration (spec/42) -/

/-- R190: the seven tests of `cfg_valid`, over the number the word is. -/
def Obligations.CfgValidTests : Prop :=
  ∀ w : CfgWord, cfgValid w = true ↔
    w.toNat / 2 ^ 16 % 256 ≤ 15 ∧ w.toNat / 2 ^ 24 % 256 ≤ 15 ∧ w.toNat / 2 ^ 32 % 256 ≤ 15 ∧
    w.toNat / 2 ^ 8 % 256 ∈ [0x0d, 0x0e, 0x0f, 0x11, 0x19, 0x1a, 0x30] ∧
    (w.toNat / 2 ^ 2 % 2 = 1 ∨ w.toNat / 2 ^ 3 % 2 = 1) ∧ w.toNat / 2 ^ 4 % 2 = 0 ∧
    w.toNat / 2 ^ 5 % 8 = 0 ∧ w.toNat / 2 ^ 40 = 0

/-- R191 and R192: a NEW with a valid word puts every piece of its unit at its reset value, stores the word and, in
the transmitter, initialises every context; with an invalid word it changes nothing. -/
def Obligations.NewUnitRule : Prop :=
  ∀ (w : CfgWord) (s : State),
    (cfgValid w = false → AnswersOnly (.txNew w) s .errConfig ∧ AnswersOnly (.rxNew w) s .errConfig) ∧
    (cfgValid w = true →
      (∃ t, exec (.txNew w) s = .next t ∧ t.host.response = some { status := .ok } ∧
        t.tx.configured = true ∧ t.tx.cfg = w ∧ t.tx.busy = 0 ∧ t.tx.agg = {} ∧
        (∀ f, txCtx t.tx f = { TxCtx.reset with initialised := true }) ∧ RxUntouched s t ∧ QueueKept s t) ∧
      (∃ t, exec (.rxNew w) s = .next t ∧ t.host.response = some { status := .ok } ∧
        t.rx.configured = true ∧ t.rx.cfg = w ∧ t.rx.busy = 0 ∧ t.rx.agg = {} ∧
        (∀ f, rxCtx t.rx f = RxCtx.reset) ∧ TxUntouched s t ∧ QueueKept s t))

/-- R193 and R194: the two DESTROY commands put a configured unit at its reset values and answer the null status on
an unconfigured one. What `cfg` and `off` hold then is left open, as R63 does. -/
def Obligations.DestroyRule : Prop :=
  ∀ s : State,
    (s.tx.configured = false → AnswersOnly .txDestroy s .errNullTrmt) ∧
    (s.tx.configured = true → ∃ t, exec .txDestroy s = .next t ∧ t.host.response = some { status := .ok } ∧
      t.tx = { Tx.reset with cfg := t.tx.cfg } ∧ RxUntouched s t ∧ QueueKept s t) ∧
    (s.rx.configured = false → AnswersOnly .rxDestroy s .errNullRcvr) ∧
    (s.rx.configured = true → ∃ t, exec .rxDestroy s = .next t ∧ t.host.response = some { status := .ok } ∧
      t.rx = { Rx.reset with cfg := t.rx.cfg, off := t.rx.off } ∧ TxUntouched s t ∧ QueueKept s t)

/-- R197: the header-size query, which reads and writes no state. -/
def Obligations.HdrszRule : Prop :=
  ∀ (w : CfgWord) (k : FpduType) (s : State), ∃ t, exec (.hdrsz w k) s = .next t ∧ OnlyResponse s t ∧
    t.host.response = some
      (if cfgValid w = true then
        match k with
        | .logon => { status := .headerSizeOk, size := 6 }
        | .ctrl => { status := .headerSizeOk, size := 3 }
        | .trafficCtrl => { status := .headerSizeOk, size := 5 }
        | .traffic => { status := .headerSizeErrNonDeterministic, size := 0 }
      else { status := .headerSizeErrInvalidConfig, size := 0 })

/-- R116: a reserved command code answers ERR and changes no state. -/
def Obligations.ReservedCodesRule : Prop :=
  ∀ s : State, AnswersOnly .reserved12 s .err ∧ AnswersOnly .reserved13 s .err ∧
    AnswersOnly .reserved14 s .err ∧ AnswersOnly .reserved15 s .err

/-- R404: every command on a unit that is not configured, other than its NEW, answers the null-unit status and
changes nothing. -/
def Obligations.NullUnitRule : Prop :=
  (∀ (s : State) (i : Instr), s.tx.configured = false →
    (i = .txDestroy ∨ (∃ sdu ptype f, i = .encap sdu ptype f) ∨ (∃ f b, i = .emit f b) ∨
      (∃ n l fs, i = .pack n l fs) ∨ (∃ f, i = .dumpAlpdu f) ∨ (∃ a n, i = .txStat a n)) →
    AnswersOnly i s .errNullTrmt) ∧
  (∀ (s : State) (i : Instr), s.rx.configured = false →
    (i = .rxDestroy ∨ (∃ fpdu, i = .decap fpdu) ∨ (∃ a n, i = .rxStat a n)) → AnswersOnly i s .errNullRcvr)

/-! ### ENCAP (spec/43) -/

/-- R220, the checks in their order; each that fails ends the command with no state change. -/
def Obligations.EncapChecks : Prop :=
  ∀ (s : State) (ptype : Ptype) (f : Fid), s.tx.configured = true →
    AnswersOnly (.encap none ptype f) s .errNullBuf ∧
    (∀ sdu : Bytes, 4088 < sdu.length → AnswersOnly (.encap (some sdu) ptype f) s .errSduTooBig) ∧
    (∀ sdu : Bytes, sdu.length ≤ 4088 →
      ((txCtx s.tx f).initialised = false → AnswersOnly (.encap (some sdu) ptype f) s .errNInitBuf) ∧
      ((txCtx s.tx f).initialised = true → busyBit s.tx.busy f = true →
        AnswersOnly (.encap (some sdu) ptype f) s .errCtxBusy))

/-- R221: a successful ENCAP takes the context, writes header and SDU and sets the registers; every other byte of the
buffer and every other context is as before. -/
def Obligations.EncapFillsContext : Prop :=
  ∀ (s : State) (sdu : Bytes) (ptype : Ptype) (f : Fid), s.tx.configured = true → sdu.length ≤ 4088 →
    (txCtx s.tx f).initialised = true → busyBit s.tx.busy f = false →
    ∃ (t : State) (hdr : Bytes) (buf : Mem), exec (.encap (some sdu) ptype f) s = .next t ∧
      t.host.response = some { status := .ok } ∧
      hdr = encode (chooseHeader s.params s.tx.cfg ptype) ∧
      txCtx t.tx f =
        { txCtx s.tx f with
          buf := buf
          sduCopied := true
          sduEnd := BitVec.ofNat 12 (3 + sdu.length)
          head := BitVec.ofNat 12 (3 - hdr.length)
          tail := BitVec.ofNat 12 (3 + sdu.length)
          cursor := BitVec.ofNat 12 (3 - hdr.length)
          isFragmented := false
          fragCount := 0
          useCrc := s.tx.cfg.getLsbD 2
          lt := if ptype = 0x0082 then 3 else 0
          pts := decide (chooseHeader s.params s.tx.cfg ptype = .ptOmit)
          sduLen := BitVec.ofNat 12 sdu.length
          cnt := addCounters s.params.cntW (txCtx s.tx f).cnt { pktsIn := 1, bytesIn := sdu.length } } ∧
      Stored fragBufLen (txCtx s.tx f).buf buf (3 - hdr.length) (hdr ++ sdu) ∧
      busyBit t.tx.busy f = true ∧
      t.tx.agg = addCounters s.params.cntW s.tx.agg { pktsIn := 1, bytesIn := sdu.length } ∧
      TxSameBut f s.tx t.tx ∧ RxUntouched s t ∧ t.host.requests = s.host.requests ∧
      t.host.producer = s.host.producer

/-- R82: of two ENCAPs on one free context the first takes it and the second finds it busy. -/
def Obligations.EncapTestAndSet : Prop :=
  ∀ (s t : State) (sdu sdu' : Bytes) (ptype ptype' : Ptype) (f : Fid), sdu'.length ≤ 4088 →
    exec (.encap (some sdu) ptype f) s = .next t → Answered t .ok →
    busyBit s.tx.busy f = false ∧ AnswersOnly (.encap (some sdu') ptype' f) t .errCtxBusy

/-- After an ENCAP, DUMP_ALPDU returns the ALPDU: header and SDU (R230, R386). -/
def Obligations.EncapThenDump : Prop :=
  ∀ (s t : State) (sdu : Bytes) (ptype : Ptype) (f : Fid),
    exec (.encap (some sdu) ptype f) s = .next t → Answered t .ok →
    ∃ u, exec (.dumpAlpdu f) t = .next u ∧ OnlyResponse t u ∧
      u.host.response =
        some { status := .ok, bytes := encode (chooseHeader s.params s.tx.cfg ptype) ++ sdu }

/-! ### EMIT (spec/44) -/

/-- R241 and R251: EMIT on a context with no ALPDU pending, or with a burst too small for what is next, changes no
state. -/
def Obligations.EmitChangesNothing : Prop :=
  ∀ (s : State) (f : Fid) (burst : Nat), s.tx.configured = true → (txCtx s.tx f).initialised = true →
    (busyBit s.tx.busy f = false → AnswersOnly (.emit f burst) s .errContextTimeout) ∧
    (busyBit s.tx.busy f = true → (txCtx s.tx f).isFragmented = false → ¬ compFits s.tx f burst → burst < 5 →
      AnswersOnly (.emit f burst) s .errBurstTooSmall) ∧
    (busyBit s.tx.busy f = true → (txCtx s.tx f).isFragmented = true →
      (burst < 3 ∨ ¬ endFits s.tx f burst ∧ (txCtx s.tx f).sduEnd.toNat ≤ (txCtx s.tx f).cursor.toNat) →
      AnswersOnly (.emit f burst) s .errBurstTooSmall)

/-- R243 and R244: the COMP emission of a pending ALPDU that fits, and the release of its context. -/
def Obligations.EmitCompRule : Prop :=
  ∀ (s : State) (f : Fid) (burst : Nat) (alpdu : Bytes), EmitReady s.tx f →
    (txCtx s.tx f).isFragmented = false → compFits s.tx f burst →
    memRead fragBufLen (txCtx s.tx f).buf (txCtx s.tx f).head.toNat (alpduLen (txCtx s.tx f)) = .ok alpdu →
    ∃ t, exec (.emit f burst) s = .next t ∧
      t.host.response = some
        { status := .okAndDone
          bytes := encodeWith s.params.ppduLayout (.comp (txCtx s.tx f).lt (txCtx s.tx f).pts
            (BitVec.ofNat 11 (alpduLen (txCtx s.tx f)))) ++ alpdu } ∧
      ReleasedTx f { pktsOut := 1, bytesOut := (txCtx s.tx f).sduLen.toNat } s t

/-- R245 to R247: the START emission: the trailer is written behind the SDU, and the first bytes of the ALPDU are
sent. -/
def Obligations.EmitStartRule : Prop :=
  ∀ (s : State) (f : Fid) (burst : Nat) (c : TxCtx) (alpdu trl : Bytes), EmitReady s.tx f → c = txCtx s.tx f →
    c.isFragmented = false → ¬ compFits s.tx f burst → 5 ≤ burst →
    memRead fragBufLen c.buf c.head.toNat (alpduLen c) = .ok alpdu →
    trl = (if c.useCrc = true then le32 (crc32 s.params.crc32 alpdu) else [c.nextSeqNb.setWidth 8]) →
    c.sduEnd.toNat + trl.length ≤ 4095 →
    ∃ (t : State) (buf : Mem), exec (.emit f burst) s = .next t ∧
      t.host.response = some
        { status := .ok
          bytes := encodeWith s.params.ppduLayout (.start c.lt c.pts (BitVec.ofNat 11 (startLen burst)) f
            (BitVec.ofNat 12 (alpduLen c)) c.useCrc) ++ alpdu.take (startLen burst) } ∧
      txCtx t.tx f =
        { c with
          buf := buf
          tail := BitVec.ofNat 12 (c.sduEnd.toNat + trl.length)
          cursor := BitVec.ofNat 12 (c.head.toNat + startLen burst)
          isFragmented := true
          fragCount := 1
          nextSeqNb := if c.useCrc = true then c.nextSeqNb else c.nextSeqNb + 1 } ∧
      Stored fragBufLen c.buf buf c.sduEnd.toNat trl ∧ 1 ≤ startLen burst ∧ startLen burst < alpduLen c ∧
      t.tx.busy = s.tx.busy ∧ t.tx.agg = s.tx.agg ∧ TxSameBut f s.tx t.tx ∧ RxUntouched s t ∧ QueueKept s t

/-- R250: the CONT emission: ALPDU bytes only, the cursor and the fragment count advance, nothing else changes. -/
def Obligations.EmitContRule : Prop :=
  ∀ (s : State) (f : Fid) (burst : Nat) (payload : Bytes), EmitReady s.tx f →
    (txCtx s.tx f).isFragmented = true → 3 ≤ burst → ¬ endFits s.tx f burst → 0 < contLen s.tx f burst →
    fragCapReached s.params (txCtx s.tx f) = false →
    memRead fragBufLen (txCtx s.tx f).buf (txCtx s.tx f).cursor.toNat (contLen s.tx f burst) = .ok payload →
    ∃ t, exec (.emit f burst) s = .next t ∧
      t.host.response = some
        { status := .ok
          bytes := encodeWith s.params.ppduLayout (.cont (BitVec.ofNat 11 (contLen s.tx f burst)) f) ++
            payload } ∧
      contLen s.tx f burst ≤ (txCtx s.tx f).sduEnd.toNat - (txCtx s.tx f).cursor.toNat ∧
      txCtx t.tx f =
        { txCtx s.tx f with
          cursor := BitVec.ofNat 12 ((txCtx s.tx f).cursor.toNat + contLen s.tx f burst)
          fragCount := (txCtx s.tx f).fragCount + 1 } ∧
      t.tx.busy = s.tx.busy ∧ t.tx.agg = s.tx.agg ∧ TxSameBut f s.tx t.tx ∧ RxUntouched s t ∧ QueueKept s t

/-- R249: the END emission: all that remains, the whole trailer last, and the release of the context. -/
def Obligations.EmitEndRule : Prop :=
  ∀ (s : State) (f : Fid) (burst : Nat) (payload : Bytes), EmitReady s.tx f →
    (txCtx s.tx f).isFragmented = true → 3 ≤ burst → endFits s.tx f burst →
    fragCapReached s.params (txCtx s.tx f) = false →
    memRead fragBufLen (txCtx s.tx f).buf (txCtx s.tx f).cursor.toNat (remTotal (txCtx s.tx f)) = .ok payload →
    ∃ t, exec (.emit f burst) s = .next t ∧
      t.host.response = some
        { status := .okAndDone
          bytes := encodeWith s.params.ppduLayout (.endPpdu (BitVec.ofNat 11 (remTotal (txCtx s.tx f))) f) ++
            payload } ∧
      ReleasedTx f { pktsOut := 1, bytesOut := (txCtx s.tx f).sduLen.toNat } s t

/-- R252: a CONT or END that would exceed MAX_FRAGS releases the context, and its SDU is counted dropped. -/
def Obligations.EmitTooMuchFrag : Prop :=
  ∀ (s : State) (f : Fid) (burst : Nat) (cap : { n : Nat // 2 ≤ n }), EmitReady s.tx f →
    (txCtx s.tx f).isFragmented = true →
    3 ≤ burst → (endFits s.tx f burst ∨ 0 < contLen s.tx f burst) →
    s.params.maxFrags = some cap → cap.val ≤ (txCtx s.tx f).fragCount →
    ∃ t, exec (.emit f burst) s = .next t ∧ t.host.response = some { status := .errTooMuchFrag } ∧
      ReleasedTx f { pktsDropped := 1, bytesDropped := (txCtx s.tx f).sduLen.toNat } s t

/-- R240 and R255: under the transmitter's invariant every EMIT answers; its PPDU is the header of one COMP, START, CONT
or END and as many payload bytes as that header's length field says, at most 2047; it is no longer than the burst, and
empty unless the status is OK or OK_AND_DONE. -/
def Obligations.EmitBounded : Prop :=
  ∀ (s : State) (f : Fid) (burst : Nat), TxInv s.tx → ∃ t r, exec (.emit f burst) s = .next t ∧
    t.host.response = some r ∧ TxInv t.tx ∧
    (r.status ≠ .ok → r.status ≠ .okAndDone → r.bytes = []) ∧
    (r.status = .ok ∨ r.status = .okAndDone → r.bytes.length ≤ burst ∧
      ∃ (i : Instr) (payload : Bytes), r.bytes = encodeWith s.params.ppduLayout i ++ payload ∧
        payloadField i = some payload.length ∧ payload.length ≤ 2047)

/-- R256: an EMIT that returns OK advances the cursor, and with bursts of at least max(5, 2 + trl_len) none is too
small. -/
def Obligations.EmitProgress : Prop :=
  ∀ (s t : State) (f : Fid) (burst : Nat) (r : Response), TxInv s.tx → exec (.emit f burst) s = .next t →
    t.host.response = some r →
    (r.status = .ok → (txCtx s.tx f).cursor.toNat < (txCtx t.tx f).cursor.toNat ∧
      (txCtx t.tx f).cursor.toNat ≤ (txCtx t.tx f).tail.toNat ∧ (txCtx t.tx f).tail.toNat ≤ 4095) ∧
    (5 ≤ burst → 2 + trlLen (txCtx s.tx f).useCrc ≤ burst → r.status ≠ .errBurstTooSmall)

/-! ### PACK (spec/45) -/

/-- R280, the checks in their order, each with no state change. -/
def Obligations.PackChecks : Prop :=
  ∀ (s : State) (size : Nat) (sched : List Fid), s.tx.configured = true →
    implicitPayloadLabelSize s.tx.cfg ≠ 0 →
    AnswersOnly (.pack size none sched) s .errNullBuf ∧
    (∀ label : Bytes, label.length ≠ implicitPayloadLabelSize s.tx.cfg →
      AnswersOnly (.pack size (some label) sched) s .err) ∧
    (∀ label : Bytes, label.length = implicitPayloadLabelSize s.tx.cfg →
      size < implicitPayloadLabelSize s.tx.cfg → AnswersOnly (.pack size (some label) sched) s .errFrag)

/-- R280 to R284: past its checks PACK runs its two loops to their own end, answers the label, the PPDUs and zeros up
to exactly the FPDU size, and writes what its EMITs write. The loops have one run, and with no MAX_FRAGS it does not
fail (R285). -/
def Obligations.PackRunsItsLoops : Prop :=
  ∀ (s : State) (size : Nat) (label : Option Bytes) (start : Bytes) (sched : List Fid), TxInv s.tx →
    s.tx.configured = true →
    (implicitPayloadLabelSize s.tx.cfg = 0 ∧ start = [] ∨
      implicitPayloadLabelSize s.tx.cfg ≠ 0 ∧ label = some start ∧
        start.length = implicitPayloadLabelSize s.tx.cfg ∧ start.length ≤ size) →
    ∃ (t : State) (k : Packing),
      PackRun s.params size sched { tx := s.tx, out := start, failed := false } k ∧
      (∀ k', PackRun s.params size sched { tx := s.tx, out := start, failed := false } k' → k' = k) ∧
      (s.params.maxFrags = none → k.failed = false) ∧
      exec (.pack size label sched) s = .next t ∧ t.tx = k.tx ∧ RxUntouched s t ∧ QueueKept s t ∧
      start <+: k.out ∧ k.out.length ≤ size ∧
      t.host.response = some
        { status := if k.failed then .errFrag else .ok
          bytes := k.out ++ List.replicate (size - k.out.length) 0
          bytesWritten := k.out.length
          paddingSize := size - k.out.length }

/-! ### Statistics and debug reads (spec/48) -/

/-- R384 and R385: a counter read answers the value, or ERR for a record or counter that does not exist, and changes
no state. -/
def Obligations.StatRule : Prop :=
  ∀ (s : State) (sel n : Nat),
    (s.tx.configured = false → AnswersOnly (.txStat sel n) s .errNullTrmt) ∧
    (s.rx.configured = false → AnswersOnly (.rxStat sel n) s .errNullRcvr) ∧
    (s.tx.configured = true →
      (sel > 8 ∨ n > 8 → AnswersOnly (.txStat sel n) s .err) ∧
      (∀ v rec, (sel = 8 ∧ rec = s.tx.agg ∨ ∃ f : Fid, sel = f.toNat ∧ rec = (txCtx s.tx f).cnt) →
        (countersOf rec)[n]? = some v →
        ∃ t, exec (.txStat sel n) s = .next t ∧ OnlyResponse s t ∧
          t.host.response = some { status := .ok, value := v })) ∧
    (s.rx.configured = true →
      (sel > 8 ∨ n > 8 → AnswersOnly (.rxStat sel n) s .err) ∧
      (∀ v rec, (sel = 8 ∧ rec = s.rx.agg ∨ ∃ f : Fid, sel = f.toNat ∧ rec = (rxCtx s.rx f).cnt) →
        (countersOf rec)[n]? = some v →
        ∃ t, exec (.rxStat sel n) s = .next t ∧ OnlyResponse s t ∧
          t.host.response = some { status := .ok, value := v }))

/-- R386: DUMP_ALPDU returns the pending bytes from `head` to `tail`, and changes no state. -/
def Obligations.DumpRule : Prop :=
  ∀ (s : State) (f : Fid),
    (s.tx.configured = false → AnswersOnly (.dumpAlpdu f) s .errNullTrmt) ∧
    (s.tx.configured = true → busyBit s.tx.busy f = false → AnswersOnly (.dumpAlpdu f) s .errContextTimeout) ∧
    (∀ bytes, s.tx.configured = true → busyBit s.tx.busy f = true →
      memRead fragBufLen (txCtx s.tx f).buf (txCtx s.tx f).head.toNat
        ((txCtx s.tx f).tail.toNat - (txCtx s.tx f).head.toNat) = .ok bytes →
      ∃ t, exec (.dumpAlpdu f) s = .next t ∧ OnlyResponse s t ∧
        t.host.response = some { status := .ok, bytes := bytes })

/-! ### The wire units in a DECAP (spec/46, spec/47) -/

/-- R302: PAD ends the scan; no counter moves, no event is produced, and the command answers. -/
def Obligations.PadRule : Prop :=
  ∀ s : State, s.scan.phase = .header → ∃ t, exec .pad s = .next t ∧ t.tx = s.tx ∧ t.rx = s.rx ∧
    t.params = s.params ∧ t.scan = Scan.idle ∧ QueueKept s t ∧
    t.host.response = some { status := if s.scan.err then .err else .ok, events := s.scan.events }

/-- R325: a COMP of a legal label type goes to delivery with no context read or written; one of a reserved label
type is dropped. -/
def Obligations.CompRule : Prop :=
  ∀ (s : State) (lt : LabelType) (pts : Bool) (len : BitVec 11) (payload : Bytes), s.scan.phase = .header →
    PayloadIs s 2 len.toNat payload →
    (LegalLt lt → ∃ t, exec (.comp lt pts len) s = .next t ∧ OnlyRx s t ∧ RxSameButAgg s.rx t.rx ∧
      t.rx.agg = addCounters s.params.cntW s.rx.agg { pktsIn := 1, bytesIn := len.toNat } ∧
      t.rx.off = s.rx.off + 2 + len.toNat ∧
      t.scan = { s.scan with phase := .alpdu none payload lt pts len.toNat 0 }) ∧
    (¬ LegalLt lt → ∃ t, exec (.comp lt pts len) s = .next t ∧
      DroppedBy none .reservedLt
        { pktsIn := 1, bytesIn := len.toNat, pktsDropped := 1, bytesDropped := len.toNat }
        (s.rx.off + 2 + len.toNat) s t)

/-- R326, the accepted START: the fragment is stored from offset 0, the registers are latched and the context goes
IN_PROGRESS. -/
def Obligations.StartAccepted : Prop :=
  ∀ (s : State) (lt : LabelType) (pts : Bool) (len : BitVec 11) (f : Fid) (total : Index) (crc : Bool)
    (payload : Bytes), s.scan.phase = .header → PayloadIs s 4 len.toNat payload →
    busyBit s.rx.busy f = false → LegalLt lt → len.toNat ≤ total.toNat →
    ∃ (t : State) (buf : Mem), exec (.start lt pts len f total crc) s = .next t ∧ OnlyRx s t ∧
      rxCtx t.rx f =
        { rxCtx s.rx f with
          buf := buf
          totalLen := total
          lt := lt
          pts := pts
          useCrc := crc
          bytesReceived := BitVec.ofNat 12 len.toNat
          burstBytes := BitVec.ofNat 12 len.toNat
          cnt := addCounters s.params.cntW (rxCtx s.rx f).cnt { pktsIn := 1, bytesIn := len.toNat } } ∧
      Stored s.params.rasmBufLen (rxCtx s.rx f).buf buf 0 payload ∧ busyBit t.rx.busy f = true ∧
      t.rx.agg = addCounters s.params.cntW s.rx.agg { pktsIn := 1, bytesIn := len.toNat } ∧ RxSameBut f s.rx t.rx ∧
      t.rx.off = s.rx.off + 4 + len.toNat ∧ t.scan = { s.scan with events := s.scan.events ++ [.frag f] }

/-- R326 and R329, the dropped START: the context's state is tested first, then the label type, then the lengths. A
START that meets a busy context loses one packet and discards the bytes held. -/
def Obligations.StartDropped : Prop :=
  ∀ (s : State) (lt : LabelType) (pts : Bool) (len : BitVec 11) (f : Fid) (total : Index) (crc : Bool)
    (payload : Bytes), s.scan.phase = .header → PayloadIs s 4 len.toNat payload →
    (busyBit s.rx.busy f = true → ∃ t, exec (.start lt pts len f total crc) s = .next t ∧
      DroppedBy (some f) .contextNotFree
        { pktsIn := 1, bytesIn := len.toNat, pktsLost := 1, pktsDropped := 1
          bytesDropped := (rxCtx s.rx f).bytesReceived.toNat + len.toNat }
        (s.rx.off + 4 + len.toNat) s t) ∧
    (busyBit s.rx.busy f = false → ¬ LegalLt lt → ∃ t, exec (.start lt pts len f total crc) s = .next t ∧
      DroppedBy (some f) .reservedLt
        { pktsIn := 1, bytesIn := len.toNat, pktsDropped := 1, bytesDropped := len.toNat }
        (s.rx.off + 4 + len.toNat) s t) ∧
    (busyBit s.rx.busy f = false → LegalLt lt → total.toNat < len.toNat →
      ∃ t, exec (.start lt pts len f total crc) s = .next t ∧
        DroppedBy (some f) .totalExceeded
          { pktsIn := 1, bytesIn := len.toNat, pktsDropped := 1, bytesDropped := len.toNat }
          (s.rx.off + 4 + len.toNat) s t)

/-- R330: a CONT within the declared length is appended to a context IN_PROGRESS; one beyond it is dropped, and the
remainder counted as lost where one was missing. -/
def Obligations.ContRule : Prop :=
  ∀ (s : State) (len : BitVec 11) (f : Fid) (payload : Bytes) (c : RxCtx), s.scan.phase = .header →
    PayloadIs s 2 len.toNat payload → busyBit s.rx.busy f = true → c = rxCtx s.rx f →
    (c.bytesReceived.toNat + len.toNat ≤ c.totalLen.toNat →
      ∃ (t : State) (buf : Mem), exec (.cont len f) s = .next t ∧ OnlyRx s t ∧
        rxCtx t.rx f =
          { c with
            buf := buf
            bytesReceived := BitVec.ofNat 12 (c.bytesReceived.toNat + len.toNat)
            burstBytes := c.burstBytes + BitVec.ofNat 12 len.toNat
            cnt := addCounters s.params.cntW c.cnt { bytesIn := len.toNat } } ∧
        Stored s.params.rasmBufLen c.buf buf c.bytesReceived.toNat payload ∧ t.rx.busy = s.rx.busy ∧
        t.rx.agg = addCounters s.params.cntW s.rx.agg { bytesIn := len.toNat } ∧ RxSameBut f s.rx t.rx ∧
        t.rx.off = s.rx.off + 2 + len.toNat ∧ t.scan = { s.scan with events := s.scan.events ++ [.frag f] }) ∧
    (c.totalLen.toNat < c.bytesReceived.toNat + len.toNat →
      ∃ t, exec (.cont len f) s = .next t ∧
        DroppedBy (some f) .totalExceeded
          { bytesIn := len.toNat, pktsDropped := 1
            pktsLost := if c.bytesReceived.toNat < c.totalLen.toNat then 1 else 0
            bytesDropped := c.bytesReceived.toNat + len.toNat }
          (s.rx.off + 2 + len.toNat) s t)

/-- R328: a CONT or END for a FREE context is dropped; its registers are not written and nothing is lost. -/
def Obligations.InvalidTransition : Prop :=
  ∀ (s : State) (len : BitVec 11) (f : Fid) (payload : Bytes) (i : Instr), s.scan.phase = .header →
    PayloadIs s 2 len.toNat payload → busyBit s.rx.busy f = false → (i = .cont len f ∨ i = .endPpdu len f) →
    ∃ t, exec i s = .next t ∧
      DroppedBy (some f) .invalidTransition
        { bytesIn := len.toNat, pktsDropped := 1, bytesDropped := len.toNat }
        (s.rx.off + 2 + len.toNat) s t

/-- R331 and R333, the END whose lengths add up: the ALPDU bytes are appended, the trailer is cut off and comes next
with the whole ALPDU. -/
def Obligations.EndAccepted : Prop :=
  ∀ (s : State) (len : BitVec 11) (f : Fid) (payload held body : Bytes) (c : RxCtx), s.scan.phase = .header →
    PayloadIs s 2 len.toNat payload → busyBit s.rx.busy f = true → c = rxCtx s.rx f →
    trlLen c.useCrc ≤ len.toNat → c.bytesReceived.toNat + (len.toNat - trlLen c.useCrc) = c.totalLen.toNat →
    memRead s.params.rasmBufLen c.buf 0 c.bytesReceived.toNat = .ok held →
    body = payload.take (len.toNat - trlLen c.useCrc) →
    ∃ (t : State) (buf : Mem), exec (.endPpdu len f) s = .next t ∧ OnlyRx s t ∧
      rxCtx t.rx f =
        { c with
          buf := buf
          bytesReceived := c.totalLen
          burstBytes := c.burstBytes + BitVec.ofNat 12 body.length
          cnt := addCounters s.params.cntW c.cnt { bytesIn := len.toNat } } ∧
      Stored s.params.rasmBufLen c.buf buf c.bytesReceived.toNat body ∧ t.rx.busy = s.rx.busy ∧
      t.rx.agg = addCounters s.params.cntW s.rx.agg { bytesIn := len.toNat } ∧ RxSameBut f s.rx t.rx ∧
      t.rx.off = s.rx.off + 2 + len.toNat ∧
      t.scan =
        { s.scan with
          phase := .trailer f (held ++ body) (payload.drop (len.toNat - trlLen c.useCrc)) len.toNat
            c.bytesReceived.toNat }

/-- R332 and R334, the dropped END: a payload shorter than the trailer, then lengths that do not add up; one packet
is lost where part of the ALPDU was missing. -/
def Obligations.EndDropped : Prop :=
  ∀ (s : State) (len : BitVec 11) (f : Fid) (payload : Bytes) (c : RxCtx) (d : Counters), s.scan.phase = .header →
    PayloadIs s 2 len.toNat payload → busyBit s.rx.busy f = true → c = rxCtx s.rx f →
    d = { bytesIn := len.toNat, pktsDropped := 1
          pktsLost := if c.bytesReceived.toNat < c.totalLen.toNat then 1 else 0
          bytesDropped := c.bytesReceived.toNat + len.toNat } →
    (len.toNat < trlLen c.useCrc → ∃ t, exec (.endPpdu len f) s = .next t ∧
      DroppedBy (some f) .trailerShort d (s.rx.off + 2 + len.toNat) s t) ∧
    (trlLen c.useCrc ≤ len.toNat → c.bytesReceived.toNat + (len.toNat - trlLen c.useCrc) ≠ c.totalLen.toNat →
      ∃ t, exec (.endPpdu len f) s = .next t ∧
        DroppedBy (some f) .lengthMismatch d (s.rx.off + 2 + len.toNat) s t)

/-- R345: the first sequence trailer on a context is recorded; later ones are compared modulo 8, a gap counts as
lost, and a difference of SEQ_AMBIG_MIN or more drops the SDU; the expected number is resynchronised always. Bits 7:3
of the trailer byte are ignored. -/
def Obligations.TrlSeqRule : Prop :=
  (∀ (b : Byte) (rest : Bytes),
    decode (.trailer false) (b :: rest) = .ok (.trlSeq (BitVec.ofNat 3 (b.toNat % 8)), rest)) ∧
  ∀ (s : State) (seq : SeqNb) (f : Fid) (alpdu trl : Bytes) (len prior d : Nat) (c : RxCtx),
    s.scan.phase = .trailer f alpdu trl len prior → c = rxCtx s.rx f →
    d = (8 + seq.toNat - c.nextExpSeq.toNat) % 8 →
    (c.seqInit = false → ∃ t, exec (.trlSeq seq) s = .next t ∧
      TrailerPassed f alpdu len prior { c with seqInit := true, nextExpSeq := seq + 1 } s.rx.agg s t) ∧
    (c.seqInit = true → d < s.params.seqAmbigMin → ∃ t, exec (.trlSeq seq) s = .next t ∧
      TrailerPassed f alpdu len prior
        { c with nextExpSeq := seq + 1, cnt := addCounters s.params.cntW c.cnt { pktsLost := d } }
        (addCounters s.params.cntW s.rx.agg { pktsLost := d }) s t) ∧
    (c.seqInit = true → s.params.seqAmbigMin ≤ d → ∃ t, exec (.trlSeq seq) s = .next t ∧
      DroppedBy (some f) .seqAmbiguous
        { pktsLost := 1, pktsDropped := 1, bytesDropped := prior + len } s.rx.off
        { s with rx := setRxCtx s.rx f { c with nextExpSeq := seq + 1 } } t)

/-- R344: a CRC trailer, read least significant byte first, equal to the CRC of the reassembled ALPDU lets it be
delivered, with no sequence state read or written; any other drops it. -/
def Obligations.TrlCrcRule : Prop :=
  (∀ (b0 b1 b2 b3 : Byte) (rest : Bytes), decode (.trailer true) (b0 :: b1 :: b2 :: b3 :: rest) = .ok (.trlCrc
    (BitVec.ofNat 32 (b0.toNat + 2 ^ 8 * b1.toNat + 2 ^ 16 * b2.toNat + 2 ^ 24 * b3.toNat)), rest)) ∧
  ∀ (s : State) (crc : Crc) (f : Fid) (alpdu trl : Bytes) (len prior : Nat),
    s.scan.phase = .trailer f alpdu trl len prior →
    (crc = crc32 s.params.crc32 alpdu → ∃ t, exec (.trlCrc crc) s = .next t ∧
      TrailerPassed f alpdu len prior (rxCtx s.rx f) s.rx.agg s t) ∧
    (crc ≠ crc32 s.params.crc32 alpdu → ∃ t, exec (.trlCrc crc) s = .next t ∧
      DroppedBy (some f) .crcMismatch { pktsDropped := 1, bytesDropped := prior + len } s.rx.off s t)

/-- R350 and R351, for the four ALPDU header forms: a protocol type and an SDU of at most 4088 bytes are delivered, a
longer SDU is dropped, and so is a malformed field. -/
def Obligations.DeliveryRule : Prop :=
  ∀ (s : State) (i : Instr) (f : Option Fid) (alpdu : Bytes) (lt : LabelType) (pts : Bool) (len prior : Nat)
    (r : Expanded), s.scan.phase = .alpdu f alpdu lt pts len prior → (f = none → prior = 0) →
    formExpands s lt alpdu i = some r →
    (∀ ptype sdu, r = .ok (ptype, sdu) → sdu.length ≤ 4088 →
      ∃ t, exec i s = .next t ∧ DeliveredAs f ptype sdu s t) ∧
    (∀ ptype sdu, r = .ok (ptype, sdu) → 4088 < sdu.length →
      ∃ t, exec i s = .next t ∧ DroppedBy f .sduTooBigRx
        { pktsDropped := 1, bytesDropped := prior + len } s.rx.off s t) ∧
    (∀ reason, reason = .malformedPtype ∨ reason = .malformedVlan → r = .error reason →
      ∃ t, exec i s = .next t ∧ DroppedBy f reason
        { pktsDropped := 1, bytesDropped := prior + len } s.rx.off s t)

/-- R305 and R310: a PPDU whose payload runs past the end of the FPDU ends the scan with FPDU_TRUNCATED, counted on
the aggregate alone; no context changes. -/
def Obligations.TruncatedPayload : Prop :=
  ∀ (s : State) (i : Instr) (hl : Nat) (len : BitVec 11), s.scan.phase = .header →
    (∃ lt pts, i = .comp lt pts len ∧ hl = 2) ∨
      (∃ lt pts f total crc, i = .start lt pts len f total crc ∧ hl = 4) ∨
      (∃ f, i = .cont len f ∧ hl = 2) ∨ (∃ f, i = .endPpdu len f ∧ hl = 2) →
    s.scan.fpdu.length < s.rx.off + hl + len.toNat →
    ∃ t, exec i s = .next t ∧ RxSameButAgg s.rx t.rx ∧ t.rx.off = s.rx.off ∧
      t.rx.agg = addCounters s.params.cntW s.rx.agg
        { pktsDropped := 1, bytesDropped := s.scan.fpdu.length - s.rx.off } ∧
      t.scan = Scan.idle ∧ t.tx = s.tx ∧ t.params = s.params ∧ QueueKept s t ∧
      t.host.response = some { status := .err, events := s.scan.events ++ [.drop none .fpduTruncated] }

/-- A wire unit executed where no unit of its kind is being decoded is refused by name. The spec gives it no effect
there; that the model refuses is its choice, log 12. -/
def Obligations.UnitOutOfPlaceRefused : Prop :=
  ∀ (s : State) (i : Instr),
    (siteOf i = .ppdu ∧ s.scan.phase ≠ .header ∨
      (∃ b, siteOf i = .trailer b) ∧ (∀ f a t l p, s.scan.phase ≠ .trailer f a t l p) ∨
      (∃ a b, siteOf i = .alpduHdr a b) ∧ (∀ f a lt pts l p, s.scan.phase ≠ .alpdu f a lt pts l p)) →
    exec i s = .refused .unitOutOfPlace

/-! ### DECAP (spec/47) -/

/-- R301: an FPDU shorter than its payload label is truncated as a whole. -/
def Obligations.DecapShortFpdu : Prop :=
  ∀ (s : State) (fpdu : Bytes), s.rx.configured = true → fpdu.length < implicitPayloadLabelSize s.rx.cfg →
    ∃ t, exec (.decap (some fpdu)) s = .next t ∧ TxUntouched s t ∧ QueueKept s t ∧ t.scan = Scan.idle ∧
      t.host.response = some { status := .err, events := [.drop none .fpduTruncated] } ∧
      t.rx.off = 0 ∧ t.rx.busy = s.rx.busy ∧
      (∀ f, rxCtx t.rx f = { rxCtx s.rx f with burstBytes := 0 }) ∧
      t.rx.agg = addCounters s.params.cntW s.rx.agg { pktsDropped := 1, bytesDropped := fpdu.length }

/-- R321 and R352: a DECAP answers, ERR exactly when a DROP event was produced and OK otherwise, and with an absent
FPDU it changes nothing. -/
def Obligations.DecapStatus : Prop :=
  ∀ s : State, (s.rx.configured = false → ∀ fpdu, AnswersOnly (.decap fpdu) s .errNullRcvr) ∧
    (s.rx.configured = true → AnswersOnly (.decap none) s .errNullBuf) ∧
    ∀ fpdu : Bytes, s.rx.configured = true → RxInv s.params.rasmBufLen s.rx →
      ∃ t events, exec (.decap (some fpdu)) s = .next t ∧
      t.host.response = some
        { status := if hasDrop events then .err else .ok, events := events } ∧
      TxUntouched s t ∧ QueueKept s t ∧ t.scan = Scan.idle ∧ t.rx.configured = true ∧ t.rx.cfg = s.rx.cfg

/-- R307 and R86: the DECAP of an FPDU that holds its label is, as one step, the run of its wire units, one step each,
from the first PPDU-header position. -/
def Obligations.DecapRunsItsUnits : Prop :=
  ∀ (s : State) (fpdu : Bytes), RxInv s.params.rasmBufLen s.rx → s.rx.configured = true →
    implicitPayloadLabelSize s.rx.cfg ≤ fpdu.length →
    ∃ t u, OnlyRx s u ∧ u.rx.configured = true ∧ u.rx.cfg = s.rx.cfg ∧ u.rx.busy = s.rx.busy ∧
      u.rx.agg = s.rx.agg ∧ (∀ f, rxCtx u.rx f = { rxCtx s.rx f with burstBytes := 0 }) ∧
      u.rx.off = implicitPayloadLabelSize s.rx.cfg ∧
      u.scan = { phase := .header, fpdu := fpdu, events := [], err := false } ∧
      exec (.decap (some fpdu)) s = .next t ∧ ScanRun u t ∧ ∀ t', ScanRun u t' → t' = t

/-- R320: the eight machines are independent: a START, CONT or END of fragment-id `f` changes only context `f`, its
busy bit and the aggregate, the trailer of its END likewise, and a COMP changes only the aggregate. -/
def Obligations.MachinesIndependent : Prop :=
  ∀ (s t : State) (f : Fid) (i : Instr), exec i s = .next t →
    ((∃ lt pts len total crc, i = .start lt pts len f total crc) ∨ (∃ len, i = .cont len f) ∨
      (∃ len, i = .endPpdu len f) ∨ (∃ a trl l p, s.scan.phase = .trailer f a trl l p ∧ siteOf i = .trailer false) ∨
      (∃ a trl l p, s.scan.phase = .trailer f a trl l p ∧ siteOf i = .trailer true) →
      RxSameBut f s.rx t.rx) ∧
    ((∃ lt pts len, i = .comp lt pts len) → RxSameButAgg s.rx t.rx)

/-! ### The whole machine -/

/-- The state after reset, as R63 and R440 have it. What they leave open is the model's: the parameters (log 1), the
empty content of the buffers, which R63 leaves unspecified (log 8), and the host's side, where nothing has been issued
(log 11), so that a step changes nothing (log 17). `cfg` (log 6) and `off` (log 7) are not named here. -/
def Obligations.ResetState : Prop :=
  State.reset.tx.configured = false ∧ State.reset.rx.configured = false ∧ State.reset.tx.busy = 0 ∧
  State.reset.rx.busy = 0 ∧ State.reset.tx.agg = {} ∧ State.reset.rx.agg = {} ∧
  (∀ f, txCtx State.reset.tx f =
    { buf := [], head := 3, sduStart := 3, sduEnd := 3, tail := 3, cursor := 3, initialised := false
      sduCopied := false, isFragmented := false, useCrc := false, nextSeqNb := 0, lt := 0, pts := false
      sduLen := 0, fragCount := 0, cnt := {} }) ∧
  (∀ f, rxCtx State.reset.rx f =
    { buf := [], totalLen := 0, bytesReceived := 0, burstBytes := 0, lt := 0, pts := false, useCrc := false
      seqInit := false, nextExpSeq := 0, cnt := {} }) ∧
  step State.reset = .next State.reset

/-- A step between commands executes the instruction of the oldest request, whose command byte decodes to it, in the
state in which the request has left the queue; inside a DECAP it executes the unit its bytes decode to, and adds
nothing (R86, R116, R307). The model's own: that requests are accepted oldest first (logs 11 and 18, R86 leaves their
order open), that a request must be allowed to its producer (log 15), and that each wire unit of a DECAP is a step
(log 10). -/
def Obligations.StepRunsDecoded : Prop :=
  (∀ (s : State) (q : Request) (rest : List Request) (i : Instr), s.scan.phase = .idle →
    s.host.requests = q :: rest → decode (.command q.operands) [q.code.setWidth 8] = .ok (i, []) →
    allowedTo s q.producer i = true →
    step s = exec i { s with host := { s.host with requests := rest, producer := q.producer } }) ∧
  (∀ (s : State) (i : Instr) (rest : Bytes), s.scan.phase = .header →
    decodeWith s.params.ppduLayout .ppdu (s.scan.fpdu.drop s.rx.off) = .ok (i, rest) → step s = exec i s) ∧
  (∀ (s : State) (i : Instr) (rest : Bytes) (f : Fid) (alpdu trl : Bytes) (len prior : Nat),
    s.scan.phase = .trailer f alpdu trl len prior →
    decode (.trailer (rxCtx s.rx f).useCrc) trl = .ok (i, rest) → step s = exec i s) ∧
  (∀ (s : State) (i : Instr) (rest : Bytes) (f : Option Fid) (alpdu : Bytes) (lt : LabelType) (pts : Bool)
    (len prior : Nat), s.scan.phase = .alpdu f alpdu lt pts len prior →
    decode (.alpduHdr pts (useCompressedPtype s.rx.cfg)) alpdu = .ok (i, rest) → step s = exec i s)

/-- R302, R304 and R350: where no unit can be decoded, the scan ends at the end of the FPDU, ends with FPDU_TRUNCATED
in a header cut short, and drops an ALPDU that is too short for its protocol-type field. -/
def Obligations.StepWithoutUnit : Prop :=
  (∀ s : State, s.scan.phase = .header → s.rx.off = s.scan.fpdu.length →
    ∃ t, step s = .next t ∧ t.tx = s.tx ∧ t.rx = s.rx ∧ t.scan = Scan.idle ∧ QueueKept s t ∧
      t.host.response = some { status := if s.scan.err then .err else .ok, events := s.scan.events }) ∧
  (∀ (s : State) (b : Byte) (rest : Bytes), s.scan.phase = .header → s.scan.fpdu.drop s.rx.off = b :: rest →
    b ≠ 0 → rest.length < (if b.toNat / 64 = 2 then 3 else 1) →
    ∃ t, step s = .next t ∧ RxSameButAgg s.rx t.rx ∧
      t.rx.agg = addCounters s.params.cntW s.rx.agg { pktsDropped := 1, bytesDropped := rest.length + 1 } ∧
      t.scan = Scan.idle ∧ t.tx = s.tx ∧ QueueKept s t ∧
      t.host.response = some { status := .err, events := s.scan.events ++ [.drop none .fpduTruncated] }) ∧
  (∀ (s : State) (f : Option Fid) (alpdu : Bytes) (lt : LabelType) (len prior : Nat),
    s.scan.phase = .alpdu f alpdu lt false len prior → (f = none → prior = 0) →
    (if useCompressedPtype s.rx.cfg = true then alpdu = [] ∨ alpdu.head? = some 0xff ∧ alpdu.length < 3
      else alpdu.length < 2) →
    ∃ t, step s = .next t ∧ DroppedBy f .malformedPtype
      { pktsDropped := 1, bytesDropped := prior + len } s.rx.off s t)

/-- The single-writer rule (R87): a command that names a context another producer has taken is refused by name when
it is accepted; a command that names only contexts that are free or that its own producer has taken is executed. How
producers are known is the model's, log 15: an ENCAP that takes a context records who issued it. -/
def Obligations.ForeignProducerRefused : Prop :=
  (∀ (s t : State) (sdu : Option Bytes) (ptype : Ptype) (f : Fid), exec (.encap sdu ptype f) s = .next t →
    Answered t .ok → t.host.owner = s.host.owner.set f.toNat s.host.producer f.isLt) ∧
  ∀ (s : State) (q : Request) (rest : List Request) (names : Fid → Prop), s.scan.phase = .idle →
    s.host.requests = q :: rest →
    (∀ f, names f ↔ (∃ b, requestInstr q = .emit f b) ∨ requestInstr q = .dumpAlpdu f ∨
      ∃ n l fs, requestInstr q = .pack n l fs ∧ f ∈ fs) →
    ((∀ f, names f → busyBit s.tx.busy f = false ∨ s.host.owner[f.toNat]'f.isLt = q.producer) →
      step s = exec (requestInstr q) (accept q rest s)) ∧
    (∀ f, names f → busyBit s.tx.busy f = true → s.host.owner[f.toNat]'f.isLt ≠ q.producer →
      step s = .refused .foreignProducer)

/-- The invariant and the counter relations hold at reset under any parameters. -/
def Obligations.ResetMeetsInvariant : Prop :=
  ∀ p : Config.Params, Inv { State.reset with params := p } ∧ CountersAgree { State.reset with params := p }

/-- Every step keeps the invariant: R47 and R56 with the canonical form of every buffer, R31, R57 and R352. -/
def Obligations.StepKeepsInvariant : Prop := ∀ s t : State, Inv s → step s = .next t → Inv t

/-- R80: under the invariant no step reads a byte that was not written or reaches past a buffer, and a step refuses
only a second producer's command; so every run from reset is free of faults. -/
def Obligations.NoBufferFault : Prop :=
  (∀ (s : State) (e : Fault), Inv s → step s ≠ .fault e) ∧
  (∀ s : State, Reachable s → Inv s ∧ SafeStep s) ∧
  (∀ (s : State) (e : Refusal), Inv s → step s = .refused e → e = .foreignProducer)

/-- R443: no step changes the parameters. -/
def Obligations.ParamsNeverChange : Prop := ∀ s t : State, step s = .next t → t.params = s.params

/-- Nothing is shared between the units (R20, R62): a command of one leaves the other as it is, and so does a wire
unit. -/
def Obligations.UnitsShareNothing : Prop :=
  ∀ (s t : State) (i : Instr), exec i s = .next t →
    (((∃ w, i = .txNew w) ∨ i = .txDestroy ∨ (∃ sdu ptype f, i = .encap sdu ptype f) ∨ (∃ f b, i = .emit f b) ∨
      (∃ n l fs, i = .pack n l fs) ∨ (∃ f, i = .dumpAlpdu f) ∨ (∃ a n, i = .txStat a n)) → t.rx = s.rx) ∧
    (((∃ w, i = .rxNew w) ∨ i = .rxDestroy ∨ (∃ fpdu, i = .decap fpdu) ∨ (∃ a n, i = .rxStat a n) ∨
      siteOf i = .ppdu ∨ (∃ b, siteOf i = .trailer b) ∨ (∃ a b, siteOf i = .alpduHdr a b)) → t.tx = s.tx)

/-- R403: every command answers, with one of its statuses; R406: never ERR_N_INIT_BUF. -/
def Obligations.StatusRelation : Prop :=
  ∀ (s : State) (i : Instr), Inv s → (∃ o, siteOf i = .command o) →
    ∃ t r, exec i s = .next t ∧ t.host.response = some r ∧ r.status ∈ statusesOf i ∧
      r.status ≠ .errNInitBuf

/-- Every step from a state that meets the invariant and the counter relations keeps them, also where a counter wraps:
each counter has CNT_W bits (R35); in every transmitter record, a context's and the aggregate's, packets and bytes in
are those out, those dropped and those of the busy contexts (R392), and R382's counters stay 0; in every receiver record
the ok counters equal the out counters (R392). R392's inequalities of the receiver hold only while no counter wraps and
are not stated. -/
def Obligations.StepKeepsCounters : Prop :=
  ∀ s t : State, Inv s → CountersAgree s → step s = .next t → CountersAgree t

/-- The round trip (R178, R315, R355, with R450 and R455 as its limits): an SDU that ENCAP took and EMITs carried to
the last PPDU comes out of one DECAP of those PPDUs byte for byte with its protocol type, after a FRAG event for
every PPDU but the last. The units have one configuration, the context is free on both sides and agrees on the
sequence number, and no PPDU begins with a zero byte. -/
def Obligations.SduRoundTrip : Prop :=
  ∀ (s s1 s2 : State) (sdu label : Bytes) (ptype : Ptype) (f : Fid) (ppdus : List Bytes) (zeros : Nat), Inv s →
    s.scan.phase = .idle → s.rx.configured = true → s.rx.cfg = s.tx.cfg →
    validImplicit s.params.codeL2s = false → s.params.codeL2s ≠ 0xff → 0 < s.params.seqAmbigMin →
    busyBit s.rx.busy f = false →
    ((rxCtx s.rx f).seqInit = true → (rxCtx s.rx f).nextExpSeq = (txCtx s.tx f).nextSeqNb) →
    (chooseHeader s.params s.tx.cfg ptype = .ptOmit → implicitProtocolType s.tx.cfg = 0x30 → ptype ≠ 0x0082 →
      ∃ b rest, sdu = b :: rest ∧
        ((ptype = 0x0800 ∧ b.toNat / 16 = 4) ∨ (ptype = 0x86dd ∧ b.toNat / 16 = 6))) →
    exec (.encap (some sdu) ptype f) s = .next s1 → Answered s1 .ok → EmitRun f s1 ppdus s2 →
    (∀ ppdu ∈ ppdus, ppdu.head? ≠ some 0) → label.length = implicitPayloadLabelSize s.tx.cfg →
    ∃ t, exec (.decap (some (label ++ ppdus.flatten ++ List.replicate zeros 0))) s2 = .next t ∧
      t.host.response = some
        { status := .ok
          events := List.replicate (ppdus.length - 1) (.frag f) ++
            [.sdu (if ppdus.length = 1 then none else some f) ptype sdu] }

end
end

