-- ==== Sys2Proof/Laws/Codec.lean ====
section
/-! SUPPORT. The codec: a field of a PPDU header is read back where it was put and is not seen elsewhere (spec/30
R107), only PPDU headers depend on the layout, and the encoding of each unit, said once. -/

namespace Sys2Proof

/-! ### Fields of a header -/

theorem getLsbD_fieldAt (n pos : Nat) {w : Nat} (v : BitVec w) (i : Nat) :
    (fieldAt n pos v).getLsbD i = (decide (i < n) && decide (pos ≤ i) && v.getLsbD (i - pos)) := by
  simp only [fieldAt, BitVec.getLsbD_shiftLeft, BitVec.getLsbD_setWidth]
  by_cases h1 : i < n <;> by_cases h2 : pos ≤ i <;> simp [h1, h2, Nat.not_lt.mpr, Nat.lt_of_not_le]
  omega

/-- A field inside the header is read back at its place. -/
theorem extract_fieldAt {n pos w : Nat} (v : BitVec w) (h : pos + w ≤ n) :
    (fieldAt n pos v).extractLsb' pos w = v := by
  apply BitVec.eq_of_getLsbD_eq
  intro i hi
  simp only [BitVec.getLsbD_extractLsb', getLsbD_fieldAt, hi, show pos + i < n by omega, decide_true, Bool.true_and,
    Nat.le_add_right, Nat.add_sub_cancel_left]

/-- A field apart from the place read is not seen. -/
theorem extract_fieldAt_apart {n pos pos' w w' : Nat} (v : BitVec w) (h : pos' + w' ≤ pos ∨ pos + w ≤ pos') :
    (fieldAt n pos v).extractLsb' pos' w' = 0 := by
  apply BitVec.eq_of_getLsbD_eq
  intro i hi
  simp only [BitVec.getLsbD_extractLsb', getLsbD_fieldAt, hi, decide_true, Bool.true_and]
  by_cases hp : pos ≤ pos' + i
  · rw [BitVec.getLsbD_of_ge v (pos' + i - pos) (by omega)]; simp
  · simp [hp]

/-- What is read of two fields laid over each other. -/
theorem extract_or {n : Nat} (x y : BitVec n) (pos w : Nat) :
    (x ||| y).extractLsb' pos w = x.extractLsb' pos w ||| y.extractLsb' pos w := by
  apply BitVec.eq_of_getLsbD_eq
  intro i hi
  simp [hi]

/-- One bit of a header is the field of width 1 there. -/
theorem getLsbD_eq_extract {n : Nat} (x : BitVec n) (pos : Nat) : x.getLsbD pos = (x.extractLsb' pos 1).getLsbD 0 := by
  simp

/-! ### The encodings -/

@[simp] theorem encode_ptOmit : encode .ptOmit = [] := rfl
@[simp] theorem encode_ptComp (code : Byte) : encode (.ptComp code) = [code] := rfl
@[simp] theorem encode_ptFallback (ptype : Ptype) : encode (.ptFallback ptype) = 0xff#8 :: le16 ptype := rfl
@[simp] theorem encode_ptUncomp (ptype : Ptype) : encode (.ptUncomp ptype) = le16 ptype := rfl
@[simp] theorem encode_trlSeq (seq : SeqNb) : encode (.trlSeq seq) = [seq.setWidth 8] := rfl
@[simp] theorem encode_trlCrc (crc : Crc) : encode (.trlCrc crc) = le32 crc := rfl

/-- Only the PPDU headers depend on the layout (spec/00 R8). -/
theorem encodeWith_eq {l : Config.PpduLayout} {i : Instr} (h : siteOf i ≠ .ppdu) : encodeWith l i = encode i := by
  cases i with
  | pad | comp | start | cont | endPpdu => exact absurd rfl h
  | ptOmit | ptComp | ptFallback | ptUncomp | trlSeq | trlCrc | txNew | txDestroy | encap | emit | pack | dumpAlpdu
  | txStat | rxNew | rxDestroy | decap | rxStat | hdrsz | reserved12 | reserved13 | reserved14 | reserved15 => rfl

/-- The header lengths of spec/30 R101, whatever the layout. -/
theorem encodeWith_length (l : Config.PpduLayout) :
    (∀ lt pts n, (encodeWith l (.comp lt pts n)).length = 2) ∧
    (∀ lt pts n f total crc, (encodeWith l (.start lt pts n f total crc)).length = 4) ∧
    (∀ n f, (encodeWith l (.cont n f)).length = 2) ∧ (∀ n f, (encodeWith l (.endPpdu n f)).length = 2) :=
  ⟨fun _ _ _ => rfl, fun _ _ _ _ _ _ => rfl, fun _ _ => rfl, fun _ _ => rfl⟩

/-! ### The layout of spec/30 -/

/-- The first byte of a CONT header under the layout of spec/30 is its length divided by 32 (R105). -/
theorem contWord_standard_head (length : BitVec 11) (fid : Fid) :
    ((contWord .standard length fid).extractLsb' 8 8).toNat = length.toNat / 32 := by
  have h : (contWord .standard length fid).extractLsb' 8 8 = (length.extractLsb' 5 6).setWidth 8 := by
    apply BitVec.eq_of_getLsbD_eq
    intro i hi
    simp only [contWord, Config.PpduLayout.standard, extract_or, BitVec.getLsbD_or, BitVec.getLsbD_extractLsb',
      getLsbD_fieldAt, hi, decide_true, Bool.true_and, BitVec.getLsbD_setWidth]
    rw [BitVec.getLsbD_of_ge fid (8 + i - 0) (by omega)]
    by_cases h6 : i < 6
    · simp [h6, show 8 + i < 16 by omega, show 3 ≤ 8 + i by omega, show 8 + i - 3 = 5 + i by omega]
    · rw [BitVec.getLsbD_of_ge length (8 + i - 3) (by omega)]
      simp [h6]
  have := length.isLt
  rw [h, BitVec.toNat_setWidth, BitVec.extractLsb'_toNat, Nat.shiftRight_eq_div_pow]
  omega

/-- The two notions of a well-formed instruction agree under the layout of spec/30. -/
theorem wellFormedWith_standard (i : Instr) : i.wellFormedWith .standard = i.wellFormed := by
  cases i with
  | cont length fid =>
    have h := contWord_standard_head length fid
    rw [Bool.eq_iff_iff]
    simp only [Instr.wellFormedWith, Instr.wellFormed, contIsNotPad, bne_iff_ne, ne_eq, decide_eq_true_eq]
    rw [← BitVec.toNat_inj, h, show (0 : BitVec 8).toNat = 0 from rfl]
    omega
  | pad | comp | start | endPpdu | ptOmit | ptComp | ptFallback | ptUncomp | trlSeq | trlCrc | txNew | txDestroy
  | encap | emit | pack | dumpAlpdu | txStat | rxNew | rxDestroy | decap | rxStat | hdrsz | reserved12 | reserved13
  | reserved14 | reserved15 => rfl

end Sys2Proof
end

