-- ==== Sys2Proof/Laws/State.lean ====
section
/-! SUPPORT. One lemma per field per update of the state, true by rfl, and the read-back laws of the contexts, so
that no proof unfolds a record update. -/

namespace Sys2Proof.Machine

/-! ### Answers -/

@[simp] theorem respond_tx (r : Response) (s : State) : (respond r s).tx = s.tx := rfl
@[simp] theorem respond_rx (r : Response) (s : State) : (respond r s).rx = s.rx := rfl
@[simp] theorem respond_scan (r : Response) (s : State) : (respond r s).scan = s.scan := rfl
@[simp] theorem respond_params (r : Response) (s : State) : (respond r s).params = s.params := rfl
@[simp] theorem respond_response (r : Response) (s : State) : (respond r s).host.response = some r := rfl
@[simp] theorem respond_requests (r : Response) (s : State) : (respond r s).host.requests = s.host.requests := rfl
@[simp] theorem respond_owner (r : Response) (s : State) : (respond r s).host.owner = s.host.owner := rfl
@[simp] theorem respond_producer (r : Response) (s : State) : (respond r s).host.producer = s.host.producer := rfl

theorem answer_next (r : Response) (s : State) : answer r s = .next (respond r s) := rfl

theorem answerStatus_next (x : Status) (s : State) : answerStatus x s = .next (respond { status := x } s) := rfl

/-- An answer changes nothing but the response. -/
theorem respond_onlyResponse (r : Response) (s : State) : OnlyResponse s (respond r s) :=
  ⟨rfl, rfl, rfl, rfl, rfl, rfl, rfl⟩

/-! ### The scan -/

@[simp] theorem setPhase_tx (p : ScanPhase) (s : State) : (setPhase p s).tx = s.tx := rfl
@[simp] theorem setPhase_rx (p : ScanPhase) (s : State) : (setPhase p s).rx = s.rx := rfl
@[simp] theorem setPhase_phase (p : ScanPhase) (s : State) : (setPhase p s).scan.phase = p := rfl
@[simp] theorem setPhase_fpdu (p : ScanPhase) (s : State) : (setPhase p s).scan.fpdu = s.scan.fpdu := rfl
@[simp] theorem setPhase_events (p : ScanPhase) (s : State) : (setPhase p s).scan.events = s.scan.events := rfl
@[simp] theorem setPhase_err (p : ScanPhase) (s : State) : (setPhase p s).scan.err = s.scan.err := rfl
@[simp] theorem setPhase_host (p : ScanPhase) (s : State) : (setPhase p s).host = s.host := rfl
@[simp] theorem setPhase_params (p : ScanPhase) (s : State) : (setPhase p s).params = s.params := rfl

@[simp] theorem setOff_tx (v : Nat) (s : State) : (setOff v s).tx = s.tx := rfl
@[simp] theorem setOff_off (v : Nat) (s : State) : (setOff v s).rx.off = v := rfl
@[simp] theorem setOff_configured (v : Nat) (s : State) : (setOff v s).rx.configured = s.rx.configured := rfl
@[simp] theorem setOff_cfg (v : Nat) (s : State) : (setOff v s).rx.cfg = s.rx.cfg := rfl
@[simp] theorem setOff_busy (v : Nat) (s : State) : (setOff v s).rx.busy = s.rx.busy := rfl
@[simp] theorem setOff_agg (v : Nat) (s : State) : (setOff v s).rx.agg = s.rx.agg := rfl
@[simp] theorem setOff_ctx (v : Nat) (s : State) : (setOff v s).rx.ctx = s.rx.ctx := rfl
@[simp] theorem setOff_rxCtx (v : Nat) (s : State) (f : Fid) : rxCtx (setOff v s).rx f = rxCtx s.rx f := rfl
@[simp] theorem setOff_scan (v : Nat) (s : State) : (setOff v s).scan = s.scan := rfl
@[simp] theorem setOff_host (v : Nat) (s : State) : (setOff v s).host = s.host := rfl
@[simp] theorem setOff_params (v : Nat) (s : State) : (setOff v s).params = s.params := rfl

@[simp] theorem logEvent_tx (e : Event) (s : State) : (logEvent e s).tx = s.tx := rfl
@[simp] theorem logEvent_rx (e : Event) (s : State) : (logEvent e s).rx = s.rx := rfl
@[simp] theorem logEvent_phase (e : Event) (s : State) : (logEvent e s).scan.phase = s.scan.phase := rfl
@[simp] theorem logEvent_fpdu (e : Event) (s : State) : (logEvent e s).scan.fpdu = s.scan.fpdu := rfl
@[simp] theorem logEvent_events (e : Event) (s : State) :
    (logEvent e s).scan.events = s.scan.events ++ [e] := rfl
@[simp] theorem logEvent_err (e : Event) (s : State) : (logEvent e s).scan.err = s.scan.err := rfl
@[simp] theorem logEvent_host (e : Event) (s : State) : (logEvent e s).host = s.host := rfl
@[simp] theorem logEvent_params (e : Event) (s : State) : (logEvent e s).params = s.params := rfl

@[simp] theorem logDrop_tx (f : Option Fid) (x : DropReason) (s : State) : (logDrop f x s).tx = s.tx := rfl
@[simp] theorem logDrop_rx (f : Option Fid) (x : DropReason) (s : State) : (logDrop f x s).rx = s.rx := rfl
@[simp] theorem logDrop_phase (f : Option Fid) (x : DropReason) (s : State) :
    (logDrop f x s).scan.phase = s.scan.phase := rfl
@[simp] theorem logDrop_fpdu (f : Option Fid) (x : DropReason) (s : State) :
    (logDrop f x s).scan.fpdu = s.scan.fpdu := rfl
@[simp] theorem logDrop_events (f : Option Fid) (x : DropReason) (s : State) :
    (logDrop f x s).scan.events = s.scan.events ++ [.drop f x] := rfl
@[simp] theorem logDrop_err (f : Option Fid) (x : DropReason) (s : State) : (logDrop f x s).scan.err = true := rfl
@[simp] theorem logDrop_host (f : Option Fid) (x : DropReason) (s : State) : (logDrop f x s).host = s.host := rfl
@[simp] theorem logDrop_params (f : Option Fid) (x : DropReason) (s : State) :
    (logDrop f x s).params = s.params := rfl

@[simp] theorem finishScan_tx (s : State) : (finishScan s).tx = s.tx := rfl
@[simp] theorem finishScan_rx (s : State) : (finishScan s).rx = s.rx := rfl
@[simp] theorem finishScan_scan (s : State) : (finishScan s).scan = Scan.idle := rfl
@[simp] theorem finishScan_params (s : State) : (finishScan s).params = s.params := rfl
@[simp] theorem finishScan_requests (s : State) : (finishScan s).host.requests = s.host.requests := rfl
@[simp] theorem finishScan_owner (s : State) : (finishScan s).host.owner = s.host.owner := rfl
@[simp] theorem finishScan_producer (s : State) : (finishScan s).host.producer = s.host.producer := rfl
@[simp] theorem finishScan_response (s : State) : (finishScan s).host.response =
    some { status := if s.scan.err then .err else .ok, events := s.scan.events } := rfl

/-! ### Accepting a command -/

@[simp] theorem accept_tx (q : Request) (l : List Request) (s : State) : (accept q l s).tx = s.tx := rfl
@[simp] theorem accept_rx (q : Request) (l : List Request) (s : State) : (accept q l s).rx = s.rx := rfl
@[simp] theorem accept_scan (q : Request) (l : List Request) (s : State) : (accept q l s).scan = s.scan := rfl
@[simp] theorem accept_params (q : Request) (l : List Request) (s : State) : (accept q l s).params = s.params := rfl
@[simp] theorem accept_requests (q : Request) (l : List Request) (s : State) :
    (accept q l s).host.requests = l := rfl
@[simp] theorem accept_producer (q : Request) (l : List Request) (s : State) :
    (accept q l s).host.producer = q.producer := rfl
@[simp] theorem accept_owner (q : Request) (l : List Request) (s : State) :
    (accept q l s).host.owner = s.host.owner := rfl

@[simp] theorem issue_tx (q : Request) (s : State) : (issue q s).tx = s.tx := rfl
@[simp] theorem issue_rx (q : Request) (s : State) : (issue q s).rx = s.rx := rfl
@[simp] theorem issue_scan (q : Request) (s : State) : (issue q s).scan = s.scan := rfl
@[simp] theorem issue_params (q : Request) (s : State) : (issue q s).params = s.params := rfl

/-! ### The single-writer record -/

@[simp] theorem recordOwner_requests (f : Fid) (h : HostPort) : (recordOwner f h).requests = h.requests := rfl
@[simp] theorem recordOwner_producer (f : Fid) (h : HostPort) : (recordOwner f h).producer = h.producer := rfl
@[simp] theorem recordOwner_response (f : Fid) (h : HostPort) : (recordOwner f h).response = h.response := rfl

/-! ### Contexts -/

theorem fid_toNat_ne {f g : Fid} (h : g ≠ f) : f.toNat ≠ g.toNat := fun e => h (BitVec.eq_of_toNat_eq e.symm)

@[simp] theorem setTxCtx_configured (t : Tx) (f : Fid) (c : TxCtx) :
    (setTxCtx t f c).configured = t.configured := rfl
@[simp] theorem setTxCtx_cfg (t : Tx) (f : Fid) (c : TxCtx) : (setTxCtx t f c).cfg = t.cfg := rfl
@[simp] theorem setTxCtx_busy (t : Tx) (f : Fid) (c : TxCtx) : (setTxCtx t f c).busy = t.busy := rfl
@[simp] theorem setTxCtx_agg (t : Tx) (f : Fid) (c : TxCtx) : (setTxCtx t f c).agg = t.agg := rfl

@[simp] theorem txCtx_setTxCtx_same (t : Tx) (f : Fid) (c : TxCtx) : txCtx (setTxCtx t f c) f = c := by
  simp [txCtx, setTxCtx]

theorem txCtx_setTxCtx_ne (t : Tx) {f g : Fid} (c : TxCtx) (h : g ≠ f) :
    txCtx (setTxCtx t f c) g = txCtx t g := by
  simp [txCtx, setTxCtx, fid_toNat_ne h]

@[simp] theorem setRxCtx_configured (r : Rx) (f : Fid) (c : RxCtx) :
    (setRxCtx r f c).configured = r.configured := rfl
@[simp] theorem setRxCtx_cfg (r : Rx) (f : Fid) (c : RxCtx) : (setRxCtx r f c).cfg = r.cfg := rfl
@[simp] theorem setRxCtx_busy (r : Rx) (f : Fid) (c : RxCtx) : (setRxCtx r f c).busy = r.busy := rfl
@[simp] theorem setRxCtx_agg (r : Rx) (f : Fid) (c : RxCtx) : (setRxCtx r f c).agg = r.agg := rfl
@[simp] theorem setRxCtx_off (r : Rx) (f : Fid) (c : RxCtx) : (setRxCtx r f c).off = r.off := rfl

@[simp] theorem rxCtx_setRxCtx_same (r : Rx) (f : Fid) (c : RxCtx) : rxCtx (setRxCtx r f c) f = c := by
  simp [rxCtx, setRxCtx]

theorem rxCtx_setRxCtx_ne (r : Rx) {f g : Fid} (c : RxCtx) (h : g ≠ f) :
    rxCtx (setRxCtx r f c) g = rxCtx r g := by
  simp [rxCtx, setRxCtx, fid_toNat_ne h]

/-! ### Units after reset and creation -/

@[simp] theorem txCtx_reset (f : Fid) : txCtx Tx.reset f = TxCtx.reset := by simp [txCtx, Tx.reset]

@[simp] theorem rxCtx_reset (f : Fid) : rxCtx Rx.reset f = RxCtx.reset := by simp [rxCtx, Rx.reset]

@[simp] theorem txCtx_newTx (w : CfgWord) (f : Fid) :
    txCtx (newTx w) f = { TxCtx.reset with initialised := true } := by simp [txCtx, newTx]

@[simp] theorem rxCtx_newRx (w : CfgWord) (f : Fid) : rxCtx (newRx w) f = RxCtx.reset := by
  simp [rxCtx, newRx, Rx.reset]

@[simp] theorem rxCtx_clearBursts (r : Rx) (f : Fid) :
    rxCtx (clearBursts r) f = { rxCtx r f with burstBytes := 0 } := by simp [rxCtx, clearBursts]

@[simp] theorem clearBursts_configured (r : Rx) : (clearBursts r).configured = r.configured := rfl
@[simp] theorem clearBursts_cfg (r : Rx) : (clearBursts r).cfg = r.cfg := rfl
@[simp] theorem clearBursts_busy (r : Rx) : (clearBursts r).busy = r.busy := rfl
@[simp] theorem clearBursts_agg (r : Rx) : (clearBursts r).agg = r.agg := rfl
@[simp] theorem clearBursts_off (r : Rx) : (clearBursts r).off = r.off := rfl

end Sys2Proof.Machine
end

