-- ==== Sys2Proof/Laws/Flags.lean ====
section
/-! SUPPORT. The busy bitmaps: what a test gives after a set or a clear (spec/20 R82). -/

namespace Sys2Proof.Machine

theorem fid_lt (f : Fid) : f.toNat < 8 := f.isLt

@[simp] theorem busyBit_setBusy_same (b : BitVec 8) (f : Fid) : busyBit (setBusy b f) f = true := by
  simp [busyBit, setBusy, fid_lt f]

theorem busyBit_setBusy_ne (b : BitVec 8) {f g : Fid} (h : g ≠ f) : busyBit (setBusy b f) g = busyBit b g := by
  simp [busyBit, setBusy, BitVec.getLsbD_twoPow, fid_toNat_ne h]

@[simp] theorem busyBit_clearBusy_same (b : BitVec 8) (f : Fid) : busyBit (clearBusy b f) f = false := by
  simp [busyBit, clearBusy, fid_lt f]

theorem busyBit_clearBusy_ne (b : BitVec 8) {f g : Fid} (h : g ≠ f) :
    busyBit (clearBusy b f) g = busyBit b g := by
  simp [busyBit, clearBusy, fid_lt g, (fid_toNat_ne h).symm]

@[simp] theorem busyBit_zero (f : Fid) : busyBit 0 f = false := by simp [busyBit]

end Sys2Proof.Machine
end

