-- ==== Sys2Proof/Laws/Memory.lean ====
section
/-! SUPPORT. The buffers: every write keeps the canonical form, a read after a write gives what was written, and a
write leaves every other byte alone (spec/20 R78 to R80). -/

namespace Sys2Proof.Machine

variable {size : Nat}

/-! ### What a store leaves of the old cells -/

theorem byteAt_cellsBelow (m : Mem) (lo a : Nat) :
    byteAt (cellsBelow m lo) a = if a < lo then byteAt m a else none := by
  induction m with
  | nil => simp [byteAt, cellsBelow]
  | cons c m ih =>
    obtain ⟨k, b⟩ := c
    simp only [byteAt, cellsBelow, List.filter_cons] at ih ⊢
    by_cases hk : k < lo
    · simp only [hk, decide_true, ↓reduceIte, List.lookup_cons]
      by_cases hak : a = k
      · subst hak; simp [hk]
      · simp [show (a == k) = false by simpa using hak, ih]
    · simp only [hk, decide_false, Bool.false_eq_true, ↓reduceIte, ih, List.lookup_cons]
      by_cases ha : a < lo
      · have hak : a ≠ k := by omega
        simp [ha, show (a == k) = false by simpa using hak]
      · simp [ha]

theorem byteAt_cellsFromOn (m : Mem) (hi a : Nat) :
    byteAt (cellsFromOn m hi) a = if hi ≤ a then byteAt m a else none := by
  induction m with
  | nil => simp [byteAt, cellsFromOn]
  | cons c m ih =>
    obtain ⟨k, b⟩ := c
    simp only [byteAt, cellsFromOn, List.filter_cons] at ih ⊢
    by_cases hk : hi ≤ k
    · simp only [hk, decide_true, ↓reduceIte, List.lookup_cons]
      by_cases hak : a = k
      · subst hak; simp [hk]
      · simp [show (a == k) = false by simpa using hak, ih]
    · simp only [hk, decide_false, Bool.false_eq_true, ↓reduceIte, ih, List.lookup_cons]
      by_cases ha : hi ≤ a
      · have hak : a ≠ k := by omega
        simp [ha, show (a == k) = false by simpa using hak]
      · simp [ha]

theorem byteAt_cellsFrom (bytes : Bytes) (off a : Nat) :
    byteAt (cellsFrom off bytes) a = if off ≤ a then bytes[a - off]? else none := by
  induction bytes generalizing off with
  | nil => simp [byteAt, cellsFrom]
  | cons b bs ih =>
    simp only [byteAt, cellsFrom, List.lookup_cons] at ih ⊢
    by_cases h : a = off
    · subst h; simp
    · rw [show (a == off) = false by simpa using h, ih]
      by_cases h' : off + 1 ≤ a
      · simp [h', show off ≤ a by omega, show a - off = (a - (off + 1)) + 1 by omega]
      · simp [h', show ¬ off ≤ a by omega]

theorem byteAt_append (m m' : Mem) (a : Nat) : byteAt (m ++ m') a = (byteAt m a).or (byteAt m' a) := by
  simp [byteAt, List.lookup_append]

/-! ### A store -/

/-- A store inside the buffer succeeds; one past its end faults. -/
theorem memWrite_cases (m : Mem) (off : Nat) (bytes : Bytes) :
    (off + bytes.length ≤ size ∧ memWrite size m off bytes =
      .ok (cellsBelow m off ++ cellsFrom off bytes ++ cellsFromOn m (off + bytes.length))) ∨
    (size < off + bytes.length ∧ memWrite size m off bytes = .error .bufferBounds) := by
  unfold memWrite
  split
  · exact .inl ⟨by assumption, rfl⟩
  · exact .inr ⟨by omega, rfl⟩

theorem memWrite_ok_of_le {m : Mem} {off : Nat} {bytes : Bytes} (h : off + bytes.length ≤ size) :
    ∃ m', memWrite size m off bytes = .ok m' := by simp [memWrite, h]

/-- Everything a successful store does: the bytes are there, every other offset is as before. -/
theorem memWrite_byteAt {m m' : Mem} {off : Nat} {bytes : Bytes} (h : memWrite size m off bytes = .ok m') (a : Nat) :
    byteAt m' a = if off ≤ a ∧ a < off + bytes.length then bytes[a - off]? else byteAt m a := by
  obtain ⟨-, hw⟩ | ⟨-, hw⟩ := memWrite_cases m off bytes
  · rw [hw] at h
    obtain rfl := Except.ok.inj h
    rw [byteAt_append, byteAt_append, byteAt_cellsBelow, byteAt_cellsFrom, byteAt_cellsFromOn]
    by_cases h1 : a < off
    · simp [h1, show ¬ off ≤ a by omega, show ¬ off + bytes.length ≤ a by omega]
    · by_cases h2 : a < off + bytes.length
      · have : a - off < bytes.length := by omega
        simp [h1, show off ≤ a by omega, h2, show ¬ off + bytes.length ≤ a by omega]
      · have : bytes[a - off]? = none := by simp; omega
        simp [h1, h2, show off ≤ a by omega, show off + bytes.length ≤ a by omega, this]
  · rw [hw] at h; cases h

theorem memWrite_byteAt_ne {m m' : Mem} {off : Nat} {bytes : Bytes} (h : memWrite size m off bytes = .ok m') {a : Nat}
    (ha : a < off ∨ off + bytes.length ≤ a) : byteAt m' a = byteAt m a := by
  rw [memWrite_byteAt h, if_neg (by omega)]

theorem memWrite_sameOutside {m m' : Mem} {off : Nat} {bytes : Bytes} (h : memWrite size m off bytes = .ok m') :
    SameOutside size m m' off (off + bytes.length) := by
  intro a ha
  simp [readByte, memWrite_byteAt_ne h ha]

theorem memWrite_bound {m m' : Mem} {off : Nat} {bytes : Bytes} (h : memWrite size m off bytes = .ok m') :
    off + bytes.length ≤ size := by
  obtain ⟨hb, -⟩ | ⟨-, hw⟩ := memWrite_cases m off bytes
  · exact hb
  · rw [hw] at h; cases h

/-- What was written stays written, and the stored bytes are written. -/
theorem memWrite_written {m m' : Mem} {off : Nat} {bytes : Bytes} (h : memWrite size m off bytes = .ok m')
    {lo hi : Nat} (hm : ∀ a, lo ≤ a → a < hi → (off ≤ a ∧ a < off + bytes.length) ∨ (byteAt m a).isSome = true) :
    Written m' lo hi := by
  intro a hlo hhi
  rw [memWrite_byteAt h]
  split
  · rename_i hin
    have : a - off < bytes.length := by omega
    simp [this]
  · rcases hm a hlo hhi with hin | hs
    · contradiction
    · exact hs

/-! ### The canonical form -/

theorem risingFrom_mono {lo lo' : Nat} {m : Mem} (hle : lo' ≤ lo) (h : risingFrom size lo m = true) :
    risingFrom size lo' m = true := by
  cases m with
  | nil => rfl
  | cons c m =>
    simp only [risingFrom, Bool.and_eq_true, decide_eq_true_eq] at h ⊢
    exact ⟨⟨by omega, h.1.2⟩, h.2⟩

theorem risingFrom_cellsFromOn {lo : Nat} {m : Mem} (hi : Nat) (h : risingFrom size lo m = true) :
    risingFrom size (max lo hi) (cellsFromOn m hi) = true := by
  induction m generalizing lo with
  | nil => rfl
  | cons c m ih =>
    simp only [risingFrom, Bool.and_eq_true, decide_eq_true_eq] at h
    have ih' := ih h.2
    by_cases hk : hi ≤ c.1
    · simp only [cellsFromOn, List.filter_cons, hk, decide_true, ↓reduceIte, risingFrom, Bool.and_eq_true,
        decide_eq_true_eq]
      exact ⟨⟨by omega, h.1.2⟩, risingFrom_mono (by omega) ih'⟩
    · simp only [cellsFromOn, List.filter_cons, hk, decide_false, Bool.false_eq_true, ↓reduceIte]
      exact risingFrom_mono (by omega) ih'

theorem risingFrom_cellsFrom_append {off : Nat} {bytes : Bytes} {m : Mem} (hb : off + bytes.length ≤ size)
    (h : risingFrom size (off + bytes.length) m = true) : risingFrom size off (cellsFrom off bytes ++ m) = true := by
  induction bytes generalizing off with
  | nil => simpa [cellsFrom] using h
  | cons b bs ih =>
    simp only [List.length_cons] at hb h
    simp only [cellsFrom, List.cons_append, risingFrom, Bool.and_eq_true, decide_eq_true_eq]
    exact ⟨⟨le_refl _, by omega⟩, ih (by omega) (by rwa [show off + 1 + bs.length = off + (bs.length + 1) by omega])⟩

theorem risingFrom_cellsBelow_append {lo off : Nat} {m m' : Mem} (h : risingFrom size lo m = true) (hlo : lo ≤ off)
    (h' : risingFrom size off m' = true) : risingFrom size lo (cellsBelow m off ++ m') = true := by
  induction m generalizing lo with
  | nil => exact risingFrom_mono hlo h'
  | cons c m ih =>
    simp only [risingFrom, Bool.and_eq_true, decide_eq_true_eq] at h
    by_cases hk : c.1 < off
    · simp only [cellsBelow, List.filter_cons, hk, decide_true, ↓reduceIte, List.cons_append, risingFrom,
        Bool.and_eq_true, decide_eq_true_eq]
      exact ⟨h.1, ih h.2 (by omega)⟩
    · simp only [cellsBelow, List.filter_cons, hk, decide_false, Bool.false_eq_true, ↓reduceIte]
      have hnil : List.filter (fun c => decide (c.1 < off)) m = [] := by
        rw [List.filter_eq_nil_iff]
        have key : ∀ (l : Mem) (k : Nat), risingFrom size k l = true → ∀ d ∈ l, k ≤ d.1 := by
          intro l
          induction l with
          | nil => simp
          | cons e l ihl =>
            intro k hkl d hd
            simp only [risingFrom, Bool.and_eq_true, decide_eq_true_eq] at hkl
            rcases List.mem_cons.mp hd with rfl | hd
            · exact hkl.1.1
            · have := ihl _ hkl.2 d hd; omega
        intro d hd
        have := key m _ h.2 d hd
        simp; omega
      rw [hnil]
      exact risingFrom_mono hlo h'

/-- Every store keeps the canonical form. -/
theorem memWrite_wf {m m' : Mem} {off : Nat} {bytes : Bytes} (hm : Mem.wf size m = true)
    (h : memWrite size m off bytes = .ok m') : Mem.wf size m' = true := by
  obtain ⟨hb, hw⟩ | ⟨-, hw⟩ := memWrite_cases m off bytes
  · rw [hw] at h
    obtain rfl := Except.ok.inj h
    rw [List.append_assoc]
    refine risingFrom_cellsBelow_append hm (Nat.zero_le _) (risingFrom_cellsFrom_append hb ?_)
    exact risingFrom_mono (by omega) (risingFrom_cellsFromOn (off + bytes.length) hm)
  · rw [hw] at h; cases h

theorem mem_empty_wf : Mem.wf size [] = true := rfl

/-! ### Reads -/

theorem readByte_ok {m : Mem} {a : Nat} {b : Byte} (ha : a < size) (h : byteAt m a = some b) :
    readByte size m a = .ok b := by simp [readByte, ha, h]

theorem readByte_ok_iff {m : Mem} {a : Nat} {b : Byte} :
    readByte size m a = .ok b ↔ a < size ∧ byteAt m a = some b := by
  unfold readByte
  split
  · split <;> simp_all
  · simp_all

theorem memRead_succ_ok_iff {m : Mem} {off n : Nat} {bytes : Bytes} :
    memRead size m off (n + 1) = .ok bytes ↔
      ∃ b bs, readByte size m off = .ok b ∧ memRead size m (off + 1) n = .ok bs ∧ bytes = b :: bs := by
  cases h1 : readByte size m off <;> cases h2 : memRead size m (off + 1) n <;> simp [memRead, h1, h2, eq_comm]

/-- A read gives exactly the bytes of its range. -/
theorem memRead_ok_iff {m : Mem} {off n : Nat} {bytes : Bytes} :
    memRead size m off n = .ok bytes ↔
      bytes.length = n ∧ ∀ i, i < n → off + i < size ∧ byteAt m (off + i) = bytes[i]? := by
  induction n generalizing off bytes with
  | zero =>
    simp only [memRead, Except.ok.injEq, Nat.not_lt_zero, false_implies, implies_true, and_true]
    constructor
    · rintro rfl; rfl
    · intro h; exact (List.length_eq_zero_iff.mp h).symm
  | succ n ih =>
    rw [memRead_succ_ok_iff]
    constructor
    · rintro ⟨b, bs, hb, hbs, rfl⟩
      obtain ⟨hl, hi⟩ := ih.mp hbs
      obtain ⟨ha, hb⟩ := readByte_ok_iff.mp hb
      refine ⟨by simp [hl], fun i hin => ?_⟩
      cases i with
      | zero => simpa using ⟨ha, hb⟩
      | succ i =>
        have := hi i (by omega)
        rw [show off + (i + 1) = off + 1 + i by omega]
        simpa using this
    · rintro ⟨hl, hi⟩
      cases bytes with
      | nil => simp at hl
      | cons b bs =>
        refine ⟨b, bs, readByte_ok_iff.mpr (by simpa using hi 0 (by omega)), ih.mpr ⟨by simpa using hl, ?_⟩, rfl⟩
        intro i hin
        have := hi (i + 1) (by omega)
        rw [show off + 1 + i = off + (i + 1) by omega]
        simpa using this

theorem memRead_length {m : Mem} {off n : Nat} {bytes : Bytes} (h : memRead size m off n = .ok bytes) :
    bytes.length = n := (memRead_ok_iff.mp h).1

/-- A read of bytes that have all been written, inside the buffer, succeeds. -/
theorem memRead_of_written {m : Mem} {off n : Nat} (hb : n = 0 ∨ off + n ≤ size) (hw : Written m off (off + n)) :
    ∃ bytes, memRead size m off n = .ok bytes := by
  induction n generalizing off with
  | zero => exact ⟨[], rfl⟩
  | succ n ih =>
    obtain ⟨bs, hbs⟩ := ih (off := off + 1) (by omega) (fun a h1 h2 => hw a (by omega) (by omega))
    obtain ⟨b, hb'⟩ := Option.isSome_iff_exists.mp (hw off (le_refl _) (by omega))
    exact ⟨b :: bs, memRead_succ_ok_iff.mpr ⟨b, bs, readByte_ok (by omega) hb', hbs, rfl⟩⟩

/-- A read depends only on the bytes of its range. -/
theorem memRead_congr {m m' : Mem} {off n : Nat} (h : ∀ a, off ≤ a → a < off + n → byteAt m' a = byteAt m a) :
    memRead size m' off n = memRead size m off n := by
  induction n generalizing off with
  | zero => rfl
  | succ n ih =>
    have h0 : readByte size m' off = readByte size m off := by simp [readByte, h off (le_refl _) (by omega)]
    have h1 := ih (off := off + 1) (fun a ha hb => h a (by omega) (by omega))
    simp [memRead, h0, h1]

/-- READ AFTER WRITE: the stored bytes are read back. -/
theorem memRead_memWrite_same {m m' : Mem} {off : Nat} {bytes : Bytes} (h : memWrite size m off bytes = .ok m') :
    memRead size m' off bytes.length = .ok bytes := by
  have hb := memWrite_bound h
  refine memRead_ok_iff.mpr ⟨rfl, fun i hi => ⟨by omega, ?_⟩⟩
  rw [memWrite_byteAt h, if_pos (by omega)]
  simp

/-- A store outside a range leaves what is read there. -/
theorem memRead_memWrite_disjoint {m m' : Mem} {off : Nat} {bytes : Bytes} (h : memWrite size m off bytes = .ok m')
    {o n : Nat} (hd : o + n ≤ off ∨ off + bytes.length ≤ o) : memRead size m' o n = memRead size m o n :=
  memRead_congr (fun _ ha hb => memWrite_byteAt_ne h (by omega))

/-- Two adjacent reads are one. -/
theorem memRead_append {m : Mem} {off n k : Nat} {bs cs : Bytes} (h1 : memRead size m off n = .ok bs)
    (h2 : memRead size m (off + n) k = .ok cs) : memRead size m off (n + k) = .ok (bs ++ cs) := by
  obtain ⟨hl, hi⟩ := memRead_ok_iff.mp h1
  obtain ⟨hl', hi'⟩ := memRead_ok_iff.mp h2
  refine memRead_ok_iff.mpr ⟨by simp [hl, hl'], fun i hin => ?_⟩
  by_cases h : i < n
  · obtain ⟨hb, he⟩ := hi i h
    exact ⟨hb, by rw [he, List.getElem?_append_left (by omega)]⟩
  · obtain ⟨hb, he⟩ := hi' (i - n) (by omega)
    rw [show off + n + (i - n) = off + i by omega] at hb he
    exact ⟨hb, by rw [he, List.getElem?_append_right (by omega), hl]⟩

end Sys2Proof.Machine
end

