-- ==== Sys2Proof/Laws/Ops.lean ====
section
/-! SUPPORT. The shared operations over units: counting (spec/48 R380), the release of a context (spec/44 R253,
spec/47 R341), the two exceptions of the receiver (spec/47 R340, spec/46 R310), and what each leaves alone. -/

namespace Sys2Proof.Machine

variable {w : Nat}

/-! ### Counting -/

/-- Two updates of one record are one update by their sum, wherever the counters wrap (spec/40 R144). -/
theorem addCounters_addCounters (a d d' : Counters) :
    addCounters w (addCounters w a d) d' =
      addCounters w a
        { pktsIn := d.pktsIn + d'.pktsIn
          pktsOut := d.pktsOut + d'.pktsOut
          pktsOk := d.pktsOk + d'.pktsOk
          pktsDropped := d.pktsDropped + d'.pktsDropped
          pktsLost := d.pktsLost + d'.pktsLost
          bytesIn := d.bytesIn + d'.bytesIn
          bytesOut := d.bytesOut + d'.bytesOut
          bytesOk := d.bytesOk + d'.bytesOk
          bytesDropped := d.bytesDropped + d'.bytesDropped } := by
  simp [addCounters, addCount, Nat.add_assoc]

/-- An updated counter has `CNT_W` bits (spec/10 R35). -/
theorem addCounters_width (a d : Counters) : ∀ v ∈ countersOf (addCounters w a d), v < 2 ^ w := by
  simp [countersOf, addCounters, addCount, Nat.mod_lt]

/-! ### Counting on the transmitter -/

@[simp] theorem countTx_configured (t : Tx) (f : Fid) (d : Counters) :
    (countTx w t f d).configured = t.configured := rfl
@[simp] theorem countTx_cfg (t : Tx) (f : Fid) (d : Counters) : (countTx w t f d).cfg = t.cfg := rfl
@[simp] theorem countTx_busy (t : Tx) (f : Fid) (d : Counters) : (countTx w t f d).busy = t.busy := rfl
@[simp] theorem countTx_agg (t : Tx) (f : Fid) (d : Counters) :
    (countTx w t f d).agg = addCounters w t.agg d := rfl

@[simp] theorem txCtx_countTx_same (t : Tx) (f : Fid) (d : Counters) :
    txCtx (countTx w t f d) f = { txCtx t f with cnt := addCounters w (txCtx t f).cnt d } := by
  simp [txCtx, countTx, setTxCtx]

theorem txCtx_countTx_ne (t : Tx) {f g : Fid} (d : Counters) (h : g ≠ f) :
    txCtx (countTx w t f d) g = txCtx t g := by simp [txCtx, countTx, setTxCtx, fid_toNat_ne h]

/-! ### The release of a transmitter context -/

@[simp] theorem releaseTx_configured (t : Tx) (f : Fid) (d : Counters) :
    (releaseTx w t f d).configured = t.configured := rfl
@[simp] theorem releaseTx_cfg (t : Tx) (f : Fid) (d : Counters) : (releaseTx w t f d).cfg = t.cfg := rfl
@[simp] theorem releaseTx_busy (t : Tx) (f : Fid) (d : Counters) :
    (releaseTx w t f d).busy = clearBusy t.busy f := rfl
@[simp] theorem releaseTx_agg (t : Tx) (f : Fid) (d : Counters) :
    (releaseTx w t f d).agg = addCounters w t.agg d := rfl

@[simp] theorem txCtx_releaseTx_same (t : Tx) (f : Fid) (d : Counters) :
    txCtx (releaseTx w t f d) f = emptyCtx { txCtx t f with cnt := addCounters w (txCtx t f).cnt d } := by
  simp [releaseTx, txCtx, setTxCtx, countTx]

theorem txCtx_releaseTx_ne (t : Tx) {f g : Fid} (d : Counters) (h : g ≠ f) :
    txCtx (releaseTx w t f d) g = txCtx t g := by
  simp [releaseTx, txCtx, setTxCtx, countTx, fid_toNat_ne h]

theorem TxSameBut.refl (f : Fid) (t : Tx) : TxSameBut f t t := ⟨rfl, rfl, fun _ _ => rfl, fun _ _ => rfl⟩

theorem releaseTx_sameBut (t : Tx) (f : Fid) (d : Counters) : TxSameBut f t (releaseTx w t f d) :=
  ⟨rfl, rfl, fun _ h => busyBit_clearBusy_ne _ h, fun _ h => txCtx_releaseTx_ne t d h⟩

theorem setTxCtx_sameBut (t : Tx) (f : Fid) (c : TxCtx) : TxSameBut f t (setTxCtx t f c) :=
  ⟨rfl, rfl, fun _ _ => rfl, fun _ h => txCtx_setTxCtx_ne t c h⟩

/-! ### Counting on the receiver -/

@[simp] theorem countRx_configured (r : Rx) (f : Option Fid) (d : Counters) :
    (countRx w r f d).configured = r.configured := by cases f <;> rfl
@[simp] theorem countRx_cfg (r : Rx) (f : Option Fid) (d : Counters) : (countRx w r f d).cfg = r.cfg := by
  cases f <;> rfl
@[simp] theorem countRx_busy (r : Rx) (f : Option Fid) (d : Counters) : (countRx w r f d).busy = r.busy := by
  cases f <;> rfl
@[simp] theorem countRx_off (r : Rx) (f : Option Fid) (d : Counters) : (countRx w r f d).off = r.off := by
  cases f <;> rfl
@[simp] theorem countRx_agg (r : Rx) (f : Option Fid) (d : Counters) :
    (countRx w r f d).agg = addCounters w r.agg d := by cases f <;> rfl
@[simp] theorem countRx_none_ctx (r : Rx) (d : Counters) : (countRx w r none d).ctx = r.ctx := rfl
@[simp] theorem rxCtx_countRx_none (r : Rx) (d : Counters) (g : Fid) : rxCtx (countRx w r none d) g = rxCtx r g := rfl

@[simp] theorem rxCtx_countRx_same (r : Rx) (f : Fid) (d : Counters) :
    rxCtx (countRx w r (some f) d) f = { rxCtx r f with cnt := addCounters w (rxCtx r f).cnt d } := by
  simp [rxCtx, countRx, setRxCtx]

theorem rxCtx_countRx_ne (r : Rx) {f g : Fid} (d : Counters) (h : g ≠ f) :
    rxCtx (countRx w r (some f) d) g = rxCtx r g := by simp [rxCtx, countRx, setRxCtx, fid_toNat_ne h]

/-- Whatever record counts, a context's other registers stay. -/
theorem rxCtx_countRx (r : Rx) (f : Option Fid) (d : Counters) (g : Fid) :
    ∃ cnt, rxCtx (countRx w r f d) g = { rxCtx r g with cnt := cnt } := by
  cases f with
  | none => exact ⟨(rxCtx r g).cnt, rfl⟩
  | some f =>
    by_cases h : g = f
    · subst h; exact ⟨_, rxCtx_countRx_same r g d⟩
    · exact ⟨(rxCtx r g).cnt, rxCtx_countRx_ne r d h⟩

/-! ### The release of a receiver context -/

@[simp] theorem releaseRx_configured (r : Rx) (f : Fid) : (releaseRx r f).configured = r.configured := rfl
@[simp] theorem releaseRx_cfg (r : Rx) (f : Fid) : (releaseRx r f).cfg = r.cfg := rfl
@[simp] theorem releaseRx_busy (r : Rx) (f : Fid) : (releaseRx r f).busy = clearBusy r.busy f := rfl
@[simp] theorem releaseRx_agg (r : Rx) (f : Fid) : (releaseRx r f).agg = r.agg := rfl
@[simp] theorem releaseRx_ctx (r : Rx) (f : Fid) : (releaseRx r f).ctx = r.ctx := rfl
@[simp] theorem releaseRx_off (r : Rx) (f : Fid) : (releaseRx r f).off = r.off := rfl
@[simp] theorem rxCtx_releaseRx (r : Rx) (f g : Fid) : rxCtx (releaseRx r f) g = rxCtx r g := rfl

/-! ### Taking a drop -/

@[simp] theorem takeDrop_tx (f : Option Fid) (x : DropReason) (len prior : Nat) (s : State) :
    (takeDrop f x len prior s).tx = s.tx := by cases f <;> rfl
@[simp] theorem takeDrop_params (f : Option Fid) (x : DropReason) (len prior : Nat) (s : State) :
    (takeDrop f x len prior s).params = s.params := by cases f <;> rfl
@[simp] theorem takeDrop_host (f : Option Fid) (x : DropReason) (len prior : Nat) (s : State) :
    (takeDrop f x len prior s).host = s.host := by cases f <;> rfl
@[simp] theorem takeDrop_scan (f : Option Fid) (x : DropReason) (len prior : Nat) (s : State) :
    (takeDrop f x len prior s).scan =
      { s.scan with events := s.scan.events ++ [.drop f x], err := true } := by cases f <;> rfl

/-- A drop on a context: it is counted there and on the aggregate, and the context is released (spec/47 R340). -/
theorem takeDrop_some_rx (f : Fid) (x : DropReason) (len prior : Nat) (s : State) :
    (takeDrop (some f) x len prior s).rx =
      releaseRx (countRx s.params.cntW s.rx (some f) (dropCounters (lostOnDrop s.rx f x prior) len prior)) f := rfl

/-- A drop with no context counts on the aggregate alone (spec/47 R340). -/
theorem takeDrop_none_rx (x : DropReason) (len prior : Nat) (s : State) :
    (takeDrop none x len prior s).rx = countRx s.params.cntW s.rx none (dropCounters 0 len 0) := rfl

@[simp] theorem takeDrop_off (f : Option Fid) (x : DropReason) (len prior : Nat) (s : State) :
    (takeDrop f x len prior s).rx.off = s.rx.off := by cases f <;> simp [takeDrop_some_rx, takeDrop_none_rx]
@[simp] theorem takeDrop_configured (f : Option Fid) (x : DropReason) (len prior : Nat) (s : State) :
    (takeDrop f x len prior s).rx.configured = s.rx.configured := by
  cases f <;> simp [takeDrop_some_rx, takeDrop_none_rx]
@[simp] theorem takeDrop_cfg (f : Option Fid) (x : DropReason) (len prior : Nat) (s : State) :
    (takeDrop f x len prior s).rx.cfg = s.rx.cfg := by cases f <;> simp [takeDrop_some_rx, takeDrop_none_rx]

/-! ### Taking a truncation -/

@[simp] theorem takeTruncated_tx (s : State) : (takeTruncated s).tx = s.tx := rfl
@[simp] theorem takeTruncated_params (s : State) : (takeTruncated s).params = s.params := rfl
@[simp] theorem takeTruncated_host (s : State) : (takeTruncated s).host = s.host := rfl
@[simp] theorem takeTruncated_rx (s : State) : (takeTruncated s).rx =
    countRx s.params.cntW s.rx none (dropCounters 0 (s.scan.fpdu.length - s.rx.off) 0) := rfl
@[simp] theorem takeTruncated_scan (s : State) : (takeTruncated s).scan =
    { s.scan with events := s.scan.events ++ [.drop none .fpduTruncated], err := true } := rfl

end Sys2Proof.Machine
end

