-- ==== Sys2Proof/Laws/Emit.lean ====
section
/-! SUPPORT. What an EMIT can do, said once (spec/44 R240 to R253): the proofs about EMIT and PACK cite the case
list and never unfold `emit`. -/

namespace Sys2Proof.Machine

/-- The outcomes of an EMIT that does not fault, each with the guards under which the spec gives it. -/
inductive EmitCase (p : Config.Params) (t : Tx) (f : Fid) (burst : Nat) : Emission → Prop where
  | nullTrmt (h : t.configured = false) : EmitCase p t f burst (noEmission t .errNullTrmt)
  | nInitBuf (h : t.configured = true) (hi : (txCtx t f).initialised = false) :
      EmitCase p t f burst (noEmission t .errNInitBuf)
  | timeout (h : t.configured = true) (hi : (txCtx t f).initialised = true) (hb : busyBit t.busy f = false) :
      EmitCase p t f burst (noEmission t .errContextTimeout)
  | comp (hr : EmitReady t f) (hf : (txCtx t f).isFragmented = false) (hc : compFits t f burst) (payload : Bytes)
      (hp : memRead fragBufLen (txCtx t f).buf (txCtx t f).head.toNat (alpduLen (txCtx t f)) = .ok payload) :
      EmitCase p t f burst
        { tx := releaseTx p.cntW t f (sentCounters (txCtx t f).sduLen.toNat)
          ppdu := encodeWith p.ppduLayout (.comp (txCtx t f).lt (txCtx t f).pts (BitVec.ofNat 11 (alpduLen (txCtx t f)))) ++ payload
          status := .okAndDone }
  | firstTooSmall (hr : EmitReady t f) (hf : (txCtx t f).isFragmented = false) (hc : ¬ compFits t f burst)
      (hb : burst < 5) : EmitCase p t f burst (noEmission t .errBurstTooSmall)
  | start (hr : EmitReady t f) (hf : (txCtx t f).isFragmented = false) (hc : ¬ compFits t f burst)
      (hb : 5 ≤ burst) (c : TxCtx) (hw : writeTrailer p (txCtx t f) = .ok c) (payload : Bytes)
      (hp : memRead fragBufLen c.buf c.head.toNat (min (burst - 4) ppduLenMax) = .ok payload) :
      EmitCase p t f burst
        { tx := setTxCtx t f
            { c with
              cursor := index (c.head.toNat + min (burst - 4) ppduLenMax)
              isFragmented := true
              fragCount := 1 }
          ppdu := encodeWith p.ppduLayout (.start c.lt c.pts (BitVec.ofNat 11 (min (burst - 4) ppduLenMax)) f
            (index (alpduLen c)) c.useCrc) ++ payload
          status := .ok }
  | laterTooSmall (hr : EmitReady t f) (hf : (txCtx t f).isFragmented = true)
      (hb : burst < 3 ∨ ¬ endFits t f burst ∧ contLen t f burst = 0) :
      EmitCase p t f burst (noEmission t .errBurstTooSmall)
  | tooMuchFrag (hr : EmitReady t f) (hf : (txCtx t f).isFragmented = true) (hb : 3 ≤ burst)
      (hn : endFits t f burst ∨ 0 < contLen t f burst) (hm : fragCapReached p (txCtx t f) = true) :
      EmitCase p t f burst (tooMuchFrag p t f)
  | endPpdu (hr : EmitReady t f) (hf : (txCtx t f).isFragmented = true) (hb : 3 ≤ burst) (he : endFits t f burst)
      (hm : fragCapReached p (txCtx t f) = false) (payload : Bytes)
      (hp : memRead fragBufLen (txCtx t f).buf (txCtx t f).cursor.toNat (remTotal (txCtx t f)) = .ok payload) :
      EmitCase p t f burst
        { tx := releaseTx p.cntW t f (sentCounters (txCtx t f).sduLen.toNat)
          ppdu := encodeWith p.ppduLayout (.endPpdu (BitVec.ofNat 11 (remTotal (txCtx t f))) f) ++ payload
          status := .okAndDone }
  | cont (hr : EmitReady t f) (hf : (txCtx t f).isFragmented = true) (hb : 3 ≤ burst) (he : ¬ endFits t f burst)
      (hn : 0 < contLen t f burst) (hm : fragCapReached p (txCtx t f) = false) (payload : Bytes)
      (hp : memRead fragBufLen (txCtx t f).buf (txCtx t f).cursor.toNat (contLen t f burst) = .ok payload) :
      EmitCase p t f burst
        { tx := setTxCtx t f
            { txCtx t f with
              cursor := index ((txCtx t f).cursor.toNat + contLen t f burst)
              fragCount := (txCtx t f).fragCount + 1 }
          ppdu := encodeWith p.ppduLayout (.cont (BitVec.ofNat 11 (contLen t f burst)) f) ++ payload
          status := .ok }

theorem emitFirst_case {p : Config.Params} {t : Tx} {f : Fid} {burst : Nat} {e : Emission}
    (hr : EmitReady t f) (hf : (txCtx t f).isFragmented = false) (h : emitFirst p t f burst = .ok e) :
    EmitCase p t f burst e := by
  unfold emitFirst at h
  simp only at h
  split at h
  · next hc =>
    unfold emitComp at h
    simp only at h
    split at h
    · cases h
    · next hp => obtain rfl := Except.ok.inj h; exact .comp hr hf hc _ hp
  · next hc =>
    split at h
    · next hb => obtain rfl := Except.ok.inj h; exact .firstTooSmall hr hf hc hb
    · next hb =>
      unfold emitStart at h
      simp only at h
      split at h
      · cases h
      · next hw =>
        split at h
        · cases h
        · next hp => obtain rfl := Except.ok.inj h; exact .start hr hf hc (by omega) _ hw _ hp

theorem emitLater_case {p : Config.Params} {t : Tx} {f : Fid} {burst : Nat} {e : Emission}
    (hr : EmitReady t f) (hf : (txCtx t f).isFragmented = true) (h : emitLater p t f burst = .ok e) :
    EmitCase p t f burst e := by
  unfold emitLater at h
  simp only at h
  split at h
  · next hb => obtain rfl := Except.ok.inj h; exact .laterTooSmall hr hf (.inl hb)
  · next hb =>
    split at h
    · next he =>
      unfold emitEnd at h
      simp only at h
      split at h
      · next hm => obtain rfl := Except.ok.inj h; exact .tooMuchFrag hr hf (by omega) (.inl he) hm
      · next hm =>
        split at h
        · cases h
        · next hp => obtain rfl := Except.ok.inj h; exact .endPpdu hr hf (by omega) he (by simpa using hm) _ hp
    · next he =>
      split at h
      · next hz => obtain rfl := Except.ok.inj h; exact .laterTooSmall hr hf (.inr ⟨he, hz⟩)
      · next hz =>
        have hz' : 0 < contLen t f burst := Nat.pos_of_ne_zero hz
        unfold emitCont at h
        simp only at h
        split at h
        · next hm => obtain rfl := Except.ok.inj h; exact .tooMuchFrag hr hf (by omega) (.inr hz') hm
        · next hm =>
          split at h
          · cases h
          · next hp =>
            obtain rfl := Except.ok.inj h
            exact .cont hr hf (by omega) he hz' (by simpa using hm) _ hp

/-- Everything an EMIT can do. -/
theorem emit_cases {p : Config.Params} {t : Tx} {f : Fid} {burst : Nat} {e : Emission}
    (h : emit p t f burst = .ok e) : EmitCase p t f burst e := by
  unfold emit at h
  split at h
  · next hc => obtain rfl := Except.ok.inj h; exact .nullTrmt (by simpa using hc)
  · next hc =>
    split at h
    · next hi => obtain rfl := Except.ok.inj h; exact .nInitBuf (by simpa using hc) (by simpa using hi)
    · next hi =>
      split at h
      · next hb =>
        obtain rfl := Except.ok.inj h
        exact .timeout (by simpa using hc) (by simpa using hi) (by simpa using hb)
      · next hb =>
        have hr : EmitReady t f := ⟨by simpa using hc, by simpa using hi, by simpa using hb⟩
        split at h
        · next hf => exact emitLater_case hr hf h
        · next hf => exact emitFirst_case hr (by simpa using hf) h

theorem emit_first {p : Config.Params} {t : Tx} {f : Fid} {burst : Nat} (hr : EmitReady t f)
    (hf : (txCtx t f).isFragmented = false) : emit p t f burst = emitFirst p t f burst := by
  simp [emit, hr.configured, hr.initialised, hr.busy, hf]

theorem emit_later {p : Config.Params} {t : Tx} {f : Fid} {burst : Nat} (hr : EmitReady t f)
    (hf : (txCtx t f).isFragmented = true) : emit p t f burst = emitLater p t f burst := by
  simp [emit, hr.configured, hr.initialised, hr.busy, hf]

/-- And each case happens: the guards decide what EMIT answers. -/
theorem emit_of_case {p : Config.Params} {t : Tx} {f : Fid} {burst : Nat} {e : Emission}
    (h : EmitCase p t f burst e) : emit p t f burst = .ok e := by
  cases h with
  | nullTrmt h => simp [emit, h]
  | nInitBuf h hi => simp [emit, h, hi]
  | timeout h hi hb => simp [emit, h, hi, hb]
  | comp hr hf hc payload hp =>
    rw [emit_first hr hf, emitFirst]
    simp only [emitComp, hp]
    exact if_pos hc
  | firstTooSmall hr hf hc hb =>
    rw [emit_first hr hf, emitFirst]
    exact (if_neg hc).trans (if_pos hb)
  | start hr hf hc hb c hw payload hp =>
    rw [emit_first hr hf, emitFirst]
    simp only [emitStart, hw, hp]
    exact (if_neg hc).trans (if_neg (by omega))
  | laterTooSmall hr hf hb =>
    rw [emit_later hr hf, emitLater]
    rcases hb with hb | ⟨he, hz⟩
    · exact if_pos hb
    · by_cases hb : burst < 3
      · exact if_pos hb
      · exact (if_neg hb).trans ((if_neg he).trans (if_pos hz))
  | tooMuchFrag hr hf hb hn hm =>
    rw [emit_later hr hf, emitLater]
    simp only [emitEnd, emitCont, hm, ↓reduceIte]
    refine (if_neg (by omega)).trans ?_
    by_cases he : endFits t f burst
    · exact if_pos he
    · exact (if_neg he).trans (if_neg (Nat.pos_iff_ne_zero.mp (hn.resolve_left he)))
  | endPpdu hr hf hb he hm payload hp =>
    rw [emit_later hr hf, emitLater]
    simp only [emitEnd, hm, hp]
    exact (if_neg (by omega)).trans (if_pos he)
  | cont hr hf hb he hn hm payload hp =>
    rw [emit_later hr hf, emitLater]
    refine (if_neg (by omega)).trans ((if_neg he).trans ((if_neg (Nat.pos_iff_ne_zero.mp hn)).trans ?_))
    change emitCont p t f (contLen t f burst) = _
    simp only [emitCont, hm, hp]
    rfl

/-- The trailer write of a START (spec/44 R245 to R247): the trailer bytes, the new tail, and in sequence mode the
next number; nothing else of the context changes. -/
theorem writeTrailer_cases {p : Config.Params} {c c' : TxCtx} (h : writeTrailer p c = .ok c') :
    (c.useCrc = true ∧ ∃ alpdu buf, memRead fragBufLen c.buf c.head.toNat (alpduLen c) = .ok alpdu ∧
      memWrite fragBufLen c.buf c.sduEnd.toNat (le32 (crc32 p.crc32 alpdu)) = .ok buf ∧
      c' = { c with buf := buf, tail := index (c.sduEnd.toNat + 4) }) ∨
    (c.useCrc = false ∧ ∃ buf, memWrite fragBufLen c.buf c.sduEnd.toNat [c.nextSeqNb.setWidth 8] = .ok buf ∧
      c' = { c with buf := buf, nextSeqNb := c.nextSeqNb + 1, tail := index (c.sduEnd.toNat + 1) }) := by
  unfold writeTrailer at h
  split at h
  · next hc =>
    split at h
    · cases h
    · next halpdu =>
      split at h
      · cases h
      · next hw => obtain rfl := Except.ok.inj h; exact .inl ⟨hc, _, _, halpdu, hw, rfl⟩
  · next hc =>
    split at h
    · cases h
    · next hw =>
      obtain rfl := Except.ok.inj h
      exact .inr ⟨by simpa using hc, _, hw, rfl⟩

theorem noEmission_tx (t : Tx) (x : Status) : (noEmission t x).tx = t := rfl

/-- An EMIT touches no context but its own (spec/44 R257). -/
theorem emit_sameBut {p : Config.Params} {t : Tx} {f : Fid} {burst : Nat} {e : Emission}
    (h : emit p t f burst = .ok e) : TxSameBut f t e.tx := by
  cases emit_cases h with
  | nullTrmt | nInitBuf | timeout | firstTooSmall | laterTooSmall => exact TxSameBut.refl f t
  | comp | tooMuchFrag | endPpdu => exact releaseTx_sameBut t f _
  | start | cont => exact setTxCtx_sameBut t f _

end Sys2Proof.Machine
end

