-- ==== Sys2Proof/Laws/TxInv.lean ====
section
/-! SUPPORT. The transmitter's invariant (spec/10 R47): the operations on a context keep it, and under it no buffer
access faults (spec/20 R80). -/

namespace Sys2Proof.Machine

theorem index_toNat {n : Nat} (h : n < 4096) : (index n).toNat = n := by
  simp [index, BitVec.toNat_ofNat, Nat.mod_eq_of_lt h]

theorem index_three : index 3 = 3 := rfl

/-- An empty context meets the invariant of a free one. -/
theorem txCtxInv_empty {c : TxCtx} (hw : Mem.wf fragBufLen c.buf = true) (hs : c.sduStart = 3) :
    TxCtxInv false (emptyCtx c) where
  bufWf := hw
  sduStartIs3 := hs
  headLe := by simp [emptyCtx, alpduHdrMax, index]
  sduEndGe := by simp [emptyCtx, alpduHdrMax, index]
  sduEndLe := by simp [emptyCtx, alpduHdrMax, index, sduMax]
  tailGe := by simp [emptyCtx]
  tailLen := by simp [emptyCtx]
  cursorGe := by simp [emptyCtx]
  cursorLe := by simp [emptyCtx]
  busyIsCopied := rfl
  fragmented := by simp [emptyCtx]
  notFragmented := by simp
  free := by simp [emptyCtx, alpduHdrMax, index]
  sduLenIs := by simp
  written := by simp

theorem txCtxInv_cnt {busy : Bool} {c : TxCtx} (h : TxCtxInv busy c) (cnt : Counters) :
    TxCtxInv busy { c with cnt := cnt } :=
  ⟨h.1, h.2, h.3, h.4, h.5, h.6, h.7, h.8, h.9, h.10, h.11, h.12, h.13, h.14, h.15⟩

/-- A change of one context and its busy bit keeps the unit's invariant when the context meets its own. -/
theorem txInv_of_sameBut {t t' : Tx} {f : Fid} (h : TxInv t) (hs : TxSameBut f t t')
    (hi : (txCtx t' f).initialised = (txCtx t f).initialised) (hc : t.configured = true)
    (hf : TxCtxInv (busyBit t'.busy f) (txCtx t' f)) : TxInv t' where
  cfgOk _ := by rw [hs.cfg]; exact h.cfgOk hc
  initialisedIs g := by
    rw [hs.configured]
    by_cases hg : g = f
    · subst hg; rw [hi]; exact h.initialisedIs g
    · rw [hs.ctx g hg]; exact h.initialisedIs g
  freeUnconfigured hn := by rw [hs.configured, hc] at hn; cases hn
  ctx g := by
    by_cases hg : g = f
    · subst hg; exact hf
    · rw [hs.ctx g hg, hs.busy g hg]; exact h.ctx g

theorem txInv_release {t : Tx} {f : Fid} (h : TxInv t) (hc : t.configured = true) (w : Nat) (d : Counters) :
    TxInv (releaseTx w t f d) := by
  refine txInv_of_sameBut h (releaseTx_sameBut t f d) (by simp [emptyCtx]) hc ?_
  rw [releaseTx_busy, busyBit_clearBusy_same, txCtx_releaseTx_same]
  exact txCtxInv_empty (h.ctx f).bufWf (h.ctx f).sduStartIs3

/-- The registers of a pending ALPDU that has not been fragmented (spec/10 R47, spec/43 R226). -/
theorem TxCtxInv.bounds {c : TxCtx} (h : TxCtxInv true c) :
    c.head.toNat ≤ 3 ∧ 3 ≤ c.sduEnd.toNat ∧ c.sduEnd.toNat ≤ 4091 ∧ c.tail.toNat ≤ 4095 ∧
      c.sduEnd.toNat ≤ c.tail.toNat := by
  have h1 := h.headLe; have h2 := h.sduEndGe; have h3 := h.sduEndLe; have h4 := h.tailLen; have h5 := h.tailGe
  simp only [alpduHdrMax, sduMax] at h3
  omega

/-- The trailer write succeeds, and the context it leaves has its trailer written. -/
theorem writeTrailer_inv {p : Config.Params} {c : TxCtx} (h : TxCtxInv true c) (hf : c.isFragmented = false) :
    ∃ buf seq, writeTrailer p c =
        .ok { c with buf := buf, nextSeqNb := seq, tail := index (c.sduEnd.toNat + trlLen c.useCrc) } ∧
      Mem.wf fragBufLen buf = true ∧ Written buf c.head.toNat (c.sduEnd.toNat + trlLen c.useCrc) ∧
      SameOutside fragBufLen c.buf buf c.sduEnd.toNat (c.sduEnd.toNat + trlLen c.useCrc) := by
  obtain ⟨b1, b2, b3, -, -⟩ := h.bounds
  obtain ⟨-, ht⟩ := h.notFragmented rfl hf
  have hw := h.written rfl
  rw [ht] at hw
  cases hu : c.useCrc with
  | true =>
    have he : c.head.toNat + alpduLen c = c.sduEnd.toNat := by simp only [alpduLen]; omega
    obtain ⟨alpdu, ha⟩ := memRead_of_written (size := fragBufLen) (m := c.buf) (off := c.head.toNat) (n := alpduLen c)
      (.inr (by simp only [fragBufLen]; omega)) (by rw [he]; exact hw)
    obtain ⟨buf, hb⟩ := memWrite_ok_of_le (size := fragBufLen) (m := c.buf) (off := c.sduEnd.toNat)
      (bytes := le32 (crc32 p.crc32 alpdu)) (by simp [le32, fragBufLen]; omega)
    refine ⟨buf, c.nextSeqNb, ?_, memWrite_wf h.bufWf hb, ?_, ?_⟩
    · simp [writeTrailer, hu, ha, hb]
    · refine memWrite_written hb fun a h1 h2 => ?_
      simp only [trlLen, ↓reduceIte] at h2
      by_cases hlt : a < c.sduEnd.toNat
      · exact .inr (hw a h1 hlt)
      · exact .inl ⟨by omega, by simp [le32]; omega⟩
    · have := memWrite_sameOutside hb
      simpa [le32, trlLen] using this
  | false =>
    obtain ⟨buf, hb⟩ := memWrite_ok_of_le (size := fragBufLen) (m := c.buf) (off := c.sduEnd.toNat)
      (bytes := [c.nextSeqNb.setWidth 8]) (by simp [fragBufLen]; omega)
    refine ⟨buf, c.nextSeqNb + 1, ?_, memWrite_wf h.bufWf hb, ?_, ?_⟩
    · simp [writeTrailer, hu, hb]
    · refine memWrite_written hb fun a h1 h2 => ?_
      simp only [trlLen, Bool.false_eq_true, ↓reduceIte] at h2
      by_cases hlt : a < c.sduEnd.toNat
      · exact .inr (hw a h1 hlt)
      · exact .inl ⟨by omega, by simp; omega⟩
    · have := memWrite_sameOutside hb
      simpa [trlLen] using this

theorem trlLen_le (b : Bool) : 1 ≤ trlLen b ∧ trlLen b ≤ 4 := by cases b <;> simp [trlLen]

/-- `1 <= n < A` of a START (spec/44 R245). -/
theorem startLen_bounds {t : Tx} {f : Fid} {burst : Nat} (hc : ¬ compFits t f burst) (hb : 5 ≤ burst) :
    1 ≤ startLen burst ∧ startLen burst < alpduLen (txCtx t f) ∧ startLen burst ≤ ppduLenMax ∧
      startLen burst + 4 ≤ burst := by
  simp only [compFits, startLen, ppduLenMax] at *
  omega

/-- The context a START leaves meets the invariant. -/
theorem startedTx_inv {t : Tx} {f : Fid} {burst : Nat} {buf : Mem} {seq : SeqNb} (h : TxCtxInv true (txCtx t f))
    (hc : ¬ compFits t f burst) (hb : 5 ≤ burst) (hwf : Mem.wf fragBufLen buf = true)
    (hwr : Written buf (txCtx t f).head.toNat ((txCtx t f).sduEnd.toNat + trlLen (txCtx t f).useCrc)) :
    TxCtxInv true
      { txCtx t f with
        buf := buf
        nextSeqNb := seq
        tail := index ((txCtx t f).sduEnd.toNat + trlLen (txCtx t f).useCrc)
        cursor := index ((txCtx t f).head.toNat + startLen burst)
        isFragmented := true
        fragCount := 1 } := by
  obtain ⟨b1, b2, b3, -, -⟩ := h.bounds
  obtain ⟨n1, n2, -, -⟩ := startLen_bounds hc hb
  obtain ⟨l1, l2⟩ := trlLen_le (txCtx t f).useCrc
  simp only [alpduLen] at n2
  have hcur : (index ((txCtx t f).head.toNat + startLen burst)).toNat = (txCtx t f).head.toNat + startLen burst :=
    index_toNat (by omega)
  have htl : (index ((txCtx t f).sduEnd.toNat + trlLen (txCtx t f).useCrc)).toNat =
      (txCtx t f).sduEnd.toNat + trlLen (txCtx t f).useCrc := index_toNat (by omega)
  exact
    { bufWf := hwf
      sduStartIs3 := h.sduStartIs3
      headLe := b1
      sduEndGe := b2
      sduEndLe := h.sduEndLe
      tailGe := by simp only [htl]; omega
      tailLen := by
        simp only [htl]
        cases (txCtx t f).useCrc <;> simp [trlLen]
      cursorGe := by simp only [hcur]; omega
      cursorLe := by simp only [hcur, htl]; omega
      busyIsCopied := h.busyIsCopied
      fragmented := fun _ => ⟨rfl, by simp only [hcur]; omega, by simp only [hcur]; omega, htl⟩
      notFragmented := by simp
      free := by simp
      sduLenIs := h.sduLenIs
      written := fun _ => by simp only [htl]; exact hwr }

theorem contLen_bounds {t : Tx} {f : Fid} {burst : Nat} :
    contLen t f burst ≤ remAlpdu (txCtx t f) ∧ contLen t f burst ≤ ppduLenMax ∧ contLen t f burst ≤ burst - 2 := by
  simp only [contLen]; omega

/-- The context a CONT leaves meets the invariant. -/
theorem contTx_inv {t : Tx} {f : Fid} {burst : Nat} (h : TxCtxInv true (txCtx t f))
    (hf : (txCtx t f).isFragmented = true) :
    TxCtxInv true
      { txCtx t f with
        cursor := index ((txCtx t f).cursor.toNat + contLen t f burst)
        fragCount := (txCtx t f).fragCount + 1 } := by
  obtain ⟨-, g1, g2, g3⟩ := h.fragmented hf
  obtain ⟨l1, -, -⟩ := contLen_bounds (t := t) (f := f) (burst := burst)
  have b3 := h.bounds.2.2.1
  simp only [remAlpdu] at l1
  have hcur : (index ((txCtx t f).cursor.toNat + contLen t f burst)).toNat =
      (txCtx t f).cursor.toNat + contLen t f burst := index_toNat (by omega)
  exact
    { bufWf := h.bufWf
      sduStartIs3 := h.sduStartIs3
      headLe := h.headLe
      sduEndGe := h.sduEndGe
      sduEndLe := h.sduEndLe
      tailGe := h.tailGe
      tailLen := h.tailLen
      cursorGe := by simp only [hcur]; omega
      cursorLe := by simp only [hcur]; omega
      busyIsCopied := h.busyIsCopied
      fragmented := fun _ => ⟨rfl, by simp only [hcur]; omega, by simp only [hcur]; omega, g3⟩
      notFragmented := by simp [hf]
      free := by simp
      sduLenIs := h.sduLenIs
      written := h.written }

/-- An EMIT keeps the transmitter's invariant. -/
theorem emit_inv {p : Config.Params} {t : Tx} {f : Fid} {burst : Nat} {e : Emission} (h : TxInv t)
    (he : emit p t f burst = .ok e) : TxInv e.tx := by
  cases emit_cases he with
  | nullTrmt | nInitBuf | timeout | firstTooSmall | laterTooSmall => exact h
  | comp hr | tooMuchFrag hr | endPpdu hr => exact txInv_release h hr.configured _ _
  | start hr hf hc hb c hw payload hp =>
    have hi := h.ctx f
    rw [hr.busy] at hi
    obtain ⟨buf, seq, hw', hwf, hwr, -⟩ := writeTrailer_inv (p := p) hi hf
    rw [hw'] at hw
    obtain rfl := Except.ok.inj hw
    refine txInv_of_sameBut h (setTxCtx_sameBut t f _) (by simp) hr.configured ?_
    rw [txCtx_setTxCtx_same, setTxCtx_busy, hr.busy]
    exact startedTx_inv hi hc hb hwf hwr
  | cont hr hf hb hn hl hm payload hp =>
    have hi := h.ctx f
    rw [hr.busy] at hi
    refine txInv_of_sameBut h (setTxCtx_sameBut t f _) (by simp) hr.configured ?_
    rw [txCtx_setTxCtx_same, setTxCtx_busy, hr.busy]
    exact contTx_inv hi hf

/-- Under the invariant an EMIT answers. -/
theorem emit_total {p : Config.Params} {t : Tx} (h : TxInv t) (f : Fid) (burst : Nat) :
    ∃ e, emit p t f burst = .ok e := by
  by_cases hcfg : t.configured = true
  swap
  · exact ⟨_, emit_of_case (.nullTrmt (by simpa using hcfg))⟩
  have hinit : (txCtx t f).initialised = true := by rw [h.initialisedIs]; exact hcfg
  by_cases hbusy : busyBit t.busy f = true
  swap
  · exact ⟨_, emit_of_case (.timeout hcfg hinit (by simpa using hbusy))⟩
  have hr : EmitReady t f := ⟨hcfg, hinit, hbusy⟩
  have hi := h.ctx f
  rw [hbusy] at hi
  obtain ⟨b1, b2, b3, b4, b5⟩ := hi.bounds
  have hw := hi.written rfl
  by_cases hf : (txCtx t f).isFragmented = true
  · obtain ⟨-, g1, g2, g3⟩ := hi.fragmented hf
    by_cases hb : burst < 3
    · exact ⟨_, emit_of_case (.laterTooSmall hr hf (.inl hb))⟩
    by_cases he : endFits t f burst
    · by_cases hm : fragCapReached p (txCtx t f) = true
      · exact ⟨_, emit_of_case (.tooMuchFrag hr hf (by omega) (.inl he) hm)⟩
      · have hrem : (txCtx t f).cursor.toNat + remTotal (txCtx t f) = (txCtx t f).tail.toNat := by
          simp only [remTotal, remAlpdu]; omega
        obtain ⟨payload, hp⟩ := memRead_of_written (size := fragBufLen) (m := (txCtx t f).buf) (off := (txCtx t f).cursor.toNat)
          (n := remTotal (txCtx t f)) (.inr (by simp only [fragBufLen]; omega))
          (by rw [hrem]; exact fun a h1 h2 => hw a (by omega) h2)
        exact ⟨_, emit_of_case (.endPpdu hr hf (by omega) he (by simpa using hm) payload hp)⟩
    · by_cases hz : contLen t f burst = 0
      · exact ⟨_, emit_of_case (.laterTooSmall hr hf (.inr ⟨he, hz⟩))⟩
      by_cases hm : fragCapReached p (txCtx t f) = true
      · exact ⟨_, emit_of_case (.tooMuchFrag hr hf (by omega) (.inr (by omega)) hm)⟩
      · obtain ⟨l1, -, -⟩ := contLen_bounds (t := t) (f := f) (burst := burst)
        simp only [remAlpdu] at l1
        obtain ⟨payload, hp⟩ := memRead_of_written (size := fragBufLen) (m := (txCtx t f).buf) (off := (txCtx t f).cursor.toNat)
          (n := contLen t f burst) (.inr (by simp only [fragBufLen]; omega))
          (fun a h1 h2 => hw a (by omega) (by omega))
        exact ⟨_, emit_of_case (.cont hr hf (by omega) he (by omega) (by simpa using hm) payload hp)⟩
  · have hf' : (txCtx t f).isFragmented = false := by simpa using hf
    obtain ⟨-, ht⟩ := hi.notFragmented rfl hf'
    by_cases hc : compFits t f burst
    · have hlen : (txCtx t f).head.toNat + alpduLen (txCtx t f) = (txCtx t f).sduEnd.toNat := by
        simp only [alpduLen]; omega
      obtain ⟨payload, hp⟩ := memRead_of_written (size := fragBufLen) (m := (txCtx t f).buf) (off := (txCtx t f).head.toNat)
        (n := alpduLen (txCtx t f)) (.inr (by simp only [fragBufLen]; omega))
        (by rw [hlen]; rw [ht] at hw; exact hw)
      exact ⟨_, emit_of_case (.comp hr hf' hc payload hp)⟩
    · by_cases hb : burst < 5
      · exact ⟨_, emit_of_case (.firstTooSmall hr hf' hc hb)⟩
      · obtain ⟨buf, seq, hw', -, hwr, -⟩ := writeTrailer_inv (p := p) hi hf'
        obtain ⟨n1, n2, -, -⟩ := startLen_bounds hc (by omega : 5 ≤ burst)
        simp only [alpduLen] at n2
        obtain ⟨payload, hp⟩ := memRead_of_written (size := fragBufLen) (m := buf) (off := (txCtx t f).head.toNat)
          (n := startLen burst) (.inr (by simp only [fragBufLen]; omega))
          (fun a h1 h2 => hwr a h1 (by omega))
        exact ⟨_, emit_of_case (.start hr hf' hc (by omega) _ hw' payload hp)⟩

end Sys2Proof.Machine
end

