-- ==== Sys2Proof/Laws/RxInv.lean ====
section
/-! SUPPORT. The receiver's invariant (spec/10 R56, R57): every wire unit keeps it, and under it no buffer access
faults (spec/20 R80). -/

namespace Sys2Proof.Machine

open Host (Outcome)

variable {size w : Nat}

/-! ### The unit's operations -/

theorem RxCtxInv.congr {busy : Bool} {c c' : RxCtx} (h : RxCtxInv size busy c) (hb : c'.buf = c.buf)
    (ht : c'.totalLen = c.totalLen) (hr : c'.bytesReceived = c.bytesReceived) (hu : c'.burstBytes = c.burstBytes) :
    RxCtxInv size busy c' :=
  ⟨hb ▸ h.bufWf, by rw [hr, ht]; exact h.receivedLe, by rw [hr, hu]; exact h.burstLe, by
    rw [hb, hr]; exact h.written⟩

theorem RxCtxInv.free {c : RxCtx} (h : Mem.wf size c.buf = true) : RxCtxInv size false c :=
  ⟨h, by simp, by simp, by simp⟩

theorem rxInv_countRx {r : Rx} (h : RxInv size r) (f : Option Fid) (d : Counters) : RxInv size (countRx w r f d) where
  cfgOk := by simpa using h.cfgOk
  freeUnconfigured := by simpa using h.freeUnconfigured
  ctx g := by
    obtain ⟨cnt, hc⟩ := rxCtx_countRx (w := w) r f d g
    rw [hc, countRx_busy]
    exact (h.ctx g).congr rfl rfl rfl rfl

theorem rxInv_releaseRx {r : Rx} (h : RxInv size r) (f : Fid) : RxInv size (releaseRx r f) where
  cfgOk := h.cfgOk
  freeUnconfigured hc := by
    simp only [releaseRx_configured] at hc
    simp [releaseRx_busy, h.freeUnconfigured hc, clearBusy]
  ctx g := by
    by_cases hg : g = f
    · subst hg
      rw [releaseRx_busy, busyBit_clearBusy_same]
      exact .free (h.ctx g).bufWf
    · rw [releaseRx_busy, busyBit_clearBusy_ne _ hg]
      exact h.ctx g

theorem rxInv_setRxCtx {r : Rx} (h : RxInv size r) {f : Fid} {c : RxCtx} (hc : RxCtxInv size (busyBit r.busy f) c) :
    RxInv size (setRxCtx r f c) where
  cfgOk := h.cfgOk
  freeUnconfigured := h.freeUnconfigured
  ctx g := by
    by_cases hg : g = f
    · subst hg; rw [rxCtx_setRxCtx_same]; exact hc
    · rw [rxCtx_setRxCtx_ne _ _ hg]; exact h.ctx g

theorem rxInv_setOff {s : State} (h : RxInv size s.rx) (v : Nat) : RxInv size (setOff v s).rx :=
  ⟨h.cfgOk, h.freeUnconfigured, h.ctx⟩

theorem rxInv_clearBursts {r : Rx} (h : RxInv size r) : RxInv size (clearBursts r) where
  cfgOk := h.cfgOk
  freeUnconfigured := h.freeUnconfigured
  ctx g := by
    rw [rxCtx_clearBursts, clearBursts_busy]
    exact ⟨(h.ctx g).bufWf, (h.ctx g).receivedLe, fun _ => Nat.zero_le _, (h.ctx g).written⟩

theorem rxInv_takeDrop {s : State} (h : RxInv size s.rx) (f : Option Fid) (x : DropReason) (len prior : Nat) :
    RxInv size (takeDrop f x len prior s).rx := by
  cases f with
  | none => rw [takeDrop_none_rx]; exact rxInv_countRx h _ _
  | some f => rw [takeDrop_some_rx]; exact rxInv_releaseRx (rxInv_countRx h _ _) _

/-! ### The scan -/

theorem hasDrop_append (l : List Event) (e : Event) :
    hasDrop (l ++ [e]) = (hasDrop l || hasDrop [e]) := by simp only [hasDrop, List.any_append]

@[simp] theorem hasDrop_drop (f : Option Fid) (x : DropReason) : hasDrop [.drop f x] = true := rfl
@[simp] theorem hasDrop_frag (f : Fid) : hasDrop [.frag f] = false := rfl
@[simp] theorem hasDrop_sdu (f : Option Fid) (ptype : Ptype) (sdu : Bytes) : hasDrop [.sdu f ptype sdu] = false := rfl

/-- What every round of the scan keeps: the receiver's and the scan's invariant. -/
structure RxScanInv (s : State) : Prop where
  rx : RxInv s.params.rasmBufLen s.rx
  scan : ScanInv s.rx s.scan

theorem RxScanInv.idle {s : State} (h : RxInv s.params.rasmBufLen s.rx) (hs : s.scan = Scan.idle) : RxScanInv s :=
  ⟨h, by rw [hs]; exact ⟨fun _ => rfl, fun hn => absurd rfl hn, fun hn => absurd rfl hn, rfl, trivial⟩⟩

theorem finishScan_inv {s : State} (h : RxInv s.params.rasmBufLen s.rx) : RxScanInv (finishScan s) := .idle h rfl

theorem endTruncated_inv {s : State} (h : RxInv s.params.rasmBufLen s.rx) : RxScanInv (endTruncated s) :=
  finishScan_inv (by rw [takeTruncated_rx]; exact rxInv_countRx h _ _)

/-- A state of the scan at a PPDU header whose registers and events are in order. -/
theorem RxScanInv.header {s : State} (h : RxInv s.params.rasmBufLen s.rx) (hp : s.scan.phase = .header) (hc : s.rx.configured = true)
    (ho : s.rx.off ≤ s.scan.fpdu.length) (he : s.scan.err = hasDrop s.scan.events) : RxScanInv s :=
  ⟨h, ⟨by simp [hp], fun _ => hc, fun _ => ho, he, by simp [hp, phaseBusy]⟩⟩

/-- The payload of a PPDU (spec/46 R305, R306): its length, its bound, its bytes. -/
theorem payloadAt_cases (s : State) (hl len : Nat) :
    (payloadAt s hl len = none ∧ s.scan.fpdu.length < s.rx.off + hl + len) ∨
    (∃ payload, payloadAt s hl len = some payload ∧ s.rx.off + hl + len ≤ s.scan.fpdu.length ∧
      payload.length = len ∧ payload = (s.scan.fpdu.drop (s.rx.off + hl)).take len) := by
  unfold payloadAt
  split
  · next h => exact .inr ⟨_, rfl, h, by simp; omega, rfl⟩
  · next h => exact .inl ⟨rfl, by omega⟩

theorem arrive_rx (f : Option Fid) (a : Bool) (hl len : Nat) (s : State) :
    (arrive f a hl len s).rx = { countRx s.params.cntW s.rx f (arrivalCounters a len) with off := s.rx.off + hl + len } := rfl
@[simp] theorem arrive_scan (f : Option Fid) (a : Bool) (hl len : Nat) (s : State) :
    (arrive f a hl len s).scan = s.scan := rfl
@[simp] theorem arrive_tx (f : Option Fid) (a : Bool) (hl len : Nat) (s : State) :
    (arrive f a hl len s).tx = s.tx := rfl
@[simp] theorem arrive_host (f : Option Fid) (a : Bool) (hl len : Nat) (s : State) :
    (arrive f a hl len s).host = s.host := rfl
@[simp] theorem arrive_params (f : Option Fid) (a : Bool) (hl len : Nat) (s : State) :
    (arrive f a hl len s).params = s.params := rfl
@[simp] theorem arrive_busy (f : Option Fid) (a : Bool) (hl len : Nat) (s : State) :
    (arrive f a hl len s).rx.busy = s.rx.busy := by simp [arrive_rx]
@[simp] theorem arrive_configured (f : Option Fid) (a : Bool) (hl len : Nat) (s : State) :
    (arrive f a hl len s).rx.configured = s.rx.configured := by simp [arrive_rx]
@[simp] theorem arrive_cfg (f : Option Fid) (a : Bool) (hl len : Nat) (s : State) :
    (arrive f a hl len s).rx.cfg = s.rx.cfg := by simp [arrive_rx]
@[simp] theorem arrive_off (f : Option Fid) (a : Bool) (hl len : Nat) (s : State) :
    (arrive f a hl len s).rx.off = s.rx.off + hl + len := rfl
theorem arrive_ctx (f : Option Fid) (a : Bool) (hl len : Nat) (s : State) (g : Fid) :
    rxCtx (arrive f a hl len s).rx g = rxCtx (countRx s.params.cntW s.rx f (arrivalCounters a len)) g := rfl

/-- An arrived PPDU leaves a context's registers as they were, but for its counters. -/
theorem arrive_ctx_cnt (f : Option Fid) (a : Bool) (hl len : Nat) (s : State) (g : Fid) :
    ∃ cnt, rxCtx (arrive f a hl len s).rx g = { rxCtx s.rx g with cnt := cnt } :=
  rxCtx_countRx s.rx f _ g

theorem rxInv_arrive {s : State} (h : RxInv size s.rx) (f : Option Fid) (a : Bool) (hl len : Nat) :
    RxInv size (arrive f a hl len s).rx :=
  ⟨(rxInv_countRx (w := s.params.cntW) h f (arrivalCounters a len)).cfgOk, (rxInv_countRx (w := s.params.cntW) h f (arrivalCounters a len)).freeUnconfigured,
    (rxInv_countRx (w := s.params.cntW) h f (arrivalCounters a len)).ctx⟩

/-- A drop at a PPDU header position keeps the scan going. -/
theorem takeDrop_header_inv {s : State} (h : RxInv s.params.rasmBufLen s.rx) (hp : s.scan.phase = .header)
    (hc : s.rx.configured = true) (ho : s.rx.off ≤ s.scan.fpdu.length) (f : Option Fid) (x : DropReason)
    (len prior : Nat) : RxScanInv (takeDrop f x len prior s) := by
  refine .header (by simpa using rxInv_takeDrop h f x len prior) ?_ ?_ ?_ ?_
  · simp [hp]
  · simpa using hc
  · simpa using ho
  · simp [hasDrop_append]

theorem takeDrop_then_header_inv {s : State} (h : RxInv s.params.rasmBufLen s.rx) (hc : s.rx.configured = true)
    (ho : s.rx.off ≤ s.scan.fpdu.length) (f : Option Fid) (x : DropReason)
    (len prior : Nat) : RxScanInv (setPhase .header (takeDrop f x len prior s)) := by
  refine .header (by simpa using rxInv_takeDrop h f x len prior) ?_ ?_ ?_ ?_
  · simp
  · simpa using hc
  · simpa using ho
  · simp [hasDrop_append]

@[simp] theorem deliverSdu_params (f : Option Fid) (ptype : Ptype) (sdu : Bytes) (s : State) :
    (deliverSdu f ptype sdu s).params = s.params := rfl

theorem deliverSdu_rx (f : Option Fid) (ptype : Ptype) (sdu : Bytes) (s : State) :
    (deliverSdu f ptype sdu s).rx = releaseDelivered f (countRx s.params.cntW s.rx f (deliveredCounters sdu.length)) := rfl

theorem rxInv_releaseDelivered {r : Rx} (h : RxInv size r) (f : Option Fid) : RxInv size (releaseDelivered f r) := by
  cases f with
  | none => exact h
  | some f => exact rxInv_releaseRx h f

theorem releaseDelivered_same (f : Option Fid) (r : Rx) :
    (releaseDelivered f r).configured = r.configured ∧ (releaseDelivered f r).cfg = r.cfg ∧
      (releaseDelivered f r).off = r.off ∧ (releaseDelivered f r).ctx = r.ctx ∧
      (releaseDelivered f r).agg = r.agg := by cases f <;> exact ⟨rfl, rfl, rfl, rfl, rfl⟩

/-- The end of a delivery keeps the invariant. -/
theorem deliver_inv {s : State} (h : RxScanInv s) (hn : s.scan.phase ≠ .idle) (f : Option Fid) (r : Expanded)
    (len prior : Nat) : RxScanInv (deliver f r len prior s) := by
  have hc := h.scan.configured hn
  have ho := h.scan.offLe hn
  unfold deliver
  split
  · exact takeDrop_then_header_inv h.rx hc ho f _ len prior
  · split
    · exact takeDrop_then_header_inv h.rx hc ho f _ len prior
    · next ptype sdu _ =>
      obtain ⟨e1, -, e3, -, -⟩ :=
        releaseDelivered_same f (countRx s.params.cntW s.rx f (deliveredCounters sdu.length))
      refine .header ?_ rfl ?_ ?_ ?_
      · simpa [deliverSdu_rx] using rxInv_releaseDelivered (rxInv_countRx h.rx f _) f
      · simpa [deliverSdu_rx, e1] using hc
      · simp only [setPhase_rx, deliverSdu_rx, e3, countRx_off]
        exact ho
      · simp only [setPhase_err, setPhase_events]
        change s.scan.err = hasDrop (s.scan.events ++ [_])
        rw [hasDrop_append, h.scan.errIs]
        simp

/-- The trailer is good: the ALPDU's context is still in progress. -/
theorem trailerGood_inv {s : State} (h : RxInv s.params.rasmBufLen s.rx) (hc : s.rx.configured = true)
    (ho : s.rx.off ≤ s.scan.fpdu.length) (he : s.scan.err = hasDrop s.scan.events) {f : Fid}
    (hb : busyBit s.rx.busy f = true) (alpdu : Bytes) (len prior : Nat) :
    RxScanInv (trailerGood f alpdu len prior s) :=
  ⟨h, ⟨fun hp => by simp [trailerGood] at hp, fun _ => hc, fun _ => ho, he, fun g hg => by
    obtain rfl := Option.some.inj hg; exact hb⟩⟩

end Sys2Proof.Machine
end

