-- ==== Sys2Proof/Laws/Units.lean ====
section
/-! SUPPORT. Every wire unit, executed where it stands, answers a next state that keeps the receiver's invariant;
elsewhere it is refused by name. So a DECAP never faults (spec/20 R80) and keeps the invariant. -/

namespace Sys2Proof.Machine

open Host (Outcome)

variable {size w : Nat}

/-- The outcome is a next state that meets the invariant, or the refusal of a unit that is out of place. -/
def KeepsRx (o : Outcome State Fault Refusal) : Prop :=
  (∃ t, o = .next t ∧ RxScanInv t) ∨ o = .refused .unitOutOfPlace

theorem keepsRx_next {t : State} (h : RxScanInv t) : KeepsRx (.next t) := .inl ⟨t, rfl, h⟩

/-- The state after a PPDU has been routed, its payload inside the FPDU. -/
theorem arrive_header {s : State} (h : RxScanInv s) (hp : s.scan.phase = .header) (f : Option Fid) (a : Bool)
    {hl len : Nat} (hb : s.rx.off + hl + len ≤ s.scan.fpdu.length) :
    RxInv (arrive f a hl len s).params.rasmBufLen (arrive f a hl len s).rx ∧ (arrive f a hl len s).scan.phase = .header ∧
      (arrive f a hl len s).rx.configured = true ∧
      (arrive f a hl len s).rx.off ≤ (arrive f a hl len s).scan.fpdu.length ∧
      (arrive f a hl len s).scan.err = hasDrop (arrive f a hl len s).scan.events :=
  ⟨rxInv_arrive h.rx f a hl len, hp, by
    simpa using h.scan.configured (by rw [hp]; simp), hb, h.scan.errIs⟩

theorem execPad_keeps {s : State} (h : RxScanInv s) : KeepsRx (execPad s) := by
  unfold execPad
  split
  · exact keepsRx_next (finishScan_inv h.rx)
  all_goals exact .inr rfl

theorem execComp_keeps {s : State} (h : RxScanInv s) (lt : LabelType) (pts : Bool) (length : BitVec 11) :
    KeepsRx (execComp lt pts length s) := by
  unfold execComp
  split
  · next hp =>
    obtain ⟨hn, -⟩ | ⟨payload, hs, hb, -, -⟩ := payloadAt_cases s 2 length.toNat
    · rw [hn]; exact keepsRx_next (endTruncated_inv h.rx)
    · rw [hs]
      obtain ⟨i1, i2, i3, i4, i5⟩ := arrive_header h hp none true hb
      simp only
      split
      · exact keepsRx_next (takeDrop_header_inv i1 i2 i3 i4 _ _ _ _)
      · exact keepsRx_next ⟨i1, ⟨by simp, fun _ => i3, fun _ => i4, i5, by simp [phaseBusy]⟩⟩
  all_goals exact .inr rfl

/-- A context that has just been written to keeps the receiver's invariant: `n` bytes at its end. -/
theorem appended_inv {c : RxCtx} {buf : Mem} {payload : Bytes} {n : Nat} (h : RxCtxInv size true c)
    (hn : payload.length = n) (hle : c.bytesReceived.toNat + n ≤ c.totalLen.toNat)
    (hw : memWrite size c.buf c.bytesReceived.toNat payload = .ok buf) : RxCtxInv size true (appendedCtx c buf n) := by
  have hT := c.totalLen.isLt
  have e1 : (index (c.bytesReceived.toNat + n)).toNat = c.bytesReceived.toNat + n := index_toNat (by omega)
  have hb := h.burstLe rfl
  have e2 : (c.burstBytes + index n).toNat = c.burstBytes.toNat + n := by
    rw [BitVec.toNat_add, index_toNat (by omega), Nat.mod_eq_of_lt (by omega)]
  refine ⟨memWrite_wf h.bufWf hw, fun _ => ?_, fun _ => ?_, fun _ => ?_⟩
  · simp only [appendedCtx, e1]; exact hle
  · simp only [appendedCtx, e1, e2]; omega
  · simp only [appendedCtx, e1]
    refine memWrite_written hw fun a _ h2 => ?_
    by_cases ha : a < c.bytesReceived.toNat
    · exact .inr (h.written rfl a (Nat.zero_le _) ha)
    · exact .inl ⟨by omega, by omega⟩

theorem started_inv {c : RxCtx} {buf : Mem} {payload : Bytes} (lt : LabelType) (pts : Bool) {totalLen : Index}
    (useCrc : Bool) (h : Mem.wf size c.buf = true) (hle : payload.length ≤ totalLen.toNat)
    (hw : memWrite size c.buf 0 payload = .ok buf) :
    RxCtxInv size true (startedCtx c buf lt pts payload.length totalLen useCrc) := by
  have hT := totalLen.isLt
  have e1 : (index payload.length).toNat = payload.length := index_toNat (by omega)
  refine ⟨memWrite_wf h hw, fun _ => ?_, fun _ => ?_, fun _ => ?_⟩
  · simp only [startedCtx, e1]; exact hle
  · simp [startedCtx]
  · simp only [startedCtx, e1]
    exact memWrite_written hw fun a _ h2 => .inl ⟨Nat.zero_le _, by omega⟩

theorem execStart_keeps {s : State} (h : RxScanInv s) (lt : LabelType) (pts : Bool) (fragLen : BitVec 11)
    (fid : Fid) (totalLen : Index) (useCrc : Bool) :
    KeepsRx (execStart lt pts fragLen fid totalLen useCrc s) := by
  unfold execStart
  split
  · next hp =>
    obtain ⟨hn, -⟩ | ⟨payload, hs, hb, hlen, -⟩ := payloadAt_cases s 4 fragLen.toNat
    · rw [hn]; exact keepsRx_next (endTruncated_inv h.rx)
    · rw [hs]
      obtain ⟨i1, i2, i3, i4, i5⟩ := arrive_header h hp (some fid) true hb
      simp only
      split
      · exact keepsRx_next (takeDrop_header_inv i1 i2 i3 i4 _ _ _ _)
      split
      · exact keepsRx_next (takeDrop_header_inv i1 i2 i3 i4 _ _ _ _)
      split
      · exact keepsRx_next (takeDrop_header_inv i1 i2 i3 i4 _ _ _ _)
      · next hle =>
        have hsize := s.params.rasmBufLen.property
        obtain ⟨buf, hw⟩ := memWrite_ok_of_le (size := s.params.rasmBufLen) (m := (rxCtx (arrive (some fid) true 4 fragLen.toNat s).rx fid).buf)
          (off := 0) (bytes := payload) (by have := fragLen.isLt; omega)
        simp only [acceptStart, arrive_params, hw]
        refine keepsRx_next (.header ?_ i2 i3 i4 ?_)
        · have hset := started_inv lt pts (totalLen := totalLen) useCrc (i1.ctx fid).bufWf (by omega) hw
          refine ⟨i1.cfgOk, ?_, fun g => ?_⟩
          · intro hf; exact absurd (i3.symm.trans hf) (by simp)
          · by_cases hg : g = fid
            · subst hg
              simp only [logEvent_rx, busyBit_setBusy_same]
              change RxCtxInv _ true (rxCtx (setRxCtx _ g _) g)
              rw [rxCtx_setRxCtx_same]; exact hset
            · simp only [logEvent_rx, busyBit_setBusy_ne _ hg]
              change RxCtxInv _ _ (rxCtx (setRxCtx _ fid _) g)
              rw [rxCtx_setRxCtx_ne _ _ hg]; exact i1.ctx g
        · simp only [logEvent_err, logEvent_events, hasDrop_append, hasDrop_frag, Bool.or_false]
          exact i5
  all_goals exact .inr rfl

theorem execCont_keeps {s : State} (h : RxScanInv s) (length : BitVec 11) (fid : Fid) :
    KeepsRx (execCont length fid s) := by
  unfold execCont
  split
  · next hp =>
    obtain ⟨hn, -⟩ | ⟨payload, hs, hb, hlen, -⟩ := payloadAt_cases s 2 length.toNat
    · rw [hn]; exact keepsRx_next (endTruncated_inv h.rx)
    · rw [hs]
      obtain ⟨i1, i2, i3, i4, i5⟩ := arrive_header h hp (some fid) false hb
      simp only
      split
      · exact keepsRx_next (takeDrop_header_inv i1 i2 i3 i4 _ _ _ _)
      next hbusy =>
      split
      · exact keepsRx_next (takeDrop_header_inv i1 i2 i3 i4 _ _ _ _)
      · next hle =>
        have hbusy' : busyBit (arrive (some fid) false 2 length.toNat s).rx.busy fid = true := by simpa using hbusy
        have hT := (rxCtx (arrive (some fid) false 2 length.toNat s).rx fid).totalLen.isLt
        have hi := i1.ctx fid
        rw [hbusy'] at hi
        have hsize := s.params.rasmBufLen.property
        obtain ⟨buf, hw⟩ := memWrite_ok_of_le (size := s.params.rasmBufLen) (m := (rxCtx (arrive (some fid) false 2 length.toNat s).rx fid).buf)
          (off := (rxCtx (arrive (some fid) false 2 length.toNat s).rx fid).bytesReceived.toNat)
          (bytes := payload) (by omega)
        simp only [acceptCont, arrive_params, hw]
        refine keepsRx_next (.header ?_ i2 i3 i4 ?_)
        · refine rxInv_setRxCtx i1 ?_
          rw [hbusy']
          exact appended_inv hi rfl (by omega) hw
        · simp only [logEvent_err, logEvent_events, hasDrop_append, hasDrop_frag, Bool.or_false]
          exact i5
  all_goals exact .inr rfl

theorem execEndPpdu_keeps {s : State} (h : RxScanInv s) (length : BitVec 11) (fid : Fid) :
    KeepsRx (execEndPpdu length fid s) := by
  unfold execEndPpdu
  split
  · next hp =>
    obtain ⟨hn, -⟩ | ⟨payload, hs, hb, hlen, -⟩ := payloadAt_cases s 2 length.toNat
    · rw [hn]; exact keepsRx_next (endTruncated_inv h.rx)
    · rw [hs]
      obtain ⟨i1, i2, i3, i4, i5⟩ := arrive_header h hp (some fid) false hb
      simp only
      split
      · exact keepsRx_next (takeDrop_header_inv i1 i2 i3 i4 _ _ _ _)
      next hbusy =>
      split
      · exact keepsRx_next (takeDrop_header_inv i1 i2 i3 i4 _ _ _ _)
      next hshort =>
      split
      · exact keepsRx_next (takeDrop_header_inv i1 i2 i3 i4 _ _ _ _)
      · next hle =>
        have hbusy' : busyBit (arrive (some fid) false 2 length.toNat s).rx.busy fid = true := by simpa using hbusy
        have hT := (rxCtx (arrive (some fid) false 2 length.toNat s).rx fid).totalLen.isLt
        have hi := i1.ctx fid
        rw [hbusy'] at hi
        simp only [acceptEnd]
        rw [hlen]
        have hsize := s.params.rasmBufLen.property
        obtain ⟨buf, hw⟩ := memWrite_ok_of_le (size := s.params.rasmBufLen) (m := (rxCtx (arrive (some fid) false 2 length.toNat s).rx fid).buf)
          (off := (rxCtx (arrive (some fid) false 2 length.toNat s).rx fid).bytesReceived.toNat)
          (bytes := payload.take (length.toNat -
            trlLen (rxCtx (arrive (some fid) false 2 length.toNat s).rx fid).useCrc))
          (by simp only [List.length_take]; omega)
        have hset := appended_inv hi (n := length.toNat -
            trlLen (rxCtx (arrive (some fid) false 2 length.toNat s).rx fid).useCrc)
            (by simp only [List.length_take]; omega) (by omega) hw
        have hread : ∃ alpdu, memRead s.params.rasmBufLen buf 0
            (rxCtx (arrive (some fid) false 2 length.toNat s).rx fid).totalLen.toNat = .ok alpdu := by
          refine memRead_of_written (.inr (by omega)) ?_
          have := hset.written rfl
          simp only [appendedCtx] at this
          rw [index_toNat (by omega)] at this
          rw [Nat.zero_add]
          exact fun a h1 h2 => this a h1 (by omega)
        obtain ⟨alpdu, hr⟩ := hread
        simp only [arrive_params, hw, hr]
        refine keepsRx_next ⟨?_, ⟨by simp, fun _ => i3, fun _ => i4, i5, ?_⟩⟩
        · refine rxInv_setRxCtx i1 ?_
          rw [hbusy']
          exact hset
        · simpa [phaseBusy] using hbusy'
  all_goals exact .inr rfl

theorem seqRecorded_inv {r : Rx} (h : RxInv size r) (f : Fid) (seq : SeqNb) : RxInv size (seqRecorded r f seq) :=
  rxInv_setRxCtx h ((h.ctx f).congr rfl rfl rfl rfl)

theorem execTrlSeq_keeps {s : State} (h : RxScanInv s) (seq : SeqNb) : KeepsRx (execTrlSeq seq s) := by
  unfold execTrlSeq
  split
  · next f alpdu trl len prior hp =>
    have hne : s.scan.phase ≠ .idle := by rw [hp]; simp
    have hb := h.scan.busyIs
    rw [hp] at hb
    have hr := seqRecorded_inv h.rx f seq
    simp only
    split
    · exact keepsRx_next (trailerGood_inv (s := { s with rx := seqRecorded s.rx f seq }) hr
        (h.scan.configured hne) (h.scan.offLe hne) h.scan.errIs hb _ _ _)
    split
    · exact keepsRx_next (takeDrop_then_header_inv (s := { s with rx := seqRecorded s.rx f seq }) hr
        (h.scan.configured hne) (h.scan.offLe hne) _ _ _ _)
    · refine keepsRx_next (trailerGood_inv
        (s := { s with
          rx := countRx s.params.cntW (seqRecorded s.rx f seq) (some f)
            { pktsLost := (seq - (rxCtx s.rx f).nextExpSeq).toNat } })
        (rxInv_countRx hr (some f) _) ?_ ?_ h.scan.errIs ?_ alpdu len prior)
      · rw [countRx_configured]; exact h.scan.configured hne
      · rw [countRx_off]; exact h.scan.offLe hne
      · rw [countRx_busy]; exact hb
  all_goals exact .inr rfl

theorem execTrlCrc_keeps {s : State} (h : RxScanInv s) (crc : Crc) : KeepsRx (execTrlCrc crc s) := by
  unfold execTrlCrc
  split
  · next f alpdu trl len prior hp =>
    have hne : s.scan.phase ≠ .idle := by rw [hp]; simp
    have hb := h.scan.busyIs
    rw [hp] at hb
    split
    · exact keepsRx_next (trailerGood_inv h.rx (h.scan.configured hne) (h.scan.offLe hne) h.scan.errIs hb _ _ _)
    · exact keepsRx_next (takeDrop_then_header_inv h.rx (h.scan.configured hne) (h.scan.offLe hne) _ _ _ _)
  all_goals exact .inr rfl

theorem execPtOmit_keeps {s : State} (h : RxScanInv s) : KeepsRx (execPtOmit s) := by
  unfold execPtOmit
  split
  · next hp => exact keepsRx_next (deliver_inv h (by rw [hp]; simp) _ _ _ _)
  all_goals exact .inr rfl

theorem execPtComp_keeps {s : State} (h : RxScanInv s) (code : Byte) : KeepsRx (execPtComp code s) := by
  unfold execPtComp
  split
  · next hp => exact keepsRx_next (deliver_inv h (by rw [hp]; simp) _ _ _ _)
  all_goals exact .inr rfl

theorem execPtFallback_keeps {s : State} (h : RxScanInv s) (ptype : Ptype) : KeepsRx (execPtFallback ptype s) := by
  unfold execPtFallback
  split
  · next hp => exact keepsRx_next (deliver_inv h (by rw [hp]; simp) _ _ _ _)
  all_goals exact .inr rfl

theorem execPtUncomp_keeps {s : State} (h : RxScanInv s) (ptype : Ptype) : KeepsRx (execPtUncomp ptype s) := by
  unfold execPtUncomp
  split
  · next hp => exact keepsRx_next (deliver_inv h (by rw [hp]; simp) _ _ _ _)
  all_goals exact .inr rfl

/-- Every unit of a scan keeps the receiver's invariant, and none faults. -/
theorem execUnit_keeps {s : State} (h : RxScanInv s) (i : Instr) : KeepsRx (execUnit i s) := by
  cases i with
  | pad => exact execPad_keeps h
  | comp => exact execComp_keeps h _ _ _
  | start => exact execStart_keeps h _ _ _ _ _ _
  | cont => exact execCont_keeps h _ _
  | endPpdu => exact execEndPpdu_keeps h _ _
  | ptOmit => exact execPtOmit_keeps h
  | ptComp => exact execPtComp_keeps h _
  | ptFallback => exact execPtFallback_keeps h _
  | ptUncomp => exact execPtUncomp_keeps h _
  | trlSeq => exact execTrlSeq_keeps h _
  | trlCrc => exact execTrlCrc_keeps h _
  | txNew | txDestroy | encap | emit | pack | dumpAlpdu | txStat | rxNew | rxDestroy | decap | rxStat | hdrsz
  | reserved12 | reserved13 | reserved14 | reserved15 => exact .inr rfl

theorem dropRouted_inv {s : State} (h : RxScanInv s) (x : DropReason) : RxScanInv (dropRouted x s) := by
  unfold dropRouted
  split
  · next hp =>
    have hne : s.scan.phase ≠ .idle := by rw [hp]; simp
    exact takeDrop_then_header_inv h.rx (h.scan.configured hne) (h.scan.offLe hne) _ _ _ _
  · next hp =>
    have hne : s.scan.phase ≠ .idle := by rw [hp]; simp
    exact takeDrop_then_header_inv h.rx (h.scan.configured hne) (h.scan.offLe hne) _ _ _ _
  all_goals exact h

theorem onDecodeError_inv {s : State} (h : RxScanInv s) (e : DecodeError) : RxScanInv (onDecodeError e s) := by
  cases e with
  | endOfFpdu | notACommandCode => exact finishScan_inv h.rx
  | truncatedHeader => exact endTruncated_inv h.rx
  | ptypeFieldTooShort | trailerTooShort => exact dropRouted_inv h _

end Sys2Proof.Machine
end

