-- ==== Sys2Proof/Laws/Decap.lean ====
section
/-! SUPPORT. The scan of a DECAP: what it fetches is a unit of its phase, every round answers, the rounds run out
only after the scan has ended, and the result is the response (spec/46 R306, R307, spec/47 R321, R352). -/

namespace Sys2Proof.Machine

open Host (Outcome)

/-! ### What is fetched -/

/-- A header position gives a PPDU header, an END a trailer, an ALPDU its header form. -/
def UnitOf (p : ScanPhase) (i : Instr) : Prop :=
  match p with
  | .idle => False
  | .header => (siteOf i) = .ppdu
  | .trailer .. => ∃ b, siteOf i = .trailer b
  | .alpdu .. => ∃ a b, siteOf i = .alpduHdr a b

theorem decodePpdu_site {l : Config.PpduLayout} {bytes rest : Bytes} {i : Instr} (h : decodePpduWith l bytes = .ok (i, rest)) :
    siteOf i = .ppdu := by
  unfold decodePpduWith at h
  split at h
  · cases h
  · split at h
    · cases h; rfl
    · split at h
      · split at h
        · cases h; rfl
        · cases h
      · split at h
        · cases h
          unfold unpackShort
          split
          · rfl
          · split <;> rfl
        · cases h

theorem decodeTrailer_site {b : Bool} {bytes rest : Bytes} {i : Instr} (h : decodeTrailer b bytes = .ok (i, rest)) :
    ∃ c, siteOf i = .trailer c := by
  unfold decodeTrailer at h
  split at h
  · split at h
    · cases h; exact ⟨_, rfl⟩
    · cases h
  · split at h
    · cases h; exact ⟨_, rfl⟩
    · cases h

theorem decodeAlpduHdr_site {p u : Bool} {bytes rest : Bytes} {i : Instr}
    (h : decodeAlpduHdr p u bytes = .ok (i, rest)) : ∃ a b, siteOf i = .alpduHdr a b := by
  unfold decodeAlpduHdr at h
  split at h
  · cases h; exact ⟨_, _, rfl⟩
  · split at h
    · split at h
      · cases h
      · split at h
        · split at h
          · cases h; exact ⟨_, _, rfl⟩
          · cases h
        · cases h; exact ⟨_, _, rfl⟩
    · split at h
      · cases h; exact ⟨_, _, rfl⟩
      · cases h

theorem map_fst_ok {x : Except DecodeError (Instr × Bytes)} {i : Instr} (h : x.map (fun r => r.1) = .ok i) :
    ∃ rest, x = .ok (i, rest) := by
  cases x with
  | error e => cases h
  | ok r => cases h; exact ⟨r.2, rfl⟩

theorem fetchUnit_unitOf {s : State} {i : Instr} (h : fetchUnit s = .ok i) : UnitOf s.scan.phase i := by
  unfold fetchUnit at h
  split at h
  · cases h
  · next hp => obtain ⟨rest, hr⟩ := map_fst_ok h; rw [hp]; exact decodePpdu_site hr
  · next hp => obtain ⟨rest, hr⟩ := map_fst_ok h; rw [hp]; exact decodeTrailer_site hr
  · next hp => obtain ⟨rest, hr⟩ := map_fst_ok h; rw [hp]; exact decodeAlpduHdr_site hr

/-- Inside a DECAP the step's unit is the scan's unit. -/
theorem exec_eq_execUnit {s : State} {i : Instr} (h : UnitOf s.scan.phase i) : exec i s = execUnit i s := by
  cases i with
  | pad | comp | start | cont | endPpdu | ptOmit | ptComp | ptFallback | ptUncomp | trlSeq | trlCrc => rfl
  | txNew | txDestroy | encap | emit | pack | dumpAlpdu | txStat | rxNew | rxDestroy | decap | rxStat | hdrsz
  | reserved12 | reserved13 | reserved14 | reserved15 =>
    revert h
    cases s.scan.phase <;> simp [UnitOf, siteOf]

theorem unitStep_eq_scanStep (s : State) : unitStep s = scanStep s := by
  cases h : fetchUnit s with
  | ok i => simp only [unitStep, scanStep, h]; exact exec_eq_execUnit (fetchUnit_unitOf h)
  | error e => simp only [unitStep, scanStep, h]

/-! ### Progress -/

/-- What is left of a scan: three rounds for a byte of the FPDU, and the rounds of the PPDU in hand. -/
def scanLeft (s : State) : Nat :=
  match s.scan.phase with
  | .idle => 0
  | .header => 3 * (s.scan.fpdu.length - s.rx.off) + 3
  | .alpdu .. => 3 * (s.scan.fpdu.length - s.rx.off) + 4
  | .trailer .. => 3 * (s.scan.fpdu.length - s.rx.off) + 5

/-- What a round of the scan leaves alone: the transmitter, the parameters, the FPDU until the scan ends, the
host's queue and owners, and the response until the scan ends. -/
structure RoundFrame (s t : State) : Prop where
  untouched : TxUntouched s t
  producer : t.host.producer = s.host.producer
  configured : t.rx.configured = s.rx.configured
  cfg : t.rx.cfg = s.rx.cfg
  ends : t.scan.phase = .idle → ∃ r, t.host.response = some r ∧
    (r = { status := .ok, events := r.events } ∧ hasDrop r.events = false ∨
      r = { status := .err, events := r.events } ∧ hasDrop r.events = true)
  runs : t.scan.phase ≠ .idle → t.scan.fpdu = s.scan.fpdu ∧ t.host.response = s.host.response

/-- One round: a next state, less of the scan left. -/
structure RoundOk (s t : State) : Prop where
  inv : RxScanInv t
  frame : RoundFrame s t
  less : scanLeft t < scanLeft s

theorem finishScan_frame {s s' : State} (he : s'.scan.err = hasDrop s'.scan.events) (ht : s'.tx = s.tx)
    (hp : s'.params = s.params) (hh : s'.host = s.host) (hc : s'.rx.configured = s.rx.configured)
    (hg : s'.rx.cfg = s.rx.cfg) : RoundFrame s (finishScan s') where
  untouched := ⟨ht, hp, by simp [hh], by simp [hh]⟩
  producer := by simp [hh]
  configured := hc
  cfg := hg
  ends _ := by
    refine ⟨_, finishScan_response s', ?_⟩
    cases hd : hasDrop s'.scan.events with
    | true => right; simp [he, hd]
    | false => left; simp [he, hd]
  runs h := absurd rfl h

theorem finishScan_roundOk {s s' : State} (h : RxInv s'.params.rasmBufLen s'.rx) (hl : 0 < scanLeft s)
    (he : s'.scan.err = hasDrop s'.scan.events) (ht : s'.tx = s.tx) (hp : s'.params = s.params)
    (hh : s'.host = s.host) (hc : s'.rx.configured = s.rx.configured) (hg : s'.rx.cfg = s.rx.cfg) :
    RoundOk s (finishScan s') :=
  ⟨finishScan_inv h, finishScan_frame he ht hp hh hc hg, hl⟩

theorem endTruncated_roundOk {s : State} (h : RxScanInv s) (hl : 0 < scanLeft s) : RoundOk s (endTruncated s) :=
  finishScan_roundOk (by rw [takeTruncated_rx]; exact rxInv_countRx h.rx _ _) hl
    (by simp [hasDrop_append]) rfl rfl rfl (by simp) (by simp)

theorem running_frame {s t : State} (hn : t.scan.phase ≠ .idle) (hf : t.scan.fpdu = s.scan.fpdu) (ht : t.tx = s.tx)
    (hp : t.params = s.params) (hh : t.host = s.host) (hc : t.rx.configured = s.rx.configured)
    (hg : t.rx.cfg = s.rx.cfg) : RoundFrame s t :=
  ⟨⟨ht, hp, by rw [hh], by rw [hh]⟩, by rw [hh], hc, hg, fun h => absurd h hn, fun _ => ⟨hf, by rw [hh]⟩⟩

theorem setPhase_takeDrop_roundOk {s s' : State} (h : RxInv s'.params.rasmBufLen s'.rx) (hc : s'.rx.configured = true)
    (hoff : s'.rx.off = s.rx.off) (hscan : s'.scan = s.scan) (ho : s.rx.off ≤ s.scan.fpdu.length)
    (hl : 3 * (s.scan.fpdu.length - s.rx.off) + 3 < scanLeft s) (ht : s'.tx = s.tx) (hp : s'.params = s.params)
    (hh : s'.host = s.host) (hcs : s'.rx.configured = s.rx.configured) (hg : s'.rx.cfg = s.rx.cfg)
    (f : Option Fid) (x : DropReason) (len prior : Nat) :
    RoundOk s (setPhase .header (takeDrop f x len prior s')) := by
  refine ⟨takeDrop_then_header_inv h hc (by rw [hoff, hscan]; exact ho) f x len prior, ?_, ?_⟩
  · exact running_frame (by simp) (by simp [hscan]) (by simp [ht]) (by simp [hp]) (by simp [hh]) (by simp [hcs])
      (by simp [hg])
  · simpa [scanLeft, hscan, hoff] using hl

/-- A routed PPDU that is dropped at its header. -/
theorem headerDrop_roundOk {s : State} (h : RxScanInv s) (hp : s.scan.phase = .header) (f : Option Fid) (a : Bool)
    {hl len : Nat} (h0 : 0 < hl) (hb : s.rx.off + hl + len ≤ s.scan.fpdu.length) (g : Option Fid) (x : DropReason)
    (n prior : Nat) : RoundOk s (takeDrop g x n prior (arrive f a hl len s)) := by
  obtain ⟨i1, i2, i3, i4, i5⟩ := arrive_header h hp f a hb
  refine ⟨takeDrop_header_inv i1 i2 i3 i4 _ _ _ _, ?_, ?_⟩
  · exact running_frame (by simp [hp]) (by simp) (by simp) (by simp) (by simp) (by simp) (by simp)
  · simp only [scanLeft, takeDrop_scan, arrive_scan, hp, takeDrop_off, arrive_off]
    omega

/-- The ends of a routed PPDU that is kept: it is at a later place of the FPDU, in some phase. -/
theorem routed_roundOk {s t : State} (hi : RxScanInv t) (hp : s.scan.phase = .header) {hl len : Nat} (h0 : 2 ≤ hl)
    (hb : s.rx.off + hl + len ≤ s.scan.fpdu.length) (hoff : t.rx.off = s.rx.off + hl + len)
    (hn : t.scan.phase ≠ .idle) (hf : t.scan.fpdu = s.scan.fpdu) (ht : t.tx = s.tx) (hpar : t.params = s.params)
    (hh : t.host = s.host) (hc : t.rx.configured = s.rx.configured) (hg : t.rx.cfg = s.rx.cfg) : RoundOk s t := by
  refine ⟨hi, running_frame hn hf ht hpar hh hc hg, ?_⟩
  simp only [scanLeft, hp, hf, hoff]
  split <;> omega

/-- The delivery of an ALPDU ends its PPDU. -/
theorem deliver_roundOk {s : State} (h : RxScanInv s) {f0 : Option Fid} {al : Bytes} {lt : LabelType} {pts : Bool}
    {l pr : Nat} (hp : s.scan.phase = .alpdu f0 al lt pts l pr) (f : Option Fid) (r : Expanded) (len prior : Nat) :
    RoundOk s (deliver f r len prior s) := by
  have hne : s.scan.phase ≠ .idle := by rw [hp]; simp
  have hc := h.scan.configured hne
  have ho := h.scan.offLe hne
  have hl : 3 * (s.scan.fpdu.length - s.rx.off) + 3 < scanLeft s := by simp [scanLeft, hp]
  have hinv := deliver_inv h hne f r len prior
  revert hinv
  unfold deliver
  split
  · intro _; exact setPhase_takeDrop_roundOk h.rx hc rfl rfl ho hl rfl rfl rfl rfl rfl _ _ _ _
  · split
    · intro _; exact setPhase_takeDrop_roundOk h.rx hc rfl rfl ho hl rfl rfl rfl rfl rfl _ _ _ _
    · next ptype sdu _ =>
      intro hinv
      obtain ⟨e1, e2, e3, -, -⟩ := releaseDelivered_same f (countRx s.params.cntW s.rx f (deliveredCounters sdu.length))
      refine ⟨hinv, running_frame (by simp) rfl rfl rfl rfl ?_ ?_, ?_⟩
      · simp [deliverSdu_rx, e1]
      · simp [deliverSdu_rx, e2]
      · simp only [scanLeft, setPhase_phase, setPhase_fpdu, setPhase_rx, deliverSdu_rx, e3, countRx_off, hp]
        change 3 * (s.scan.fpdu.length - s.rx.off) + 3 < _
        omega

/-! ### Every unit, in its place -/

theorem keepsRx_of_next {o : Outcome State Fault Refusal} {t : State} (h : KeepsRx o) (he : o = .next t) :
    RxScanInv t := by
  rcases h with ⟨u, hu, hi⟩ | hr
  · rw [hu] at he; cases he; exact hi
  · rw [hr] at he; cases he

theorem execPad_round {s : State} (h : RxScanInv s) (hp : s.scan.phase = .header) :
    ∃ t, execPad s = .next t ∧ RoundOk s t := by
  refine ⟨finishScan s, by simp [execPad, hp], ?_⟩
  exact finishScan_roundOk h.rx (by simp [scanLeft, hp]) h.scan.errIs rfl rfl rfl rfl rfl

theorem execComp_round {s : State} (h : RxScanInv s) (hp : s.scan.phase = .header) (lt : LabelType) (pts : Bool)
    (length : BitVec 11) : ∃ t, execComp lt pts length s = .next t ∧ RoundOk s t := by
  have hk := execComp_keeps h lt pts length
  revert hk
  unfold execComp
  simp only [hp]
  obtain ⟨hn, -⟩ | ⟨payload, hs, hb, -, -⟩ := payloadAt_cases s 2 length.toNat
  · rw [hn]; exact fun _ => ⟨_, rfl, endTruncated_roundOk h (by simp [scanLeft, hp])⟩
  · rw [hs]
    simp only
    split
    · exact fun _ => ⟨_, rfl, headerDrop_roundOk h hp none true (by omega) hb _ _ _ _⟩
    · exact fun hk => ⟨_, rfl, routed_roundOk (keepsRx_of_next hk rfl) hp (by omega) hb rfl (by simp) rfl rfl rfl rfl
        (by simp) (by simp)⟩

theorem execStart_round {s : State} (h : RxScanInv s) (hp : s.scan.phase = .header) (lt : LabelType) (pts : Bool)
    (fragLen : BitVec 11) (fid : Fid) (totalLen : Index) (useCrc : Bool) :
    ∃ t, execStart lt pts fragLen fid totalLen useCrc s = .next t ∧ RoundOk s t := by
  have hk := execStart_keeps h lt pts fragLen fid totalLen useCrc
  revert hk
  unfold execStart
  simp only [hp]
  obtain ⟨hn, -⟩ | ⟨payload, hs, hb, -, -⟩ := payloadAt_cases s 4 fragLen.toNat
  · rw [hn]; exact fun _ => ⟨_, rfl, endTruncated_roundOk h (by simp [scanLeft, hp])⟩
  · rw [hs]
    simp only
    split
    · exact fun _ => ⟨_, rfl, headerDrop_roundOk h hp _ true (by omega) hb _ _ _ _⟩
    split
    · exact fun _ => ⟨_, rfl, headerDrop_roundOk h hp _ true (by omega) hb _ _ _ _⟩
    split
    · exact fun _ => ⟨_, rfl, headerDrop_roundOk h hp _ true (by omega) hb _ _ _ _⟩
    · simp only [acceptStart]
      split
      · rintro (⟨t, ht, -⟩ | hr)
        · cases ht
        · cases hr
      · exact fun hk => ⟨_, rfl, routed_roundOk (keepsRx_of_next hk rfl) hp (by omega) hb rfl (by simp [hp]) rfl rfl
          rfl rfl (by simp) (by simp)⟩

theorem execCont_round {s : State} (h : RxScanInv s) (hp : s.scan.phase = .header) (length : BitVec 11)
    (fid : Fid) : ∃ t, execCont length fid s = .next t ∧ RoundOk s t := by
  have hk := execCont_keeps h length fid
  revert hk
  unfold execCont
  simp only [hp]
  obtain ⟨hn, -⟩ | ⟨payload, hs, hb, -, -⟩ := payloadAt_cases s 2 length.toNat
  · rw [hn]; exact fun _ => ⟨_, rfl, endTruncated_roundOk h (by simp [scanLeft, hp])⟩
  · rw [hs]
    simp only
    split
    · exact fun _ => ⟨_, rfl, headerDrop_roundOk h hp _ false (by omega) hb _ _ _ _⟩
    split
    · exact fun _ => ⟨_, rfl, headerDrop_roundOk h hp _ false (by omega) hb _ _ _ _⟩
    · simp only [acceptCont]
      split
      · rintro (⟨t, ht, -⟩ | hr)
        · cases ht
        · cases hr
      · exact fun hk => ⟨_, rfl, routed_roundOk (keepsRx_of_next hk rfl) hp (by omega) hb rfl (by simp [hp]) rfl rfl
          rfl rfl (by simp) (by simp)⟩

theorem execEndPpdu_round {s : State} (h : RxScanInv s) (hp : s.scan.phase = .header) (length : BitVec 11)
    (fid : Fid) : ∃ t, execEndPpdu length fid s = .next t ∧ RoundOk s t := by
  have hk := execEndPpdu_keeps h length fid
  revert hk
  unfold execEndPpdu
  simp only [hp]
  obtain ⟨hn, -⟩ | ⟨payload, hs, hb, -, -⟩ := payloadAt_cases s 2 length.toNat
  · rw [hn]; exact fun _ => ⟨_, rfl, endTruncated_roundOk h (by simp [scanLeft, hp])⟩
  · rw [hs]
    simp only
    split
    · exact fun _ => ⟨_, rfl, headerDrop_roundOk h hp _ false (by omega) hb _ _ _ _⟩
    split
    · exact fun _ => ⟨_, rfl, headerDrop_roundOk h hp _ false (by omega) hb _ _ _ _⟩
    split
    · exact fun _ => ⟨_, rfl, headerDrop_roundOk h hp _ false (by omega) hb _ _ _ _⟩
    · simp only [acceptEnd]
      split
      · rintro (⟨t, ht, -⟩ | hr)
        · cases ht
        · cases hr
      · split
        · rintro (⟨t, ht, -⟩ | hr)
          · cases ht
          · cases hr
        · exact fun hk => ⟨_, rfl, routed_roundOk (keepsRx_of_next hk rfl) hp (by omega) hb rfl (by simp) rfl rfl
            rfl rfl (by simp) (by simp)⟩

/-- A good trailer leaves the delivery to come. -/
theorem trailerGood_roundOk {s t : State} (hi : RxScanInv t) {f : Fid} {al trl : Bytes} {l pr : Nat}
    (hp : s.scan.phase = .trailer f al trl l pr)
    (ht : t.scan.phase = .alpdu (some f) al (rxCtx t.rx f).lt (rxCtx t.rx f).pts l pr)
    (hoff : t.rx.off = s.rx.off) (hf : t.scan.fpdu = s.scan.fpdu) (htx : t.tx = s.tx) (hpar : t.params = s.params)
    (hh : t.host = s.host) (hc : t.rx.configured = s.rx.configured) (hg : t.rx.cfg = s.rx.cfg) : RoundOk s t := by
  refine ⟨hi, running_frame (by rw [ht]; simp) hf htx hpar hh hc hg, ?_⟩
  simp [scanLeft, hp, ht, hf, hoff]

theorem execTrlSeq_round {s : State} (h : RxScanInv s) {f : Fid} {al trl : Bytes} {l pr : Nat}
    (hp : s.scan.phase = .trailer f al trl l pr) (seq : SeqNb) :
    ∃ t, execTrlSeq seq s = .next t ∧ RoundOk s t := by
  have hk := execTrlSeq_keeps h seq
  have hne : s.scan.phase ≠ .idle := by rw [hp]; simp
  have hr := seqRecorded_inv h.rx f seq
  revert hk
  unfold execTrlSeq
  simp only [hp]
  split
  · exact fun hk => ⟨_, rfl, trailerGood_roundOk (keepsRx_of_next hk rfl) hp rfl rfl rfl rfl rfl rfl rfl rfl⟩
  split
  · exact fun _ => ⟨_, rfl, setPhase_takeDrop_roundOk (s := s) (s' := { s with rx := seqRecorded s.rx f seq }) hr
      (h.scan.configured hne) rfl rfl (h.scan.offLe hne) (by simp [scanLeft, hp]) rfl rfl rfl rfl rfl _ _ _ _⟩
  · exact fun hk => ⟨_, rfl, trailerGood_roundOk (keepsRx_of_next hk rfl) hp rfl (by simp [trailerGood]; rfl)
      rfl rfl rfl rfl (by simp [trailerGood]; rfl) (by simp [trailerGood]; rfl)⟩

theorem execTrlCrc_round {s : State} (h : RxScanInv s) {f : Fid} {al trl : Bytes} {l pr : Nat}
    (hp : s.scan.phase = .trailer f al trl l pr) (crc : Crc) :
    ∃ t, execTrlCrc crc s = .next t ∧ RoundOk s t := by
  have hk := execTrlCrc_keeps h crc
  have hne : s.scan.phase ≠ .idle := by rw [hp]; simp
  revert hk
  unfold execTrlCrc
  simp only [hp]
  split
  · exact fun hk => ⟨_, rfl, trailerGood_roundOk (keepsRx_of_next hk rfl) hp rfl rfl rfl rfl rfl rfl rfl rfl⟩
  · exact fun _ => ⟨_, rfl, setPhase_takeDrop_roundOk h.rx
      (h.scan.configured hne) rfl rfl (h.scan.offLe hne) (by simp [scanLeft, hp]) rfl rfl rfl rfl rfl _ _ _ _⟩

/-- A unit in its place answers, with less of the scan left. -/
theorem execUnit_round {s : State} (h : RxScanInv s) {i : Instr} (hu : UnitOf s.scan.phase i) :
    ∃ t, execUnit i s = .next t ∧ RoundOk s t := by
  cases hp : s.scan.phase with
  | idle => rw [hp] at hu; exact hu.elim
  | header =>
    rw [hp] at hu
    cases i with
    | pad => exact execPad_round h hp
    | comp => exact execComp_round h hp _ _ _
    | start => exact execStart_round h hp _ _ _ _ _ _
    | cont => exact execCont_round h hp _ _
    | endPpdu => exact execEndPpdu_round h hp _ _
    | ptOmit | ptComp | ptFallback | ptUncomp | trlSeq | trlCrc | txNew | txDestroy | encap | emit | pack
    | dumpAlpdu | txStat | rxNew | rxDestroy | decap | rxStat | hdrsz | reserved12 | reserved13 | reserved14
    | reserved15 => simp [UnitOf, siteOf] at hu
  | trailer f al trl l pr =>
    rw [hp] at hu
    obtain ⟨b, hb⟩ := hu
    cases i with
    | trlSeq => exact execTrlSeq_round h hp _
    | trlCrc => exact execTrlCrc_round h hp _
    | pad | comp | start | cont | endPpdu | ptOmit | ptComp | ptFallback | ptUncomp | txNew | txDestroy | encap | emit
    | pack | dumpAlpdu | txStat | rxNew | rxDestroy | decap | rxStat | hdrsz | reserved12 | reserved13 | reserved14
    | reserved15 => simp [siteOf] at hb
  | alpdu f al lt pts l pr =>
    rw [hp] at hu
    obtain ⟨a, b, hb⟩ := hu
    cases i with
    | ptOmit => exact ⟨_, by simp only [execUnit, execPtOmit, hp]; rfl, deliver_roundOk h hp _ _ _ _⟩
    | ptComp => exact ⟨_, by simp only [execUnit, execPtComp, hp]; rfl, deliver_roundOk h hp _ _ _ _⟩
    | ptFallback => exact ⟨_, by simp only [execUnit, execPtFallback, hp]; rfl, deliver_roundOk h hp _ _ _ _⟩
    | ptUncomp => exact ⟨_, by simp only [execUnit, execPtUncomp, hp]; rfl, deliver_roundOk h hp _ _ _ _⟩
    | pad | comp | start | cont | endPpdu | trlSeq | trlCrc | txNew | txDestroy | encap | emit | pack | dumpAlpdu
    | txStat | rxNew | rxDestroy | decap | rxStat | hdrsz | reserved12 | reserved13 | reserved14
    | reserved15 => simp [siteOf] at hb

theorem onDecodeError_round {s : State} (h : RxScanInv s) (hn : s.scan.phase ≠ .idle) (e : DecodeError)
    (hroute : e = .ptypeFieldTooShort ∨ e = .trailerTooShort → s.scan.phase ≠ .header) :
    RoundOk s (onDecodeError e s) := by
  have hl : 0 < scanLeft s := by
    revert hn
    cases hp : s.scan.phase <;> simp [scanLeft, hp]
  have hfin : RoundOk s (finishScan s) := finishScan_roundOk h.rx hl h.scan.errIs rfl rfl rfl rfl rfl
  have hrt : s.scan.phase ≠ .header → ∀ x, RoundOk s (dropRouted x s) := by
    intro hh x
    unfold dropRouted
    split
    · next hp =>
      exact setPhase_takeDrop_roundOk h.rx (h.scan.configured hn) rfl rfl (h.scan.offLe hn)
        (by simp [scanLeft, hp]) rfl rfl rfl rfl rfl _ _ _ _
    · next hp =>
      exact setPhase_takeDrop_roundOk h.rx (h.scan.configured hn) rfl rfl (h.scan.offLe hn)
        (by simp [scanLeft, hp]) rfl rfl rfl rfl rfl _ _ _ _
    · next hp => exact absurd hp hn
    · next hp => exact absurd hp hh
  cases e with
  | endOfFpdu | notACommandCode => exact hfin
  | truncatedHeader => exact endTruncated_roundOk h hl
  | ptypeFieldTooShort => exact hrt (hroute (.inl rfl)) _
  | trailerTooShort => exact hrt (hroute (.inr rfl)) _

theorem decodePpdu_error {l : Config.PpduLayout} {bytes : Bytes} {e : DecodeError} (h : decodePpduWith l bytes = .error e) :
    e = .endOfFpdu ∨ e = .truncatedHeader := by
  unfold decodePpduWith at h
  split at h
  · cases h; exact .inl rfl
  · split at h
    · cases h
    · split at h <;> split at h <;> cases h <;> exact .inr rfl

theorem map_fst_error {x : Except DecodeError (Instr × Bytes)} {e : DecodeError}
    (h : x.map (fun r => r.1) = .error e) : x = .error e := by
  cases x with
  | error e => cases h; rfl
  | ok r => cases h

/-- Every round of a scan answers, with less of the scan left. -/
theorem scanStep_round {s : State} (h : RxScanInv s) (hn : s.scan.phase ≠ .idle) :
    ∃ t, scanStep s = .next t ∧ RoundOk s t := by
  cases hf : fetchUnit s with
  | ok i => simp only [scanStep, hf]; exact execUnit_round h (fetchUnit_unitOf hf)
  | error e =>
    simp only [scanStep, hf]
    refine ⟨_, rfl, onDecodeError_round h hn e fun he hp => ?_⟩
    simp only [fetchUnit, hp] at hf
    have := decodePpdu_error (map_fst_error hf)
    rcases he with rfl | rfl <;> simp at this

/-! ### The whole scan -/

/-- What a run of the scan leaves alone, and its answer. -/
structure ScanDone (s t : State) : Prop where
  inv : RxScanInv t
  idle : t.scan.phase = .idle
  frame : RoundFrame s t

theorem RoundFrame.trans {s t u : State} (h1 : RoundFrame s t) (h2 : RoundFrame t u)
    (hn : t.scan.phase ≠ .idle) : RoundFrame s u where
  untouched := ⟨h2.untouched.tx.trans h1.untouched.tx, h2.untouched.params.trans h1.untouched.params,
    h2.untouched.requests.trans h1.untouched.requests, h2.untouched.owner.trans h1.untouched.owner⟩
  producer := h2.producer.trans h1.producer
  configured := h2.configured.trans h1.configured
  cfg := h2.cfg.trans h1.cfg
  ends := h2.ends
  runs hu := ⟨(h2.runs hu).1.trans (h1.runs hn).1, (h2.runs hu).2.trans (h1.runs hn).2⟩

/-- With rounds enough the scan ends and answers. -/
theorem runScan_done {n : Nat} {s : State} (h : RxScanInv s) (hn : s.scan.phase ≠ .idle) (hl : scanLeft s ≤ n) :
    ∃ t, runScan n s = .next t ∧ ScanDone s t := by
  induction n generalizing s with
  | zero =>
    revert hl hn
    cases hp : s.scan.phase <;> simp [scanLeft, hp]
  | succ n ih =>
    obtain ⟨t, ht, hr⟩ := scanStep_round h hn
    simp only [runScan, if_neg hn, ht]
    by_cases hi : t.scan.phase = .idle
    · refine ⟨t, ?_, hr.inv, hi, hr.frame⟩
      cases n <;> simp [runScan, hi]
    · obtain ⟨u, hu, hd⟩ := ih hr.inv hi (by have := hr.less; omega)
      exact ⟨u, hu, hd.inv, hd.idle, hr.frame.trans hd.frame hi⟩

/-- A DECAP on a configured receiver answers (spec/47 R321, R352). -/
theorem execDecap_done {s : State} (h : RxInv s.params.rasmBufLen s.rx) (hc : s.rx.configured = true) (bytes : Bytes) :
    ∃ t, execDecap (some bytes) s = .next t ∧ RxScanInv t ∧ t.scan.phase = .idle ∧ TxUntouched s t ∧
      t.host.producer = s.host.producer ∧ t.rx.configured = s.rx.configured ∧ t.rx.cfg = s.rx.cfg ∧
      ∃ r, t.host.response = some r ∧
        (r = { status := .ok, events := r.events } ∧ hasDrop r.events = false ∨
          r = { status := .err, events := r.events } ∧ hasDrop r.events = true) := by
  simp only [execDecap, hc, ↓reduceIte]
  have hrx := rxInv_clearBursts h
  by_cases hlen : bytes.length < implicitPayloadLabelSize s.rx.cfg
  · have hb : beginScan bytes s = endTruncated (setOff 0 { s with
        rx := clearBursts s.rx
        scan := { phase := .header, fpdu := bytes, events := [], err := false } }) := by
      simp only [beginScan]; exact if_pos hlen
    refine ⟨beginScan bytes s, ?_, ?_⟩
    · simp [scanRounds, runScan, hb, endTruncated, Scan.idle]
    · rw [hb]
      refine ⟨endTruncated_inv ⟨hrx.cfgOk, hrx.freeUnconfigured, hrx.ctx⟩, rfl, ⟨rfl, rfl, rfl, rfl⟩, rfl, hc, rfl,
        _, rfl, ?_⟩
      exact .inr ⟨rfl, rfl⟩
  · have hb : beginScan bytes s = setOff (implicitPayloadLabelSize s.rx.cfg) { s with
        rx := clearBursts s.rx
        scan := { phase := .header, fpdu := bytes, events := [], err := false } } := by
      simp only [beginScan]; exact if_neg hlen
    have hi : RxScanInv (beginScan bytes s) := by
      rw [hb]
      exact .header ⟨hrx.cfgOk, hrx.freeUnconfigured, hrx.ctx⟩ rfl hc (Nat.le_of_not_lt hlen) rfl
    obtain ⟨t, ht, hd⟩ := runScan_done (n := scanRounds bytes) hi (by rw [hb]; simp)
      (by rw [hb]; simp [scanLeft, scanRounds])
    have hf := hd.frame
    rw [hb] at hf
    exact ⟨t, ht, hd.inv, hd.idle, ⟨hf.untouched.tx, hf.untouched.params, hf.untouched.requests, hf.untouched.owner⟩,
      hf.producer, hf.configured.trans hc, hf.cfg, hf.ends hd.idle⟩

end Sys2Proof.Machine
end

