-- ==== Sys2Proof/Laws/Encap.lean ====
section
/-! SUPPORT. What filling a context does (spec/43 R221, R222): the header bytes lie before the SDU, the registers
follow, and the invariant of a busy context holds. -/

namespace Sys2Proof.Machine

/-- The header-length law's bound (spec/43 R227). -/
theorem chooseHeader_length_le (p : Config.Params) (cfg : CfgWord) (ptype : Ptype) :
    (encode (chooseHeader p cfg ptype)).length ≤ 3 := by
  unfold chooseHeader
  split
  · simp [encode, encodeWith]
  · split
    · split <;> simp [encode, encodeWith, le16]
    · simp [encode, encodeWith, le16]

/-- The offset of the first header byte. -/
def headOf (p : Config.Params) (cfg : CfgWord) (ptype : Ptype) : Nat :=
  alpduHdrMax - (encode (chooseHeader p cfg ptype)).length

/-- The registers after an ENCAP (spec/43 R221), with the buffer it leaves. -/
def filled (p : Config.Params) (cfg : CfgWord) (sdu : Bytes) (ptype : Ptype) (c : TxCtx) (buf : Mem) : TxCtx :=
  { c with
    buf := buf
    sduCopied := true
    sduEnd := index (alpduHdrMax + sdu.length)
    head := index (headOf p cfg ptype)
    tail := index (alpduHdrMax + sdu.length)
    cursor := index (headOf p cfg ptype)
    isFragmented := false
    fragCount := 0
    useCrc := allowAlpduCrc cfg
    lt := labelTypeOf ptype
    pts := suppressesPtype p cfg ptype
    sduLen := index sdu.length }

/-- Filling a context with an SDU of legal size succeeds; header and SDU are then in the buffer, and every other
byte of it is as before. -/
theorem fillCtx_ok (p : Config.Params) (cfg : CfgWord) {sdu : Bytes} (ptype : Ptype) (c : TxCtx)
    (hs : sdu.length ≤ sduMax) :
    ∃ buf, fillCtx p cfg sdu ptype c = .ok (filled p cfg sdu ptype c buf) ∧
      (Mem.wf fragBufLen c.buf = true → Mem.wf fragBufLen buf = true) ∧
      (∀ a, byteAt buf a =
        if headOf p cfg ptype ≤ a ∧ a < alpduHdrMax + sdu.length then
          (encode (chooseHeader p cfg ptype) ++ sdu)[a - headOf p cfg ptype]?
        else byteAt c.buf a) := by
  have hl := chooseHeader_length_le p cfg ptype
  simp only [sduMax] at hs
  obtain ⟨b1, h1⟩ := memWrite_ok_of_le (size := fragBufLen) (m := c.buf) (off := alpduHdrMax) (bytes := sdu)
    (by simp only [alpduHdrMax, fragBufLen]; omega)
  obtain ⟨b2, h2⟩ := memWrite_ok_of_le (size := fragBufLen) (m := b1) (off := headOf p cfg ptype)
    (bytes := encode (chooseHeader p cfg ptype)) (by simp only [headOf, alpduHdrMax, fragBufLen]; omega)
  refine ⟨b2, ?_, fun hw => memWrite_wf (memWrite_wf hw h1) h2, fun a => ?_⟩
  · have h2' := h2
    simp only [headOf] at h2'
    simp only [fillCtx, h1, h2', filled, headOf]
  · have hho : headOf p cfg ptype + (encode (chooseHeader p cfg ptype)).length = alpduHdrMax := by
      simp only [headOf, alpduHdrMax]; omega
    rw [memWrite_byteAt h2, memWrite_byteAt h1, hho]
    by_cases ha : headOf p cfg ptype ≤ a
    · by_cases hb : a < alpduHdrMax
      · rw [if_pos ⟨ha, hb⟩, if_pos ⟨ha, by omega⟩, List.getElem?_append_left (by omega)]
      · rw [if_neg (by omega)]
        by_cases hc : a < alpduHdrMax + sdu.length
        · rw [if_pos ⟨by omega, hc⟩, if_pos ⟨ha, hc⟩, List.getElem?_append_right (by omega)]
          congr 1
          omega
        · rw [if_neg (by omega), if_neg (by omega)]
    · rw [if_neg (by omega), if_neg (by omega), if_neg (by omega)]

theorem filled_inv {p : Config.Params} {cfg : CfgWord} {sdu : Bytes} {ptype : Ptype} {c : TxCtx} {buf : Mem}
    (hs : sdu.length ≤ sduMax) (hc : c.sduStart = 3) (hwf : Mem.wf fragBufLen buf = true)
    (hb : ∀ a, headOf p cfg ptype ≤ a → a < alpduHdrMax + sdu.length → (byteAt buf a).isSome = true) :
    TxCtxInv true (filled p cfg sdu ptype c buf) := by
  simp only [sduMax] at hs
  have hho : headOf p cfg ptype ≤ 3 := by simp only [headOf, alpduHdrMax]; omega
  have e1 : (index (headOf p cfg ptype)).toNat = headOf p cfg ptype := index_toNat (by omega)
  have e2 : (index (alpduHdrMax + sdu.length)).toNat = alpduHdrMax + sdu.length :=
    index_toNat (by simp only [alpduHdrMax]; omega)
  have e3 : (index sdu.length).toNat = sdu.length := index_toNat (by omega)
  have e4 : alpduHdrMax = 3 := rfl
  exact
    { bufWf := hwf
      sduStartIs3 := hc
      headLe := by simp only [filled, e1]; exact hho
      sduEndGe := by simp only [filled, e2]; omega
      sduEndLe := by simp only [filled, e2, sduMax]; omega
      tailGe := by simp [filled]
      tailLen := by simp [filled]
      cursorGe := by simp [filled]
      cursorLe := by simp only [filled, e1, e2]; omega
      busyIsCopied := rfl
      fragmented := by simp [filled]
      notFragmented := by simp [filled]
      free := by simp
      sduLenIs := fun _ => by simp only [filled, e2, e3]; omega
      written := fun _ a h1 h2 => by
        simp only [filled, e1, e2] at h1 h2 ⊢
        exact hb a h1 h2 }

/-- An accepted ENCAP keeps the transmitter's invariant. -/
theorem encap_inv {p : Config.Params} {t : Tx} {f : Fid} {sdu : Bytes} {ptype : Ptype} {c : TxCtx} (h : TxInv t)
    (hc : t.configured = true) (hs : sdu.length ≤ sduMax)
    (hfill : fillCtx p t.cfg sdu ptype (txCtx t f) = .ok c) (w : Nat) (d : Counters) :
    TxInv (countTx w (setTxCtx { t with busy := setBusy t.busy f } f c) f d) := by
  obtain ⟨buf, he, hwf, hb⟩ := fillCtx_ok p t.cfg ptype (txCtx t f) hs
  rw [hfill] at he
  obtain rfl := Except.ok.inj he
  have hsb : TxSameBut f t
      (countTx w (setTxCtx { t with busy := setBusy t.busy f } f (filled p t.cfg sdu ptype (txCtx t f) buf)) f d) :=
    ⟨rfl, rfl, fun g hg => busyBit_setBusy_ne _ hg, fun g hg => by
      rw [txCtx_countTx_ne _ _ hg, txCtx_setTxCtx_ne _ _ hg]; rfl⟩
  refine txInv_of_sameBut h hsb (by simp [filled]) hc ?_
  rw [countTx_busy, setTxCtx_busy, txCtx_countTx_same, txCtx_setTxCtx_same]
  simp only [busyBit_setBusy_same]
  refine txCtxInv_cnt (filled_inv hs (h.ctx f).sduStartIs3 (hwf (h.ctx f).bufWf) fun a h1 h2 => ?_) _
  rw [hb, if_pos ⟨h1, h2⟩]
  have : a - headOf p t.cfg ptype < (encode (chooseHeader p t.cfg ptype) ++ sdu).length := by
    have := chooseHeader_length_le p t.cfg ptype
    simp only [headOf, alpduHdrMax, List.length_append] at h1 h2 ⊢
    omega
  simpa using this

end Sys2Proof.Machine
end

