-- ==== Sys2Proof/Laws/New.lean ====
section
/-! SUPPORT. The invariant of a unit that NEW or DESTROY has just left (spec/42 R191 to R194), and the canonical form
of the buffers it holds. -/

namespace Sys2Proof.Machine

theorem txCtxInv_fresh (b : Bool) : TxCtxInv false { TxCtx.reset with initialised := b } :=
  txCtxInv_empty (c := { TxCtx.reset with initialised := b }) rfl rfl

theorem newTx_inv {w : CfgWord} (h : cfgValid w = true) : TxInv (newTx w) where
  cfgOk _ := h
  initialisedIs f := by rw [txCtx_newTx]; rfl
  freeUnconfigured hc := absurd hc (by simp [newTx])
  ctx f := by
    rw [txCtx_newTx, show (newTx w).busy = 0 from rfl, busyBit_zero]
    exact txCtxInv_fresh true

theorem destroyedTx_inv : TxInv Tx.reset where
  cfgOk hc := absurd hc (by simp [Tx.reset])
  initialisedIs f := by rw [txCtx_reset]; rfl
  freeUnconfigured _ := rfl
  ctx f := by
    rw [txCtx_reset, show Tx.reset.busy = 0 from rfl, busyBit_zero]
    exact txCtxInv_fresh false

theorem newRx_inv {size : Nat} {w : CfgWord} (h : cfgValid w = true) : RxInv size (newRx w) where
  cfgOk _ := h
  freeUnconfigured hc := absurd hc (by simp [newRx])
  ctx f := by
    rw [rxCtx_newRx, show (newRx w).busy = 0 from rfl, busyBit_zero]
    exact .free rfl

theorem destroyedRx_inv {size : Nat} : RxInv size Rx.reset where
  cfgOk hc := absurd hc (by simp [Rx.reset])
  freeUnconfigured _ := rfl
  ctx f := by
    rw [rxCtx_reset, show Rx.reset.busy = 0 from rfl, busyBit_zero]
    exact .free rfl

/-- Every buffer of the reset state has the canonical form. -/
theorem reset_buffers_wf (f : Fid) :
    Mem.wf fragBufLen (txCtx State.reset.tx f).buf = true ∧ Mem.wf State.reset.params.rasmBufLen (rxCtx State.reset.rx f).buf = true :=
  ⟨(destroyedTx_inv.ctx f).bufWf, (destroyedRx_inv.ctx f).bufWf⟩

end Sys2Proof.Machine
end

