-- ==== Sys2Proof/Laws/Pack.lean ====
section
/-! SUPPORT. What PACK's loops can do, said once (spec/45 R280, R282), and that they keep the transmitter's
invariant. -/

namespace Sys2Proof.Machine

/-- An induction over PACK's loops: what every EMIT of a busy context keeps, they keep. -/
theorem drainCtx_induction {p : Config.Params} {size : Nat} {f : Fid} (P : Packing → Prop)
    (hstep : ∀ k e, P k → busyBit k.tx.busy f = true → emit p k.tx f (size - k.out.length) = .ok e →
      P (match e.status with
        | .ok | .okAndDone => { k with tx := e.tx, out := k.out ++ e.ppdu }
        | .errBurstTooSmall => { k with tx := e.tx }
        | _ => { k with tx := e.tx, failed := true }))
    (rounds : Nat) {k k' : Packing} (h : P k) (hk : drainCtx p size f rounds k = .ok k') : P k' := by
  induction rounds generalizing k with
  | zero => simp only [drainCtx, Except.ok.injEq] at hk; exact hk ▸ h
  | succ n ih =>
    rw [drainCtx] at hk
    split at hk
    · next hb =>
      split at hk
      · cases hk
      · next e he =>
        have hs := hstep k e h hb he
        split at hk
        · next hst => rw [hst] at hs; exact ih hs hk
        · next hst => rw [hst] at hs; obtain rfl := Except.ok.inj hk; exact hs
        · next hst => rw [hst] at hs; obtain rfl := Except.ok.inj hk; exact hs
        · next h1 h2 h3 =>
          obtain rfl := Except.ok.inj hk
          revert hs
          split
          · next hst => exact absurd hst h1
          · next hst => exact absurd hst h2
          · next hst => exact absurd hst h3
          · exact id
    · obtain rfl := Except.ok.inj hk; exact h

theorem serveSched_induction {p : Config.Params} {size : Nat} (P : Packing → Prop)
    (hstep : ∀ f k e, P k → busyBit k.tx.busy f = true → emit p k.tx f (size - k.out.length) = .ok e →
      P (match e.status with
        | .ok | .okAndDone => { k with tx := e.tx, out := k.out ++ e.ppdu }
        | .errBurstTooSmall => { k with tx := e.tx }
        | _ => { k with tx := e.tx, failed := true }))
    (sched : List Fid) {k k' : Packing} (h : P k) (hk : serveSched p size sched k = .ok k') : P k' := by
  induction sched generalizing k with
  | nil => simp only [serveSched, Except.ok.injEq] at hk; exact hk ▸ h
  | cons f fs ih =>
    rw [serveSched] at hk
    split at hk
    · cases hk
    · next k1 h1 =>
      have hd := drainCtx_induction P (hstep f) _ h h1
      split at hk
      · obtain rfl := Except.ok.inj hk; exact hd
      · exact ih hd hk

theorem drainCtx_inv {p : Config.Params} {size : Nat} {f : Fid} {rounds : Nat} {k k' : Packing}
    (h : TxInv k.tx) (hk : drainCtx p size f rounds k = .ok k') : TxInv k'.tx := by
  refine drainCtx_induction (fun k => TxInv k.tx) (fun k e hk _ he => ?_) rounds h hk
  have := emit_inv hk he
  split <;> exact this

theorem serveSched_inv {p : Config.Params} {size : Nat} {sched : List Fid} {k k' : Packing} (h : TxInv k.tx)
    (hk : serveSched p size sched k = .ok k') : TxInv k'.tx := by
  refine serveSched_induction (fun k => TxInv k.tx) (fun f k e hk _ he => ?_) sched h hk
  have := emit_inv hk he
  split <;> exact this

theorem drainCtx_total {p : Config.Params} {size : Nat} {f : Fid} (rounds : Nat) {k : Packing} (h : TxInv k.tx) :
    ∃ k', drainCtx p size f rounds k = .ok k' := by
  induction rounds generalizing k with
  | zero => exact ⟨k, rfl⟩
  | succ n ih =>
    rw [drainCtx]
    split
    · obtain ⟨e, he⟩ := emit_total (p := p) h f (size - k.out.length)
      have hi := emit_inv h he
      rw [he]
      simp only
      split
      · exact ih hi
      · exact ⟨_, rfl⟩
      · exact ⟨_, rfl⟩
      · exact ⟨_, rfl⟩
    · exact ⟨_, rfl⟩

theorem serveSched_total {p : Config.Params} {size : Nat} (sched : List Fid) {k : Packing} (h : TxInv k.tx) :
    ∃ k', serveSched p size sched k = .ok k' := by
  induction sched generalizing k with
  | nil => exact ⟨k, rfl⟩
  | cons f fs ih =>
    obtain ⟨k1, h1⟩ := drainCtx_total (p := p) (size := size) (f := f) (size + 1) h
    rw [serveSched, h1]
    simp only
    split
    · exact ⟨_, rfl⟩
    · exact ih (drainCtx_inv h h1)

end Sys2Proof.Machine
end

