-- ==== Sys2Proof/Laws/PerInstr.lean ====
section
/-! SUPPORT. The lemmas that are made per instruction: family `TableWidth`, that the encoding of every instruction
has the width its row of spec/opcode_table.json states. -/

namespace Sys2Proof.Laws

/-- `width_bits` of the instruction's row of spec/opcode_table.json. -/
def tableBits : Instr → Nat
  | .pad | .ptComp _ | .trlSeq _ => 8
  | .comp .. | .cont .. | .endPpdu .. | .ptUncomp _ => 16
  | .ptFallback _ => 24
  | .start .. | .trlCrc _ => 32
  | .ptOmit => 0
  | .txNew _ | .txDestroy | .encap .. | .emit .. | .pack .. | .dumpAlpdu _ | .txStat .. | .rxNew _ | .rxDestroy
  | .decap _ | .rxStat .. | .hdrsz .. | .reserved12 | .reserved13 | .reserved14 | .reserved15 => 4

/-- The encoding has the bits of the row, rounded up to whole bytes. -/
def TableWidth.Statement (i : Instr) : Prop := (encode i).length = (tableBits i + 7) / 8

theorem TableWidth.pad : TableWidth.Statement .pad := by
  simp [TableWidth.Statement, encode, encodeWith, tableBits]
theorem TableWidth.comp (lt : LabelType) (pts : Bool) (length : BitVec 11) :
    TableWidth.Statement (.comp lt pts length) := by
  simp [TableWidth.Statement, encode, encodeWith, tableBits, be16]
theorem TableWidth.start (lt : LabelType) (pts : Bool) (fragLen : BitVec 11) (fid : Fid) (totalLen : Index)
    (useCrc : Bool) : TableWidth.Statement (.start lt pts fragLen fid totalLen useCrc) := by
  simp [TableWidth.Statement, encode, encodeWith, tableBits, be32]
theorem TableWidth.cont (length : BitVec 11) (fid : Fid) : TableWidth.Statement (.cont length fid) := by
  simp [TableWidth.Statement, encode, encodeWith, tableBits, be16]
theorem TableWidth.endPpdu (length : BitVec 11) (fid : Fid) : TableWidth.Statement (.endPpdu length fid) := by
  simp [TableWidth.Statement, encode, encodeWith, tableBits, be16]
theorem TableWidth.ptOmit : TableWidth.Statement .ptOmit := by
  simp [TableWidth.Statement, encode, encodeWith, tableBits]
theorem TableWidth.ptComp (code : Byte) : TableWidth.Statement (.ptComp code) := by
  simp [TableWidth.Statement, encode, encodeWith, tableBits]
theorem TableWidth.ptFallback (ptype : Ptype) : TableWidth.Statement (.ptFallback ptype) := by
  simp [TableWidth.Statement, encode, encodeWith, tableBits, le16]
theorem TableWidth.ptUncomp (ptype : Ptype) : TableWidth.Statement (.ptUncomp ptype) := by
  simp [TableWidth.Statement, encode, encodeWith, tableBits, le16]
theorem TableWidth.trlSeq (seq : SeqNb) : TableWidth.Statement (.trlSeq seq) := by
  simp [TableWidth.Statement, encode, encodeWith, tableBits]
theorem TableWidth.trlCrc (crc : Crc) : TableWidth.Statement (.trlCrc crc) := by
  simp [TableWidth.Statement, encode, encodeWith, tableBits, le32]
theorem TableWidth.txNew (cfgword : CfgWord) : TableWidth.Statement (.txNew cfgword) := by
  simp [TableWidth.Statement, encode, encodeWith, tableBits]
theorem TableWidth.txDestroy : TableWidth.Statement .txDestroy := by
  simp [TableWidth.Statement, encode, encodeWith, tableBits]
theorem TableWidth.encap (sdu : Option Bytes) (ptype : Ptype) (fid : Fid) :
    TableWidth.Statement (.encap sdu ptype fid) := by
  simp [TableWidth.Statement, encode, encodeWith, tableBits]
theorem TableWidth.emit (fid : Fid) (burstSize : Nat) : TableWidth.Statement (.emit fid burstSize) := by
  simp [TableWidth.Statement, encode, encodeWith, tableBits]
theorem TableWidth.pack (fpduSize : Nat) (label : Option Bytes) (sched : List Fid) :
    TableWidth.Statement (.pack fpduSize label sched) := by
  simp [TableWidth.Statement, encode, encodeWith, tableBits]
theorem TableWidth.dumpAlpdu (fid : Fid) : TableWidth.Statement (.dumpAlpdu fid) := by
  simp [TableWidth.Statement, encode, encodeWith, tableBits]
theorem TableWidth.txStat (sel n : Nat) : TableWidth.Statement (.txStat sel n) := by
  simp [TableWidth.Statement, encode, encodeWith, tableBits]
theorem TableWidth.rxNew (cfgword : CfgWord) : TableWidth.Statement (.rxNew cfgword) := by
  simp [TableWidth.Statement, encode, encodeWith, tableBits]
theorem TableWidth.rxDestroy : TableWidth.Statement .rxDestroy := by
  simp [TableWidth.Statement, encode, encodeWith, tableBits]
theorem TableWidth.decap (fpdu : Option Bytes) : TableWidth.Statement (.decap fpdu) := by
  simp [TableWidth.Statement, encode, encodeWith, tableBits]
theorem TableWidth.rxStat (sel n : Nat) : TableWidth.Statement (.rxStat sel n) := by
  simp [TableWidth.Statement, encode, encodeWith, tableBits]
theorem TableWidth.hdrsz (cfgword : CfgWord) (fpduType : FpduType) :
    TableWidth.Statement (.hdrsz cfgword fpduType) := by
  simp [TableWidth.Statement, encode, encodeWith, tableBits]
theorem TableWidth.reserved12 : TableWidth.Statement .reserved12 := by
  simp [TableWidth.Statement, encode, encodeWith, tableBits]
theorem TableWidth.reserved13 : TableWidth.Statement .reserved13 := by
  simp [TableWidth.Statement, encode, encodeWith, tableBits]
theorem TableWidth.reserved14 : TableWidth.Statement .reserved14 := by
  simp [TableWidth.Statement, encode, encodeWith, tableBits]
theorem TableWidth.reserved15 : TableWidth.Statement .reserved15 := by
  simp [TableWidth.Statement, encode, encodeWith, tableBits]

end Sys2Proof.Laws
end

