-- ==== Sys2Proof/Tests/Slice0.lean ====
section
/-! SUPPORT. Tests: well-formedness, a word of every instruction written out from spec/30, small steps with results
from spec/95 or from the rules, and for each statement of Certificates/Slice0/Obligations.lean that has hypotheses
values that meet them. -/

namespace Sys2Proof.Tests

open Sys2Proof.Machine

-- One test after the other: each evaluation in the kernel waits for all declarations before it.
set_option Elab.async false

/-! ### Helpers -/

/-- The state after an instruction, where it completes. -/
def after (i : Instr) (s : State) : State :=
  match exec i s with
  | .next t => t
  | .fault _ | .refused _ => s

/-- The instruction completes. -/
def completes (i : Instr) (s : State) : Bool :=
  match exec i s with
  | .next _ => true
  | .fault _ | .refused _ => false

theorem exec_after {i : Instr} {s : State} (h : completes i s = true) : exec i s = .next (after i s) := by
  unfold completes at h
  unfold after
  split at h <;> simp_all

/-- The response of an instruction that completes. -/
def result (i : Instr) (s : State) : Option Response := (after i s).host.response

/-- The status, bytes and events of a response. -/
def brief (r : Option Response) : Option (Status × Bytes × List Event) :=
  r.map (fun r => (r.status, r.bytes, r.events))

/-- A configured transmitter and receiver, both with the word `w`. -/
def both (w : CfgWord) : State := after (.rxNew w) (after (.txNew w) State.reset)

/-- The receiver of `both` at the first PPDU header of an FPDU. -/
def scanning (w : CfgWord) (fpdu : Bytes) : State :=
  { both w with scan := { phase := .header, fpdu := fpdu, events := [], err := false } }

/-- The receiver of `both` in a phase of a scan. -/
def inPhase (w : CfgWord) (p : ScanPhase) : State :=
  { both w with scan := { phase := p, fpdu := [], events := [], err := false } }

/-- Vector V23 of spec/95: ten bytes AA pending on context 2. -/
def pending (w : CfgWord) : State := after (.encap (some (List.replicate 10 0xAA)) 0x0800 2) (both w)

/-- V23 after its first step: a START of 8 bytes has been emitted. -/
def fragmented (w : CfgWord) : State := after (.emit 2 12) (pending w)

/-- V23 after its second step: only the trailer remains. -/
def trailerLeft (w : CfgWord) : State := after (.emit 2 6) (fragmented w)

/-- A receiver with context 1 IN_PROGRESS, two bytes of `total` held, at the header of an FPDU. -/
def receiving (total : Index) (useCrc : Bool) (fpdu : Bytes) : State :=
  let s := scanning 0xD08 fpdu
  let c := { RxCtx.reset with buf := [(0, 0x00), (1, 0x08)], totalLen := total, bytesReceived := 2, useCrc := useCrc }
  { s with rx := { setRxCtx s.rx 1 c with busy := 2 } }

/-! ### Well-formedness refuses -/

theorem test_cont_below_32_refused : Instr.wellFormed (.cont 31 7) = false := by decide
theorem test_cont_32_wellFormed : Instr.wellFormed (.cont 32 7) = true := by decide
theorem test_fallback_code_refused : Instr.wellFormed (.ptComp 0xff) = false := by decide

/-! ### One word of every instruction (spec/30; spec/95 V31 and family G) -/

theorem test_decode_pad : decodeTableWord 8 0x00 = some .pad := by decide
theorem test_decode_comp : decodeTableWord 16 0xC066 = some (.comp 0 false 102) := by decide
theorem test_decode_comp_full : decodeTableWord 16 0xF802 = some (.comp 3 true 2) := by decide
theorem test_decode_start : decodeTableWord 32 0x8024A0CB = some (.start 0 false 36 5 101 true) := by decide
theorem test_decode_start_full : decodeTableWord 32 0xBFFFFFFF = some (.start 3 true 2047 7 4095 true) := by decide
theorem test_decode_cont : decodeTableWord 16 0x0135 = some (.cont 38 5) := by decide
theorem test_decode_end : decodeTableWord 16 0x40FD = some (.endPpdu 31 5) := by decide
theorem test_decode_ptOmit : decodeTableWord 0 0 = some .ptOmit := by decide
theorem test_decode_ptComp : decodeTableWord 8 0x11 = some (.ptComp 0x11) := by decide
theorem test_decode_ptFallback : decodeTableWord 24 0xFF3412 = some (.ptFallback 0x1234) := by decide
theorem test_decode_ptUncomp : decodeTableWord 16 0x0008 = some (.ptUncomp 0x0800) := by decide
theorem test_decode_trlSeq : decodeTrailer false [0x05] = .ok (.trlSeq 5, []) := by rfl
theorem test_decode_trlCrc : decodeTableWord 32 0x2FD4E4F1 = some (.trlCrc 0xF1E4D42F) := by decide
theorem test_decode_commands :
    decodeTableWord 4 0 = some (.txNew 0) ∧ decodeTableWord 4 1 = some .txDestroy ∧
    decodeTableWord 4 2 = some (.encap none 0 0) ∧ decodeTableWord 4 3 = some (.emit 0 0) ∧
    decodeTableWord 4 4 = some (.pack 0 none [0, 1, 2, 3, 4, 5, 6, 7]) ∧ decodeTableWord 4 5 = some (.dumpAlpdu 0) ∧
    decodeTableWord 4 6 = some (.txStat 0 0) ∧ decodeTableWord 4 7 = some (.rxNew 0) ∧
    decodeTableWord 4 8 = some .rxDestroy ∧ decodeTableWord 4 9 = some (.decap none) ∧
    decodeTableWord 4 10 = some (.rxStat 0 0) ∧ decodeTableWord 4 11 = some (.hdrsz 0 .logon) ∧
    decodeTableWord 4 12 = some .reserved12 ∧ decodeTableWord 4 13 = some .reserved13 ∧
    decodeTableWord 4 14 = some .reserved14 ∧ decodeTableWord 4 15 = some .reserved15 := by decide
/-- R109 and R450: a CONT of 31 bytes is read as PAD. -/
theorem test_short_cont_is_pad : decode .ppdu [0x00, 0xFF] = .ok (.pad, [0xFF]) := by rfl
theorem test_truncated_start_refused : decode .ppdu [0x80, 0x01, 0x00] = .error .truncatedHeader := by rfl
theorem test_unknown_command_refused : decodeCommandByte {} [0x10] = .error .notACommandCode := by rfl

/-- The order that spec/93 G6 gives for orientation: the length directly after S and E. -/
def lengthFirst : Config.PpduLayout :=
  { Config.PpduLayout.standard with
    compLength := 3, compLt := 1, compPts := 0, startFragLen := 19, startLt := 17, startPts := 16 }

/-- The fields of two headers under another layout, from their bit positions. -/
theorem test_other_layout :
    encodeWith lengthFirst (.comp 2 true 102) = [0xC3, 0x35] ∧
    decodeWith lengthFirst .ppdu [0x81, 0x76, 0xA0, 0xCB] = .ok (.start 3 false 46 5 101 true, []) := by
  refine ⟨by decide, by rfl⟩

/-! ### Small steps -/

/-- V6 and V5 of spec/95. -/
theorem test_crc : crcMpeg2 [0x00] = 0x4E08BFB4 ∧ crcMpeg2 [] = 0xFFFFFFFF := by decide +kernel
/-- V4: the check value of the default instance. -/
theorem test_crc_check_value :
    crcMpeg2 [0x31, 0x32, 0x33, 0x34, 0x35, 0x36, 0x37, 0x38, 0x39] = 0x0376E6E7 := by decide +kernel
/-- V41, SDU part: the inserted protocol type. -/
theorem test_vlanRestore :
    vlanRestore Config.Params.standard [1, 2, 3, 4, 5, 6, 7, 8, 9, 10, 11, 12, 0x81, 0, 0, 0x64, 0x45, 0, 0, 0x14] =
      .ok (0x8100, [1, 2, 3, 4, 5, 6, 7, 8, 9, 10, 11, 12, 0x81, 0, 0, 0x64, 0x08, 0, 0x45, 0, 0, 0x14]) := by rfl

/-- V21a, V21b. -/
theorem test_txNew : brief (result (.txNew 0xD08) State.reset) = some (.ok, [], []) ∧
    brief (result (.txNew 0xD00) State.reset) = some (.errConfig, [], []) := by decide +kernel
/-- V21l: a NEW over a pending ALPDU. -/
theorem test_txNew_discards : (after (.txNew 0xD0A) (pending 0xD08)).tx = newTx 0xD0A := by decide +kernel
/-- V21h. -/
theorem test_txDestroy : (result .txDestroy State.reset).map (·.status) = some .errNullTrmt ∧
    (after .txDestroy (pending 0xD08)).tx = Tx.reset := by decide +kernel
/-- V21g. -/
theorem test_rxNew : (result (.rxNew 0x3108) State.reset).map (·.status) = some .errConfig ∧
    (after (.rxNew 0xD0A) State.reset).rx.cfg = 0xD0A := by decide +kernel
/-- V21h. -/
theorem test_rxDestroy : (result .rxDestroy State.reset).map (·.status) = some .errNullRcvr ∧
    (after .rxDestroy (both 0xD08)).rx.configured = false := by decide +kernel
/-- V22g: the protocol type suppressed under 0x30. -/
theorem test_encap :
    brief (result (.dumpAlpdu 0) (after (.encap (some [0x60, 0, 0, 0]) 0x86dd 0) (both 0x3009))) =
      some (.ok, [0x60, 0, 0, 0], []) := by decide +kernel
/-- V22k. -/
theorem test_encap_busy :
    (result (.encap (some []) 0 2) (pending 0xD08)).map (·.status) = some .errCtxBusy := by decide +kernel
/-- V23 steps 1 to 4. -/
theorem test_emit_start : brief (result (.emit 2 12) (pending 0xD08)) =
    some (.ok, [0x80, 0x08, 0x40, 0x18, 0x00, 0x08, 0xAA, 0xAA, 0xAA, 0xAA, 0xAA, 0xAA], []) := by decide +kernel
theorem test_emit_cont_end :
    brief (result (.emit 2 6) (fragmented 0xD08)) = some (.ok, [0x00, 0x22, 0xAA, 0xAA, 0xAA, 0xAA], []) ∧
    brief (result (.emit 2 3) (trailerLeft 0xD08)) = some (.okAndDone, [0x40, 0x0A, 0x00], []) := by decide +kernel
/-- V32: label, COMP and padding. -/
theorem test_pack :
    brief (result (.pack 12 (some [0xAB, 0xCD]) [0, 1, 2, 3, 4, 5, 6, 7])
      (after (.encap (some [0x45, 0x00]) 0x0800 7) (both 0x02000D0A))) =
      some (.ok, [0xAB, 0xCD, 0xC0, 0x03, 0x0D, 0x45, 0, 0, 0, 0, 0, 0], []) := by decide +kernel
/-- V36: the schedule's order. -/
theorem test_pack_order :
    brief (result (.pack 8 none [1, 0])
      (after (.encap (some [2]) 0x0800 1) (after (.encap (some [1]) 0x0800 0) (both 0xD0A)))) =
      some (.ok, [0xC0, 0x02, 0x0D, 0x02, 0xC0, 0x02, 0x0D, 0x01], []) := by decide +kernel
/-- V51. -/
theorem test_dumpAlpdu : brief (result (.dumpAlpdu 2) (fragmented 0xD08)) =
    some (.ok, [0x00, 0x08, 0xAA, 0xAA, 0xAA, 0xAA, 0xAA, 0xAA, 0xAA, 0xAA, 0xAA, 0xAA, 0x00], []) := by
  decide +kernel
/-- As V50, for V23's ten bytes. -/
theorem test_txStat : (result (.txStat 8 5) (pending 0xD08)).map (·.value) = some 10 ∧
    (result (.txStat 9 0) (pending 0xD08)).map (·.status) = some .err := by decide +kernel
theorem test_rxStat : (result (.rxStat 8 8) (after (.decap (some [0xC0, 0x05, 0x00, 0x08, 0x01])) (both 0xD08))).map
    (·.value) = some 5 := by decide +kernel
/-- V37a and V37e. -/
theorem test_decap :
    brief (result (.decap (some [0xC0, 0x02, 0x00, 0x08, 0x80, 0x01, 0x00])) (both 0xD08)) =
      some (.err, [], [.sdu none 0x0800 [], .drop none .fpduTruncated]) := by decide +kernel
/-- V39: a length mismatch on context 4. -/
theorem test_decap_mismatch :
    brief (result (.decap (some [0x80, 4, 0x80, 0x28, 0, 8, 1, 2, 0x40, 0x2C, 3, 4, 5, 6, 0])) (both 0xD08)) =
      some (.err, [], [.frag 4, .drop (some 4) .lengthMismatch]) := by decide +kernel
/-- V21i, V21j. -/
theorem test_hdrsz : (result (.hdrsz 0xD08 .trafficCtrl) State.reset).map (fun r => (r.size, r.status)) =
    some (5, .headerSizeOk) ∧ (result (.hdrsz 0x3108 .traffic) State.reset).map (·.status) =
    some .headerSizeErrInvalidConfig := by decide +kernel
/-- V21k. -/
theorem test_reserved : (result .reserved12 State.reset).map (·.status) = some .err ∧
    (result .reserved13 State.reset).map (·.status) = some .err ∧
    (result .reserved14 State.reset).map (·.status) = some .err ∧
    (result .reserved15 State.reset).map (·.status) = some .err := by decide +kernel
theorem test_pad : (after .pad (scanning 0xD08 [0, 1])).scan = Scan.idle := by decide +kernel
theorem test_comp : (after (.comp 0 true 1) (scanning 0xD09 [0xC8, 0x01, 0x45])).scan.phase =
    .alpdu none [0x45] 0 true 1 0 := by decide +kernel
theorem test_start :
    (rxCtx (after (.start 0 false 2 1 9 true) (scanning 0xD08 [0x80, 2, 0x20, 0x13, 7, 8])).rx 1).buf =
      [(0, 7), (1, 8)] := by decide +kernel
theorem test_cont : (rxCtx (after (.cont 1 1) (receiving 9 true [0, 0, 5])).rx 1).bytesReceived = 3 := by
  decide +kernel
theorem test_end : (after (.endPpdu 3 1) (receiving 4 false [0x40, 0x19, 7, 9, 2])).scan.phase =
    .trailer 1 [0x00, 0x08, 7, 9] [2] 3 2 := by decide +kernel
/-- R345: a gap of three is counted lost, and the number after the received one expected. -/
theorem test_trlSeq :
    let s := after (.trlSeq 3) { receiving 4 false [] with scan := { Scan.idle with phase := .trailer 1 [0] [3] 1 0 } }
    (rxCtx s.rx 1).nextExpSeq = 4 ∧ (rxCtx s.rx 1).seqInit = true ∧ (rxCtx s.rx 1).cnt.pktsLost = 0 := by
  decide +kernel
/-- V49's kind: a CRC that does not match. -/
theorem test_trlCrc :
    (after (.trlCrc 0) (inPhase 0xD0C (.trailer 1 [0] [0, 0, 0, 0] 4 0))).scan.events =
      [.drop (some 1) .crcMismatch] := by decide +kernel
/-- V42 and V43. -/
theorem test_ptOmit : (after .ptOmit (inPhase 0x3009 (.alpdu none [0x60, 0] 0 true 2 0))).scan.events =
    [.sdu none 0x86dd [0x60, 0]] := by decide +kernel
theorem test_ptComp : (after (.ptComp 0x77) (inPhase 0xD0A (.alpdu none [0x77, 1] 0 false 2 0))).scan.events =
    [.drop none .malformedPtype] := by decide +kernel
theorem test_ptFallback :
    (after (.ptFallback 0x1234) (inPhase 0xD0A (.alpdu none [0xff, 0x34, 0x12, 9] 0 false 4 0))).scan.events =
      [.sdu none 0x1234 [9]] := by decide +kernel
theorem test_ptUncomp :
    (after (.ptUncomp 0x0800) (inPhase 0xD08 (.alpdu none [0x00, 0x08] 0 false 2 0))).scan.events =
      [.sdu none 0x0800 []] := by decide +kernel

/-- What a step does with a table word placed where it fetches. -/
def stepped (nbits w : Nat) : Option State :=
  match step (State.reset.withFetchWord nbits w) with
  | .next t => some t
  | .fault _ | .refused _ => none

theorem test_fetch_command : (stepped 8 1).bind (fun t => t.host.response.map (·.status)) = some .errNullTrmt := by
  decide +kernel
theorem test_fetch_units : ((stepped 16 0xC003).map (·.rx.off)) = some 5 ∧
    ((stepped 32 0x2FD4E4F1).map (·.scan.events)) = some [.drop (some 0) .crcMismatch] ∧
    ((stepped 24 0xFF3412).map (·.scan.events)) = some [.sdu none 0x1234 []] := by decide +kernel

/-! ### Values that meet the hypotheses of the statements

One theorem for each statement with hypotheses, named after it; where a statement has clauses, each clause has its
line, at a boundary value where it has a range. -/

theorem witness_EncodeDecodeRoundTrip :
    Instr.wellFormed (.cont 32 0) = true ∧ Instr.wellFormed (.ptComp 0xfe) = true ∧
    Instr.wellFormed (.cont 2047 7) = true ∧ lengthFirst.legal = true ∧
    Instr.wellFormedWith lengthFirst (.cont 32 0) = true := by decide

theorem witness_UnpackInvertsPack : 32 ≤ (32 : BitVec 11).toNat ∧ (31 : BitVec 11).toNat < 32 := by decide

theorem witness_PpduBytesDetermined : decode .ppdu [0x01, 0x00, 0x55] = .ok (.cont 32 0, [0x55]) := by rfl

/-- For the default instance, a flip of the first bit of the message, and one of the last bit of the trailer. -/
theorem witness_CrcDetectsSingleBitFlip :
    ([0x30] ++ le32 (crc32 .mpeg2 [0x31]) : Bytes) =
      ([0x31] ++ le32 (crc32 .mpeg2 [0x31])).modify 0 (fun b => b ^^^ BitVec.twoPow 8 0) ∧
    ([0x31] ++ le32 (crc32 .mpeg2 [0x31] ^^^ 0x80000000) : Bytes) =
      ([0x31] ++ le32 (crc32 .mpeg2 [0x31])).modify 4 (fun b => b ^^^ BitVec.twoPow 8 7) := by decide +kernel

/-- CODE_L2S and CODE_VLAN_WO_PTYPE are no code of another branch; the nibbles 4, 6 and 5; a code of no branch. -/
theorem witness_PtypeRoundTrip :
    let p := Config.Params.standard
    let codes : List Byte := [0x0d, 0x0e, 0x0f, 0x11, 0x19, 0x1a]
    p.codeL2s ∉ codes ∧ p.codeL2s ≠ 0x30 ∧ (0x4f : Byte).toNat / 16 = 4 ∧ (0x60 : Byte).toNat / 16 = 6 ∧
    (0x50 : Byte).toNat / 16 = 5 ∧ p.codeVlanWoPtype ∉ codes ∧ p.codeVlanWoPtype ≠ p.codeL2s ∧
    p.codeVlanWoPtype ≠ 0x30 ∧ 0x77 ∉ codes ∧ 0x77 ≠ p.codeL2s ∧ 0x77 ≠ p.codeVlanWoPtype ∧
    validImplicit p.codeL2s = false ∧ ptypeCompress p 0x0082 = some 0x42 ∧ isSuppressible 0x8100 0x0f = true ∧
    isSuppressible 0x0800 0x30 = true ∧ isSuppressible 0x86dd 0x30 = true := by decide

/-- For `P` = 16: a frame of 16 bytes, one whose EtherType is not VLAN, and one for each kind of nibble. -/
theorem witness_VlanRestoreRule :
    let p := Config.Params.standard
    let frame (hi b : Byte) : Bytes := List.replicate 12 0 ++ [hi, 0x00, 0, 0, b]
    16 = p.ethHdrLen + p.vlanHdrLen - 2 ∧ (List.replicate 16 0 : Bytes).length < 17 ∧
    (frame 0x08 0x45)[12]? ≠ some 0x81 ∧ (frame 0x81 0x50)[16]? = some 0x50 ∧
    (0x50 : Byte).toNat / 16 = 5 ∧ (frame 0x81 0x40)[16]? = some 0x40 ∧ (frame 0x81 0x40)[12]? = some 0x81 ∧
    (frame 0x81 0x40)[13]? = some 0x00 ∧ (0x40 : Byte).toNat / 16 = 4 ∧ (frame 0x81 0x6f)[16]? = some 0x6f ∧
    (0x6f : Byte).toNat / 16 = 6 := by decide

theorem witness_NewUnitRule : cfgValid 0x3108 = false ∧ cfgValid 0x0F000F0D08 = true := by decide

theorem witness_DestroyRule : State.reset.tx.configured = false ∧ (both 0xD08).tx.configured = true ∧
    State.reset.rx.configured = false ∧ (both 0xD08).rx.configured = true := by decide

theorem witness_NullUnitRule : State.reset.tx.configured = false ∧ State.reset.rx.configured = false := by decide

theorem length_4088 : (List.replicate 4088 0 : Bytes).length ≤ 4088 := Nat.le_of_eq List.length_replicate

theorem length_4089 : 4088 < (List.replicate 4089 0 : Bytes).length := by
  rw [List.length_replicate]; exact Nat.lt_succ_self 4088

/-- A configured unit; an SDU of 4089 bytes and one of 4088; a context that is not initialised; a busy one. -/
theorem witness_EncapChecks :
    (both 0xD08).tx.configured = true ∧ 4088 < (List.replicate 4089 0 : Bytes).length ∧
    (List.replicate 4088 0 : Bytes).length ≤ 4088 ∧
    (let t : Tx := { Tx.reset with configured := true }
     (txCtx t 7).initialised = false) ∧
    (pending 0xD08).tx.configured = true ∧ (txCtx (pending 0xD08).tx 2).initialised = true ∧
    busyBit (pending 0xD08).tx.busy 2 = true := by
  refine ⟨?_, length_4089, length_4088, ?_, ?_, ?_, ?_⟩ <;> decide +kernel

theorem witness_EncapFillsContext :
    (both 0xD08).tx.configured = true ∧ (List.replicate 4088 0 : Bytes).length ≤ 4088 ∧
    (txCtx (both 0xD08).tx 7).initialised = true ∧ busyBit (both 0xD08).tx.busy 7 = false := by
  refine ⟨?_, length_4088, ?_, ?_⟩ <;> decide

theorem encap_completes (w : CfgWord)
    (h : completes (.encap (some (List.replicate 10 0xAA)) 0x0800 2) (both w) = true) :
    exec (.encap (some (List.replicate 10 0xAA)) 0x0800 2) (both w) = .next (pending w) := exec_after h

theorem answered {t : State} {x : Status} (h : t.host.response.map (·.status) = some x) : Answered t x := by
  unfold Answered
  cases hr : t.host.response with
  | none => simp [hr] at h
  | some r => exact ⟨r, rfl, by simpa [hr] using h⟩

theorem witness_EncapTestAndSet : ([] : Bytes).length ≤ 4088 ∧
    exec (.encap (some (List.replicate 10 0xAA)) 0x0800 2) (both 0xD08) = .next (pending 0xD08) ∧
    Answered (pending 0xD08) .ok :=
  ⟨by decide, encap_completes _ (by decide +kernel), answered (by decide +kernel)⟩

theorem witness_EncapThenDump :
    exec (.encap (some (List.replicate 10 0xAA)) 0x0800 2) (both 0xD0A) = .next (pending 0xD0A) ∧
    Answered (pending 0xD0A) .ok :=
  ⟨encap_completes _ (by decide +kernel), answered (by decide +kernel)⟩

/-- A free context; a burst of 4 for the twelve bytes pending; a burst of 2 for a CONT; in CRC mode a burst of 5 for
the four bytes of the trailer. -/
theorem witness_EmitChangesNothing :
    let u := (pending 0xD08).tx
    let v := (fragmented 0xD08).tx
    let w := (trailerLeft 0xD0C).tx
    (u.configured = true ∧ (txCtx u 0).initialised = true ∧ busyBit u.busy 0 = false) ∧
    ((txCtx u 2).initialised = true ∧ busyBit u.busy 2 = true ∧ (txCtx u 2).isFragmented = false ∧
      ¬ (alpduLen (txCtx u 2) ≤ ppduLenMax ∧ alpduLen (txCtx u 2) + 2 ≤ 4)) ∧
    (v.configured = true ∧ (txCtx v 2).initialised = true ∧ busyBit v.busy 2 = true ∧
      (txCtx v 2).isFragmented = true) ∧
    (w.configured = true ∧ (txCtx w 2).initialised = true ∧ busyBit w.busy 2 = true ∧
      (txCtx w 2).isFragmented = true ∧ ¬ remTotal (txCtx w 2) ≤ min (5 - 2) ppduLenMax ∧
      (txCtx w 2).sduEnd.toNat ≤ (txCtx w 2).cursor.toNat) := by decide +kernel

theorem emitReady_of {t : Tx} {f : Fid} (h : t.configured = true ∧ (txCtx t f).initialised = true ∧
    busyBit t.busy f = true) : EmitReady t f := ⟨h.1, h.2.1, h.2.2⟩

/-- The smallest burst for a COMP of twelve bytes. -/
theorem witness_EmitCompRule :
    EmitReady (pending 0xD08).tx 2 ∧ (txCtx (pending 0xD08).tx 2).isFragmented = false ∧
    compFits (pending 0xD08).tx 2 14 ∧
    memRead fragBufLen (txCtx (pending 0xD08).tx 2).buf (txCtx (pending 0xD08).tx 2).head.toNat
      (alpduLen (txCtx (pending 0xD08).tx 2)) = .ok ([0x00, 0x08] ++ List.replicate 10 0xAA) :=
  ⟨emitReady_of (by decide +kernel), by decide +kernel,
    (by unfold compFits; decide +kernel), (by decide +kernel)⟩

/-- The smallest and the largest burst for a START of twelve bytes; the sequence number and the CRC. -/
theorem witness_EmitStartRule :
    EmitReady (pending 0xD08).tx 2 ∧ EmitReady (pending 0xD0C).tx 2 ∧
    (txCtx (pending 0xD08).tx 2).isFragmented = false ∧ (txCtx (pending 0xD0C).tx 2).isFragmented = false ∧
    ¬ compFits (pending 0xD08).tx 2 13 ∧ ¬ compFits (pending 0xD0C).tx 2 5 ∧
    memRead fragBufLen (txCtx (pending 0xD0C).tx 2).buf (txCtx (pending 0xD0C).tx 2).head.toNat
      (alpduLen (txCtx (pending 0xD0C).tx 2)) = .ok ([0x00, 0x08] ++ List.replicate 10 0xAA) ∧
    (txCtx (pending 0xD08).tx 2).useCrc = false ∧ (txCtx (pending 0xD0C).tx 2).useCrc = true ∧
    (txCtx (pending 0xD0C).tx 2).sduEnd.toNat + 4 ≤ 4095 :=
  ⟨emitReady_of (by decide +kernel), emitReady_of (by decide +kernel), by decide +kernel, by decide +kernel,
    (by unfold compFits; decide +kernel), (by unfold compFits; decide +kernel), by decide +kernel, by decide +kernel,
    by decide +kernel, by decide +kernel⟩

theorem witness_EmitContRule :
    EmitReady (fragmented 0xD08).tx 2 ∧ (txCtx (fragmented 0xD08).tx 2).isFragmented = true ∧
    ¬ endFits (fragmented 0xD08).tx 2 3 ∧ ¬ endFits (fragmented 0xD08).tx 2 6 ∧
    0 < contLen (fragmented 0xD08).tx 2 3 ∧ 0 < contLen (fragmented 0xD08).tx 2 6 ∧
    fragCapReached (fragmented 0xD08).params (txCtx (fragmented 0xD08).tx 2) = false ∧
    memRead fragBufLen (txCtx (fragmented 0xD08).tx 2).buf (txCtx (fragmented 0xD08).tx 2).cursor.toNat
      (contLen (fragmented 0xD08).tx 2 3) = .ok [0xAA] :=
  ⟨emitReady_of (by decide +kernel), by decide +kernel, (by unfold endFits; decide +kernel),
    (by unfold endFits; decide +kernel), by decide +kernel, by decide +kernel, by decide +kernel, by decide +kernel⟩

theorem witness_EmitEndRule :
    EmitReady (trailerLeft 0xD08).tx 2 ∧ (txCtx (trailerLeft 0xD08).tx 2).isFragmented = true ∧
    endFits (trailerLeft 0xD08).tx 2 3 ∧
    fragCapReached (trailerLeft 0xD08).params (txCtx (trailerLeft 0xD08).tx 2) = false ∧
    memRead fragBufLen (txCtx (trailerLeft 0xD08).tx 2).buf (txCtx (trailerLeft 0xD08).tx 2).cursor.toNat
      (remTotal (txCtx (trailerLeft 0xD08).tx 2)) = .ok [0] :=
  ⟨emitReady_of (by decide +kernel), by decide +kernel, (by unfold endFits; decide +kernel), by decide +kernel,
    by decide +kernel⟩

/-- Under MAX_FRAGS = 2, as in V29: an END and a CONT after two PPDUs. -/
theorem witness_EmitTooMuchFrag :
    let cap : { n : Nat // 2 ≤ n } := ⟨2, Nat.le_refl 2⟩
    let capped (s : State) : State := { s with params := { s.params with maxFrags := some cap } }
    let ending := capped (trailerLeft 0xD08)
    let going := capped (after (.emit 2 3) (fragmented 0xD08))
    EmitReady ending.tx 2 ∧ (txCtx ending.tx 2).isFragmented = true ∧ endFits ending.tx 2 3 ∧
    ending.params.maxFrags = some cap ∧ cap.val ≤ (txCtx ending.tx 2).fragCount ∧
    EmitReady going.tx 2 ∧ (txCtx going.tx 2).isFragmented = true ∧ 0 < contLen going.tx 2 3 ∧
    cap.val ≤ (txCtx going.tx 2).fragCount :=
  ⟨emitReady_of (by decide +kernel), by decide +kernel, (by unfold endFits; decide +kernel), rfl,
    by decide +kernel, emitReady_of (by decide +kernel), by decide +kernel, by decide +kernel, by decide +kernel⟩

/-! #### The invariants -/

theorem both_rx (w : CfgWord) (h : cfgValid w = true) : (both w).rx = newRx w := by
  simp [both, after, exec, execRxNew, h, answerStatus, answer, respond]

theorem both_tx (w : CfgWord) (h : cfgValid w = true) : (both w).tx = newTx w := by
  simp [both, after, exec, execRxNew, execTxNew, h, answerStatus, answer, respond]

theorem both_scan (w : CfgWord) (h : cfgValid w = true) : (both w).scan = Scan.idle := by
  simp [both, after, exec, execRxNew, h, answerStatus, answer, respond]

theorem both_inv (w : CfgWord) (h : cfgValid w = true) : Inv (both w) :=
  have hr : RxInv (both w).params.rasmBufLen (both w).rx := by rw [both_rx w h]; exact newRx_inv h
  ⟨by rw [both_tx w h]; exact newTx_inv h, hr, (RxScanInv.idle hr (both_scan w h)).scan⟩

theorem encapped_txInv {s : State} {sdu : Bytes} {ptype : Ptype} {f : Fid} (h : TxInv s.tx) :
    TxInv (after (.encap (some sdu) ptype f) s).tx := by
  unfold after
  simp only [exec, execEncap]
  split
  · next t ht =>
    split at ht
    · next hc =>
      split at ht
      · cases ht; exact h
      · next hl =>
        split at ht
        · cases ht; exact h
        · split at ht
          · cases ht; exact h
          · split at ht
            · cases ht
            · next c hfill =>
              cases ht
              exact encap_inv h hc (by simpa using hl) hfill _ _
    · cases ht; exact h
  all_goals exact h

theorem emitted_txInv {s : State} {f : Fid} {burst : Nat} (h : TxInv s.tx) : TxInv (after (.emit f burst) s).tx := by
  obtain ⟨e, he⟩ := emit_total (p := s.params) h f burst
  have : after (.emit f burst) s = respond { status := e.status, bytes := e.ppdu } { s with tx := e.tx } := by
    simp [after, exec, execEmit, he, answer]
  rw [this]
  exact emit_inv h he

theorem pending_txInv : TxInv (pending 0xD08).tx := encapped_txInv (both_inv 0xD08 (by decide)).tx

theorem fragmented_txInv : TxInv (fragmented 0xD08).tx := emitted_txInv pending_txInv

theorem witness_EmitBounded : TxInv (fragmented 0xD08).tx := fragmented_txInv

/-- The burst that is just large enough. -/
theorem witness_EmitProgress :
    TxInv (pending 0xD08).tx ∧ exec (.emit 2 12) (pending 0xD08) = .next (fragmented 0xD08) ∧
    (fragmented 0xD08).host.response.map (·.status) = some .ok ∧
    2 + trlLen (txCtx (pending 0xD08).tx 2).useCrc ≤ 5 :=
  ⟨pending_txInv, exec_after (by decide +kernel), by decide +kernel, by decide +kernel⟩

theorem witness_PackChecks :
    (both 0x02000D0A).tx.configured = true ∧ implicitPayloadLabelSize (both 0x02000D0A).tx.cfg = 2 ∧
    ([1] : Bytes).length ≠ 2 ∧ ([1, 2] : Bytes).length = 2 ∧ 1 < 2 := by decide +kernel

/-- With no label, and with a label of two bytes in an FPDU of two. -/
theorem witness_PackRunsItsLoops :
    TxInv (both 0xD08).tx ∧ (both 0xD08).tx.configured = true ∧ implicitPayloadLabelSize (both 0xD08).tx.cfg = 0 ∧
    TxInv (both 0x02000D0A).tx ∧ (both 0x02000D0A).tx.configured = true ∧
    implicitPayloadLabelSize (both 0x02000D0A).tx.cfg = ([1, 2] : Bytes).length :=
  ⟨(both_inv _ (by decide)).tx, by decide +kernel, by decide +kernel, (both_inv _ (by decide)).tx, by decide +kernel,
    by decide +kernel⟩

theorem witness_StatRule :
    State.reset.tx.configured = false ∧ State.reset.rx.configured = false ∧ (both 0xD08).tx.configured = true ∧ (both 0xD08).rx.configured = true ∧ 9 > 8 ∧
    (countersOf (pending 0xD08).tx.agg)[8]? = some 0 ∧
    (countersOf (txCtx (pending 0xD08).tx 2).cnt)[5]? = some 10 ∧ (7 : Fid).toNat = 7 ∧
    (countersOf (rxCtx (both 0xD08).rx 7).cnt)[8]? = some 0 := by decide +kernel

theorem witness_DumpRule :
    State.reset.tx.configured = false ∧ (pending 0xD08).tx.configured = true ∧ busyBit (pending 0xD08).tx.busy 0 = false ∧
    busyBit (pending 0xD08).tx.busy 2 = true ∧
    memRead fragBufLen (txCtx (pending 0xD08).tx 2).buf (txCtx (pending 0xD08).tx 2).head.toNat
      ((txCtx (pending 0xD08).tx 2).tail.toNat - (txCtx (pending 0xD08).tx 2).head.toNat) =
      .ok ([0x00, 0x08] ++ List.replicate 10 0xAA) := by decide +kernel

theorem witness_PadRule : (scanning 0xD08 [0]).scan.phase = .header := by decide +kernel

/-- A payload that ends the FPDU, and an empty one; the four label types. -/
theorem witness_CompRule :
    (scanning 0xD08 [0xC0, 1, 7]).scan.phase = .header ∧ PayloadIs (scanning 0xD08 [0xC0, 1, 7]) 2 1 [7] ∧
    PayloadIs (scanning 0xD08 [0xC0, 0]) 2 0 [] ∧ LegalLt 0 ∧ LegalLt 3 ∧ ¬ LegalLt 1 ∧ ¬ LegalLt 2 :=
  ⟨by decide +kernel, (by unfold PayloadIs; decide +kernel), (by unfold PayloadIs; decide +kernel), .inl rfl,
    .inr rfl, (by unfold LegalLt; decide), (by unfold LegalLt; decide)⟩

/-- The whole ALPDU in the START: `len = total`. -/
theorem witness_StartAccepted :
    (scanning 0xD08 [0x80, 1, 0, 2, 7]).scan.phase = .header ∧
    PayloadIs (scanning 0xD08 [0x80, 1, 0, 2, 7]) 4 1 [7] ∧
    busyBit (scanning 0xD08 [0x80, 1, 0, 2, 7]).rx.busy 0 = false ∧ LegalLt 3 ∧
    (1 : BitVec 11).toNat ≤ (1 : Index).toNat :=
  ⟨by decide +kernel, (by unfold PayloadIs; decide +kernel), by decide +kernel, .inr rfl, by decide⟩

/-- A busy context; a free one with a reserved label type; a free one with `len = total + 1`. -/
theorem witness_StartDropped :
    (receiving 9 false [0x80, 1, 0x20, 2, 7]).scan.phase = .header ∧
    PayloadIs (receiving 9 false [0x80, 1, 0x20, 2, 7]) 4 1 [7] ∧
    busyBit (receiving 9 false [0x80, 1, 0x20, 2, 7]).rx.busy 1 = true ∧
    PayloadIs (scanning 0xD08 [0x80, 1, 0, 0, 7]) 4 1 [7] ∧
    busyBit (scanning 0xD08 [0x80, 1, 0, 0, 7]).rx.busy 0 = false ∧ ¬ LegalLt 1 ∧ LegalLt 0 ∧
    (0 : Index).toNat < (1 : BitVec 11).toNat :=
  ⟨by decide +kernel, (by unfold PayloadIs; decide +kernel), by decide +kernel, (by unfold PayloadIs; decide +kernel),
    by decide +kernel, (by unfold LegalLt; decide), .inl rfl, by decide⟩

/-- One byte for a context that lacks one, and for one that lacks none. -/
theorem witness_ContRule :
    (receiving 3 false [0, 9, 7]).scan.phase = .header ∧ PayloadIs (receiving 3 false [0, 9, 7]) 2 1 [7] ∧
    busyBit (receiving 3 false [0, 9, 7]).rx.busy 1 = true ∧
    (rxCtx (receiving 3 false [0, 9, 7]).rx 1).bytesReceived.toNat + 1 =
      (rxCtx (receiving 3 false [0, 9, 7]).rx 1).totalLen.toNat ∧
    PayloadIs (receiving 2 false [0, 9, 7]) 2 1 [7] ∧ busyBit (receiving 2 false [0, 9, 7]).rx.busy 1 = true ∧
    (rxCtx (receiving 2 false [0, 9, 7]).rx 1).totalLen.toNat + 1 =
      (rxCtx (receiving 2 false [0, 9, 7]).rx 1).bytesReceived.toNat + 1 :=
  ⟨by decide +kernel, (by unfold PayloadIs; decide +kernel), by decide +kernel, by decide +kernel,
    (by unfold PayloadIs; decide +kernel), by decide +kernel, by decide +kernel⟩

theorem witness_InvalidTransition :
    (scanning 0xD08 [0x40, 0x08, 7]).scan.phase = .header ∧ PayloadIs (scanning 0xD08 [0x40, 0x08, 7]) 2 1 [7] ∧
    busyBit (scanning 0xD08 [0x40, 0x08, 7]).rx.busy 0 = false :=
  ⟨by decide +kernel, (by unfold PayloadIs; decide +kernel), by decide +kernel⟩

/-- An END of the trailer alone, and one of a byte and the trailer. -/
theorem witness_EndAccepted :
    (receiving 2 false [0x40, 0x09, 7]).scan.phase = .header ∧
    PayloadIs (receiving 2 false [0x40, 0x09, 7]) 2 1 [7] ∧
    busyBit (receiving 2 false [0x40, 0x09, 7]).rx.busy 1 = true ∧
    (let c := rxCtx (receiving 2 false [0x40, 0x09, 7]).rx 1
     trlLen c.useCrc ≤ 1 ∧ c.bytesReceived.toNat + (1 - trlLen c.useCrc) = c.totalLen.toNat ∧
      memRead 4095 c.buf 0 c.bytesReceived.toNat = .ok [0x00, 0x08]) :=
  ⟨by decide +kernel, (by unfold PayloadIs; decide +kernel), by decide +kernel, by decide +kernel⟩

/-- Three bytes where the CRC has four; a trailer alone where one ALPDU byte is missing. -/
theorem witness_EndDropped :
    (receiving 2 true [0x40, 0x19, 7, 7, 7]).scan.phase = .header ∧
    PayloadIs (receiving 2 true [0x40, 0x19, 7, 7, 7]) 2 3 [7, 7, 7] ∧
    busyBit (receiving 2 true [0x40, 0x19, 7, 7, 7]).rx.busy 1 = true ∧
    3 < trlLen (rxCtx (receiving 2 true [0x40, 0x19, 7, 7, 7]).rx 1).useCrc ∧
    PayloadIs (receiving 3 false [0x40, 0x09, 7]) 2 1 [7] ∧
    (let c := rxCtx (receiving 3 false [0x40, 0x09, 7]).rx 1
     trlLen c.useCrc ≤ 1 ∧ c.bytesReceived.toNat + (1 - trlLen c.useCrc) ≠ c.totalLen.toNat) :=
  ⟨by decide +kernel, (by unfold PayloadIs; decide +kernel), by decide +kernel, by decide +kernel,
    (by unfold PayloadIs; decide +kernel), by decide +kernel⟩

/-- A receiver at the trailer of context 1, which expects number 0 and calls a difference of 4 ambiguous. -/
def expecting (seqInit : Bool) : State :=
  let s := inPhase 0xD08 (.trailer 1 [0] [3] 1 0)
  { s with
    rx := setRxCtx s.rx 1 { RxCtx.reset with seqInit := seqInit }
    params := { s.params with seqAmbigMin := 4 } }

/-- The first trailer; a difference of 3 and one of 4 where SEQ_AMBIG_MIN is 4. -/
theorem witness_TrlSeqRule :
    (expecting false).scan.phase = .trailer 1 [0] [3] 1 0 ∧ (rxCtx (expecting false).rx 1).seqInit = false ∧
    (expecting true).scan.phase = .trailer 1 [0] [3] 1 0 ∧ (rxCtx (expecting true).rx 1).seqInit = true ∧
    (8 + (3 : SeqNb).toNat - (rxCtx (expecting true).rx 1).nextExpSeq.toNat) % 8 = 3 ∧
    (8 + (4 : SeqNb).toNat - (rxCtx (expecting true).rx 1).nextExpSeq.toNat) % 8 = 4 ∧
    3 < (expecting true).params.seqAmbigMin ∧ (expecting true).params.seqAmbigMin ≤ 4 := by decide +kernel

theorem witness_TrlCrcRule :
    (inPhase 0xD0C (.trailer 1 [0x00] [0xB4, 0xBF, 0x08, 0x4E] 4 0)).scan.phase =
      .trailer 1 [0x00] [0xB4, 0xBF, 0x08, 0x4E] 4 0 ∧
    0x4E08BFB4 = crc32 .mpeg2 [0x00] ∧ 0x4E08BFB5 ≠ crc32 .mpeg2 [0x00] := by decide +kernel

/-- SDUs of 4088 and of 4089 bytes; a code no type has, and a VLAN frame cut short. -/
theorem witness_DeliveryRule :
    let p : ScanPhase := .alpdu none [0x77] 0 false 1 0
    let s := inPhase 0xD0A p
    s.scan.phase = p ∧ (List.replicate 4088 0 : Bytes).length ≤ 4088 ∧
    4088 < (List.replicate 4089 0 : Bytes).length ∧
    (∀ sdu : Bytes, formExpands s 0 (0x0d :: sdu) (.ptComp 0x0d) = some (.ok (0x0800, sdu))) ∧
    formExpands s 0 [0x77] (.ptComp 0x77) = some (.error .malformedPtype) ∧
    formExpands s 0 [0x31] (.ptComp 0x31) = some (.error .malformedVlan) := by
  refine ⟨by decide +kernel, length_4088, length_4089, fun sdu => rfl, by rfl, by rfl⟩

/-- One byte short, for headers of two and of four bytes. -/
theorem witness_TruncatedPayload :
    (scanning 0xD08 [0xC0, 1]).scan.phase = .header ∧
    (scanning 0xD08 [0xC0, 1]).scan.fpdu.length + 1 =
      (scanning 0xD08 [0xC0, 1]).rx.off + 2 + (1 : BitVec 11).toNat ∧
    (scanning 0xD08 [0x80, 1, 0, 2]).scan.phase = .header ∧
    (scanning 0xD08 [0x80, 1, 0, 2]).scan.fpdu.length + 1 =
      (scanning 0xD08 [0x80, 1, 0, 2]).rx.off + 4 + (1 : BitVec 11).toNat := by decide +kernel

theorem witness_UnitOutOfPlaceRefused :
    siteOf .pad = .ppdu ∧ State.reset.scan.phase ≠ .header ∧ siteOf (.trlSeq 0) = .trailer false ∧
    (∀ f a t l p, State.reset.scan.phase ≠ .trailer f a t l p) ∧ siteOf (.ptComp 0) = .alpduHdr false true ∧
    (∀ f a lt pts l p, (scanning 0xD08 []).scan.phase ≠ .alpdu f a lt pts l p) := by
  refine ⟨rfl, by decide, rfl, ?_, rfl, ?_⟩
  · intros; simp [State.reset, Scan.idle]
  · intros; simp [scanning]

theorem witness_DecapShortFpdu :
    (both 0x02000D0A).rx.configured = true ∧
    ([1] : Bytes).length + 1 = implicitPayloadLabelSize (both 0x02000D0A).rx.cfg := by decide +kernel

theorem witness_DecapStatus :
    State.reset.rx.configured = false ∧ (both 0xD08).rx.configured = true ∧ RxInv (both 0xD08).params.rasmBufLen (both 0xD08).rx :=
  ⟨by decide, by decide +kernel, (both_inv _ (by decide)).rx⟩

theorem witness_DecapRunsItsUnits :
    RxInv (both 0x02000D0A).params.rasmBufLen (both 0x02000D0A).rx ∧ (both 0x02000D0A).rx.configured = true ∧
    implicitPayloadLabelSize (both 0x02000D0A).rx.cfg ≤ ([1, 2] : Bytes).length :=
  ⟨(both_inv _ (by decide)).rx, by decide +kernel, by decide +kernel⟩

theorem witness_MachinesIndependent :
    completes (.start 0 false 1 0 1 false) (scanning 0xD08 [0x80, 1, 0, 2, 7]) = true ∧
    completes (.cont 1 1) (receiving 3 false [0, 9, 7]) = true ∧
    completes (.endPpdu 1 1) (receiving 2 false [0x40, 0x09, 7]) = true ∧
    completes (.trlSeq 3) (inPhase 0xD08 (.trailer 1 [0] [3] 1 0)) = true ∧
    completes (.trlCrc 3) (inPhase 0xD08 (.trailer 1 [0] [3, 0, 0, 0] 4 0)) = true ∧
    completes (.comp 0 false 1) (scanning 0xD08 [0xC0, 1, 7]) = true := by decide +kernel

/-- A receiver command in the queue; a unit of each kind. -/
theorem witness_StepRunsDecoded :
    let q : Request := { producer := 3, code := 8, operands := {} }
    let s := issue q (both 0xD08)
    s.scan.phase = .idle ∧ s.host.requests = [q] ∧ decode (.command q.operands) [0x08] = .ok (.rxDestroy, []) ∧
    allowedTo s q.producer .rxDestroy = true ∧
    decode .ppdu ((scanning 0xD08 [0x00]).scan.fpdu.drop (scanning 0xD08 [0x00]).rx.off) = .ok (.pad, []) ∧
    decode (.trailer (rxCtx (inPhase 0xD08 (.trailer 1 [0] [3] 1 0)).rx 1).useCrc) [3] = .ok (.trlSeq 3, []) ∧
    decode (.alpduHdr false (useCompressedPtype (inPhase 0xD0A .header).rx.cfg)) [0x0d] = .ok (.ptComp 0x0d, []) := by
  refine ⟨by decide +kernel, by decide +kernel, by rfl, by decide +kernel, by rfl, by rfl, by rfl⟩

/-- The end of the FPDU; one byte of a COMP and three of a START; each ALPDU that is one byte too short. -/
theorem witness_StepWithoutUnit :
    (scanning 0xD08 []).scan.phase = .header ∧ (scanning 0xD08 []).rx.off = (scanning 0xD08 []).scan.fpdu.length ∧
    (scanning 0xD08 [0xC0]).scan.fpdu.drop (scanning 0xD08 [0xC0]).rx.off = [0xC0] ∧
    (0xC0 : Byte).toNat / 64 ≠ 2 ∧
    (scanning 0xD08 [0x80, 1, 0]).scan.fpdu.drop (scanning 0xD08 [0x80, 1, 0]).rx.off = [0x80, 1, 0] ∧
    (0x80 : Byte).toNat / 64 = 2 ∧
    useCompressedPtype (inPhase 0xD0A (.alpdu none [0xff, 1] 0 false 2 0)).rx.cfg = true ∧
    ([0xff, 1] : Bytes).head? = some 0xff ∧
    useCompressedPtype (inPhase 0xD08 (.alpdu none [1] 0 false 1 0)).rx.cfg = false := by decide +kernel

/-- Producer 0 has taken context 2, and producer 1 context 0. -/
def twoProducers : State :=
  let s := pending 0xD08
  after (.encap (some []) 0x0800 0) { s with host := { s.host with producer := 1 } }

/-- A DUMP_ALPDU of context 2 names that context and no other. -/
theorem dump_names (producer : Nat) (f : Fid) :
    let q : Request := { producer := producer, code := 5, operands := { fid := 2 } }
    f = 2 ↔ (∃ b, requestInstr q = .emit f b) ∨ requestInstr q = .dumpAlpdu f ∨
      ∃ n l fs, requestInstr q = .pack n l fs ∧ f ∈ fs := by
  simp [requestInstr, decodeCommand, eq_comm]

/-- Producer 0 may name context 2, which it has taken while producer 1 holds context 0; context 3 is free. -/
theorem witness_ForeignProducerRefused_own :
    completes (.encap (some (List.replicate 10 0xAA)) 0x0800 2) (both 0xD08) = true ∧
    (result (.encap (some (List.replicate 10 0xAA)) 0x0800 2) (both 0xD08)).map (·.status) = some .ok ∧
    (let q : Request := { producer := 0, code := 5, operands := { fid := 2 } }
     let s := issue q twoProducers
     s.scan.phase = .idle ∧ s.host.requests = [q] ∧ busyBit s.tx.busy 2 = true ∧
      s.host.owner[(2 : Fid).toNat]'(2 : Fid).isLt = q.producer ∧ busyBit s.tx.busy 0 = true ∧
      s.host.owner[(0 : Fid).toNat]'(0 : Fid).isLt = 1 ∧ busyBit s.tx.busy 3 = false) := by
  decide +kernel

/-- Producer 1 names context 2, which producer 0 has taken. -/
theorem witness_ForeignProducerRefused :
    let q : Request := { producer := 1, code := 5, operands := { fid := 2 } }
    let s := issue q twoProducers
    s.scan.phase = .idle ∧ s.host.requests = [q] ∧ busyBit s.tx.busy 2 = true ∧
    s.host.owner[(2 : Fid).toNat]'(2 : Fid).isLt ≠ q.producer ∧ requestInstr q = .dumpAlpdu 2 ∧
    requestInstr { producer := 1, code := 3, operands := { fid := 2, size := 9 } } = .emit 2 9 ∧
    requestInstr { producer := 1, code := 4, operands := { sched := [0, 2] } } = .pack 0 none [0, 2] := by
  decide +kernel

/-- A TX_DESTROY in the queue of two configured units. -/
def destroying : State := issue { producer := 0, code := 1, operands := {} } (both 0xD08)

theorem destroying_inv : Inv destroying :=
  ⟨(both_inv 0xD08 (by decide)).tx, (both_inv 0xD08 (by decide)).rx, (both_inv 0xD08 (by decide)).scan⟩

theorem destroying_steps : ∃ t, step destroying = .next t :=
  ⟨_, by
    simp only [step, show destroying.scan.phase = .idle by decide +kernel, ↓reduceIte]
    rfl⟩

theorem witness_StepKeepsInvariant : Inv destroying ∧ ∃ t, step destroying = .next t :=
  ⟨destroying_inv, destroying_steps⟩

theorem witness_NoBufferFault : Inv destroying ∧ Reachable (issue { producer := 0, code := 1, operands := {} }
    { State.reset with params := Config.Params.standard }) := ⟨destroying_inv, .issue _ (.reset _)⟩

/-- The third clause: another producer's DUMP_ALPDU. -/
theorem witness_NoBufferFault_refusal :
    let s := issue { producer := 1, code := 5, operands := { fid := 2 } } (pending 0xD08)
    TxInv s.tx ∧ (match step s with | .refused e => e == .foreignProducer | .next _ | .fault _ => false) = true :=
  ⟨pending_txInv, by decide +kernel⟩

theorem witness_ParamsNeverChange : ∃ t, step destroying = .next t := destroying_steps

theorem witness_UnitsShareNothing : completes .txDestroy (both 0xD08) = true ∧
    completes .rxDestroy (both 0xD08) = true ∧ completes .pad (scanning 0xD08 [0]) = true := by decide +kernel

theorem witness_StatusRelation : Inv (both 0xD08) ∧ siteOf .txDestroy = .command {} :=
  ⟨both_inv _ (by decide), rfl⟩

theorem destroying_counters : CountersAgree destroying where
  width := by
    rintro c ((rfl | ⟨f, rfl⟩) | (rfl | ⟨f, rfl⟩))
    · decide +kernel
    · revert f; decide +kernel
    · decide +kernel
    · revert f; decide +kernel
  txCtxs := by unfold TxBalance; decide +kernel
  txAgg := by unfold TxBalance; decide +kernel
  txStill := by
    rintro c (rfl | ⟨f, rfl⟩)
    · decide +kernel
    · revert f; decide +kernel
  rx := by
    rintro c (rfl | ⟨f, rfl⟩)
    · decide +kernel
    · revert f; decide +kernel

theorem witness_StepKeepsCounters : Inv destroying ∧ CountersAgree destroying ∧ ∃ t, step destroying = .next t :=
  ⟨destroying_inv, destroying_counters, destroying_steps⟩

/-- V23's ALPDU, sent as a START of eight bytes and an END. -/
theorem emitRun_two : EmitRun 2 (pending 0xD08)
    [[0x80, 0x08, 0x40, 0x18, 0x00, 0x08, 0xAA, 0xAA, 0xAA, 0xAA, 0xAA, 0xAA],
      [0x40, 0x2A, 0xAA, 0xAA, 0xAA, 0xAA, 0x00]] (after (.emit 2 7) (fragmented 0xD08)) :=
  .more (burst := 12) (r := { status := .ok
                              bytes := [0x80, 0x08, 0x40, 0x18, 0x00, 0x08, 0xAA, 0xAA, 0xAA, 0xAA, 0xAA, 0xAA] })
    (exec_after (by decide +kernel)) (by decide +kernel) rfl
    (.last (burst := 7) (r := { status := .okAndDone, bytes := [0x40, 0x2A, 0xAA, 0xAA, 0xAA, 0xAA, 0x00] })
      (exec_after (by decide +kernel)) (by decide +kernel) rfl)

theorem witness_SduRoundTrip :
    let s := both 0xD08
    Inv s ∧ s.scan.phase = .idle ∧ s.rx.configured = true ∧ s.rx.cfg = s.tx.cfg ∧
    validImplicit s.params.codeL2s = false ∧ s.params.codeL2s ≠ 0xff ∧ 0 < s.params.seqAmbigMin ∧
    busyBit s.rx.busy 2 = false ∧ (rxCtx s.rx 2).seqInit = false ∧
    chooseHeader s.params s.tx.cfg 0x0800 = .ptUncomp 0x0800 ∧
    exec (.encap (some (List.replicate 10 0xAA)) 0x0800 2) s = .next (pending 0xD08) ∧
    Answered (pending 0xD08) .ok ∧ implicitPayloadLabelSize s.tx.cfg = 0 ∧
    EmitRun 2 (pending 0xD08)
      [[0x80, 0x08, 0x40, 0x18, 0x00, 0x08, 0xAA, 0xAA, 0xAA, 0xAA, 0xAA, 0xAA],
        [0x40, 0x2A, 0xAA, 0xAA, 0xAA, 0xAA, 0x00]] (after (.emit 2 7) (fragmented 0xD08)) :=
  ⟨both_inv _ (by decide), by decide +kernel, by decide +kernel, by decide +kernel, by decide, by decide, by decide,
    by decide +kernel, by decide +kernel, by decide +kernel, encap_completes _ (by decide +kernel),
    answered (by decide +kernel), by decide +kernel, emitRun_two⟩

end Sys2Proof.Tests
end

section
/-! The state after reset (spec/10 R63, spec/70 R440) and the step that has nothing to do. -/

namespace Sys2Proof.Machine

/-- R430: between commands, a machine that waits for the host stays as it is. -/
theorem step_of_no_request {s : State} (hidle : s.scan.phase = .idle) (hnone : s.host.requests = []) :
    step s = .next s := by
  have hcommand : step s = commandStep s := if_pos hidle
  rw [hcommand, commandStep, hnone]

/-- Settles O49: the registers are those the reset constants name, every context is the reset context, and no request
is outstanding. -/
theorem resetState : Obligations.ResetState :=
  have hstep : step State.reset = .next State.reset := step_of_no_request rfl rfl
  ⟨rfl, rfl, rfl, rfl, rfl, rfl, txCtx_reset, rxCtx_reset, hstep⟩

end Sys2Proof.Machine
end

section
/-! The codec of PPDU headers (spec/40 R140, R141): what is read of each packed header word, the decoder on the bytes
of a word, and UNPACK_HDR after PACK_HDR under every legal layout. `S` and `E` are the field of width 2 at the top of a
header (spec/30 R101). -/

namespace Sys2Proof

/-! ### Bytes and bits of a word -/

theorem extract_extract {n : Nat} (x : BitVec n) {pos w pos' w' : Nat} (h : pos' + w' ≤ w) :
    (x.extractLsb' pos w).extractLsb' pos' w' = x.extractLsb' (pos + pos') w' := by
  apply BitVec.eq_of_getLsbD_eq
  intro i hi
  simp [hi, show pos' + i < w by omega, Nat.add_assoc]

theorem word16_bytes (w : BitVec 16) : word16 (w.extractLsb' 8 8) (w.extractLsb' 0 8) = w := by
  unfold word16
  rw [BitVec.extractLsb'_append_extractLsb'_eq_extractLsb' (by decide)]
  exact BitVec.extractLsb'_eq_self

theorem word32_bytes (x : BitVec 32) :
    word32 (x.extractLsb' 24 8) (x.extractLsb' 16 8) (x.extractLsb' 8 8) (x.extractLsb' 0 8) = x := by
  unfold word32
  rw [BitVec.extractLsb'_append_extractLsb'_eq_extractLsb' (by decide),
    BitVec.extractLsb'_append_extractLsb'_eq_extractLsb' (by decide),
    BitVec.extractLsb'_append_extractLsb'_eq_extractLsb' (by decide)]
  exact BitVec.extractLsb'_eq_self

/-- A flag is the field of width 1 at its place. -/
theorem getLsbD_of_extract {n : Nat} {x : BitVec n} {pos : Nat} {b : Bool} (h : x.extractLsb' pos 1 = BitVec.ofBool b) :
    x.getLsbD pos = b := by
  rw [getLsbD_eq_extract, h]
  cases b <;> rfl

theorem isStartByte_iff (b : Byte) : isStartByte b = true ↔ b.extractLsb' 6 2 = 2#2 := by
  revert b; decide

/-- Which of the two-byte headers a word is, from S and E (R101). -/
theorem unpackShort_eq (l : Config.PpduLayout) (w : BitVec 16) :
    unpackShort l w = if (w.extractLsb' 14 2).getLsbD 1 then unpackComp l w
      else if (w.extractLsb' 14 2).getLsbD 0 then unpackEnd l w else unpackCont l w := by
  simp [unpackShort]

/-! ### The packed words: each field is read back (R107) -/

/-- A field that ends where the place read begins, or begins where it ends: `extract_fieldAt_apart` as a layout's list
of fields says it of a later field. -/
theorem extract_fieldAt_apart_symm {n pos pos' w w' : Nat} (v : BitVec w) (h : pos + w ≤ pos' ∨ pos' + w' ≤ pos) :
    (fieldAt n pos v).extractLsb' pos' w' = 0 := extract_fieldAt_apart v h.symm

/-- S and E stand above the fields of a header and share no bit with them. -/
theorem fieldsFit_marker {bits : Nat} {fields : List (Nat × Nat)} (h : Config.fieldsFit bits fields = true) :
    (∀ x ∈ (bits, 2) :: fields, x.1 + x.2 ≤ bits + 2) ∧
    ((bits, 2) :: fields).Pairwise (fun x y => x.1 + x.2 ≤ y.1 ∨ y.1 + y.2 ≤ x.1) := by
  obtain ⟨hfit, hapart⟩ : (∀ x ∈ fields, x.1 + x.2 ≤ bits) ∧ fields.Pairwise _ := by
    simpa only [Config.fieldsFit, Bool.and_eq_true, List.all_eq_true, decide_eq_true_eq] using h
  refine ⟨List.forall_mem_cons.mpr ⟨Nat.le_refl _, fun x hx => ?_⟩,
    List.pairwise_cons.mpr ⟨fun x hx => .inr (hfit x hx), hapart⟩⟩
  exact Nat.le_add_right_of_le (hfit x hx)

section
variable {l : Config.PpduLayout} (hl : l.legal = true)
include hl

theorem legal_parts :
    Config.fieldsFit 14 [(l.compLt, 2), (l.compPts, 1), (l.compLength, 11)] = true ∧
    Config.fieldsFit 30 [(l.startLt, 2), (l.startPts, 1), (l.startFragLen, 11), (l.startFid, 3), (l.startTotalLen, 12),
      (l.startUseCrc, 1)] = true ∧
    Config.fieldsFit 14 [(l.contLength, 11), (l.contFid, 3)] = true := by
  simpa only [Config.PpduLayout.legal, Bool.and_eq_true, and_assoc] using hl

theorem compWord_fields (lt : LabelType) (pts : Bool) (len : BitVec 11) :
    (compWord l lt pts len).extractLsb' 14 2 = 3#2 ∧
    (compWord l lt pts len).extractLsb' l.compLt 2 = lt ∧
    (compWord l lt pts len).extractLsb' l.compPts 1 = BitVec.ofBool pts ∧
    (compWord l lt pts len).extractLsb' l.compLength 11 = len := by
  have hmark : 0xC000#16 = fieldAt 16 14 3#2 := by decide
  obtain ⟨hcomp, -, -⟩ := legal_parts hl
  obtain ⟨hfit, hapart⟩ := fieldsFit_marker hcomp
  simp only [List.forall_mem_cons, List.pairwise_cons, Nat.reduceAdd] at hfit hapart
  simp only [compWord, hmark, extract_or, extract_fieldAt, extract_fieldAt_apart, extract_fieldAt_apart_symm, hfit,
    hapart, BitVec.ofNat_eq_ofNat, BitVec.zero_or, BitVec.or_zero, and_self]

theorem startWord_fields (lt : LabelType) (pts : Bool) (len : BitVec 11) (fid : Fid) (total : Index) (crc : Bool) :
    (startWord l lt pts len fid total crc).extractLsb' 30 2 = 2#2 ∧
    (startWord l lt pts len fid total crc).extractLsb' l.startLt 2 = lt ∧
    (startWord l lt pts len fid total crc).extractLsb' l.startPts 1 = BitVec.ofBool pts ∧
    (startWord l lt pts len fid total crc).extractLsb' l.startFragLen 11 = len ∧
    (startWord l lt pts len fid total crc).extractLsb' l.startFid 3 = fid ∧
    (startWord l lt pts len fid total crc).extractLsb' l.startTotalLen 12 = total ∧
    (startWord l lt pts len fid total crc).extractLsb' l.startUseCrc 1 = BitVec.ofBool crc := by
  have hmark : 0x80000000#32 = fieldAt 32 30 2#2 := by decide
  obtain ⟨-, hstart, -⟩ := legal_parts hl
  obtain ⟨hfit, hapart⟩ := fieldsFit_marker hstart
  simp only [List.forall_mem_cons, List.pairwise_cons, Nat.reduceAdd] at hfit hapart
  simp only [startWord, hmark, extract_or, extract_fieldAt, extract_fieldAt_apart, extract_fieldAt_apart_symm, hfit,
    hapart, BitVec.ofNat_eq_ofNat, BitVec.zero_or, BitVec.or_zero, and_self]

theorem contWord_fields (len : BitVec 11) (fid : Fid) :
    (contWord l len fid).extractLsb' 14 2 = 0#2 ∧
    (contWord l len fid).extractLsb' l.contLength 11 = len ∧
    (contWord l len fid).extractLsb' l.contFid 3 = fid := by
  obtain ⟨-, -, hcont⟩ := legal_parts hl
  obtain ⟨hfit, hapart⟩ := fieldsFit_marker hcont
  simp only [List.forall_mem_cons, List.pairwise_cons, Nat.reduceAdd] at hfit hapart
  simp only [contWord, extract_or, extract_fieldAt, extract_fieldAt_apart, extract_fieldAt_apart_symm, hfit,
    hapart, BitVec.ofNat_eq_ofNat, BitVec.zero_or, BitVec.or_zero, and_self]

theorem endWord_fields (len : BitVec 11) (fid : Fid) :
    (endWord l len fid).extractLsb' 14 2 = 1#2 ∧
    (endWord l len fid).extractLsb' l.contLength 11 = len ∧
    (endWord l len fid).extractLsb' l.contFid 3 = fid := by
  have hmark : 0x4000#16 = fieldAt 16 14 1#2 := by decide
  obtain ⟨hse, hlen, hfid⟩ := contWord_fields hl len fid
  obtain ⟨-, -, hcont⟩ := legal_parts hl
  obtain ⟨hfit, hapart⟩ := fieldsFit_marker hcont
  simp only [List.forall_mem_cons, List.pairwise_cons, Nat.reduceAdd] at hfit hapart
  simp only [endWord, hmark, extract_or, extract_fieldAt, extract_fieldAt_apart_symm, hse, hlen, hfid, hfit, hapart,
    BitVec.ofNat_eq_ofNat, BitVec.zero_or, BitVec.or_zero, and_self]

theorem unpackShort_compWord (lt : LabelType) (pts : Bool) (len : BitVec 11) :
    unpackShort l (compWord l lt pts len) = .comp lt pts len := by
  obtain ⟨hse, hlt, hpts, hlen⟩ := compWord_fields hl lt pts len
  rw [unpackShort_eq, hse]
  exact congr (congr (congrArg Instr.comp hlt) (getLsbD_of_extract hpts)) hlen

theorem unpackStart_startWord (lt : LabelType) (pts : Bool) (len : BitVec 11) (fid : Fid) (total : Index)
    (crc : Bool) :
    unpackStart l (startWord l lt pts len fid total crc) = .start lt pts len fid total crc := by
  obtain ⟨-, hlt, hpts, hlen, hfid, htotal, hcrc⟩ := startWord_fields hl lt pts len fid total crc
  rw [unpackStart, hlt, getLsbD_of_extract hpts, hlen, hfid, htotal, getLsbD_of_extract hcrc]

theorem unpackShort_contWord (len : BitVec 11) (fid : Fid) :
    unpackShort l (contWord l len fid) = .cont len fid := by
  obtain ⟨hse, hlen, hfid⟩ := contWord_fields hl len fid
  rw [unpackShort_eq, hse]
  exact congr (congrArg Instr.cont hlen) hfid

theorem unpackShort_endWord (len : BitVec 11) (fid : Fid) :
    unpackShort l (endWord l len fid) = .endPpdu len fid := by
  obtain ⟨hse, hlen, hfid⟩ := endWord_fields hl len fid
  rw [unpackShort_eq, hse]
  exact congr (congrArg Instr.endPpdu hlen) hfid

end

/-! ### The decoder on the bytes of a word (R101, R109) -/

/-- A header byte with S or E set is no PAD. -/
theorem byte_ne_zero_of_marker {b : Byte} (h : b.extractLsb' 6 2 ≠ 0#2) : b ≠ 0 := by
  rintro rfl
  exact h (by decide)

theorem decodePpduWith_be16 (l : Config.PpduLayout) {w : BitVec 16} (rest : Bytes) (hpad : w.extractLsb' 8 8 ≠ 0)
    (hse : w.extractLsb' 14 2 ≠ 2#2) : decodePpduWith l (be16 w ++ rest) = .ok (unpackShort l w, rest) := by
  have hshort : ¬ isStartByte (w.extractLsb' 8 8) = true := by
    rwa [isStartByte_iff, extract_extract w (by decide)]
  simp only [be16, List.cons_append, List.nil_append, decodePpduWith, if_neg hpad, if_neg hshort, word16_bytes]

/-- The same, where S or E is set. -/
theorem decodePpduWith_be16_of_marker (l : Config.PpduLayout) {w : BitVec 16} (rest : Bytes)
    (hse : w.extractLsb' 14 2 ≠ 0#2) (hse' : w.extractLsb' 14 2 ≠ 2#2) :
    decodePpduWith l (be16 w ++ rest) = .ok (unpackShort l w, rest) :=
  decodePpduWith_be16 l rest (byte_ne_zero_of_marker (by rwa [extract_extract w (by decide)])) hse'

theorem decodePpduWith_be32 (l : Config.PpduLayout) {x : BitVec 32} (rest : Bytes) (hse : x.extractLsb' 30 2 = 2#2) :
    decodePpduWith l (be32 x ++ rest) = .ok (unpackStart l x, rest) := by
  have hmarker : (x.extractLsb' 24 8).extractLsb' 6 2 = 2#2 := by rwa [extract_extract x (by decide)]
  have hpad : x.extractLsb' 24 8 ≠ 0 := byte_ne_zero_of_marker (by rw [hmarker]; decide)
  simp only [be32, List.cons_append, List.nil_append, decodePpduWith, if_neg hpad,
    if_pos ((isStartByte_iff _).mpr hmarker), word32_bytes]

/-! ### UNPACK_HDR after PACK_HDR, under every legal layout -/

section
variable {l : Config.PpduLayout} (hl : l.legal = true) (rest : Bytes)
include hl

theorem decodePpduWith_comp (lt : LabelType) (pts : Bool) (len : BitVec 11) :
    decodePpduWith l (encodeWith l (.comp lt pts len) ++ rest) = .ok (.comp lt pts len, rest) := by
  obtain ⟨hse, -⟩ := compWord_fields hl lt pts len
  rw [encodeWith, decodePpduWith_be16_of_marker l rest (by rw [hse]; decide) (by rw [hse]; decide),
    unpackShort_compWord hl]

theorem decodePpduWith_start (lt : LabelType) (pts : Bool) (len : BitVec 11) (fid : Fid) (total : Index) (crc : Bool) :
    decodePpduWith l (encodeWith l (.start lt pts len fid total crc) ++ rest) =
      .ok (.start lt pts len fid total crc, rest) := by
  obtain ⟨hse, -⟩ := startWord_fields hl lt pts len fid total crc
  rw [encodeWith, decodePpduWith_be32 l rest hse, unpackStart_startWord hl]

theorem decodePpduWith_end (len : BitVec 11) (fid : Fid) :
    decodePpduWith l (encodeWith l (.endPpdu len fid) ++ rest) = .ok (.endPpdu len fid, rest) := by
  obtain ⟨hse, -⟩ := endWord_fields hl len fid
  rw [encodeWith, decodePpduWith_be16_of_marker l rest (by rw [hse]; decide) (by rw [hse]; decide),
    unpackShort_endWord hl]

/-- A CONT whose first byte is not the one of a PAD. -/
theorem decodePpduWith_cont (len : BitVec 11) (fid : Fid) (hpad : (contWord l len fid).extractLsb' 8 8 ≠ 0) :
    decodePpduWith l (encodeWith l (.cont len fid) ++ rest) = .ok (.cont len fid, rest) := by
  obtain ⟨hse, -⟩ := contWord_fields hl len fid
  rw [encodeWith, decodePpduWith_be16 l rest hpad (by rw [hse]; decide), unpackShort_contWord hl]

end

/-! ### The layout of spec/30 -/

theorem standard_legal : Config.PpduLayout.standard.legal = true := by decide

/-- The first byte of a CONT header is the one of a PAD exactly when the length is below 32 (R102, R105). -/
theorem contWord_standard_head_eq_zero_iff (len : BitVec 11) (fid : Fid) :
    (contWord .standard len fid).extractLsb' 8 8 = 0 ↔ len.toNat < 32 := by
  rw [← BitVec.toNat_inj, contWord_standard_head, show (0 : BitVec 8).toNat = 0 from rfl]
  omega

/-- R102, R109: the second byte of the short CONT header is left to be read at the next position. -/
theorem decode_short_cont {len : BitVec 11} (fid : Fid) (hshort : len.toNat < 32) (rest : Bytes) :
    ∃ b, encode (.cont len fid) = [0, b] ∧
      decode .ppdu (encode (.cont len fid) ++ rest) = .ok (.pad, b :: rest) := by
  have hbytes : encode (.cont len fid) = [0, (contWord .standard len fid).extractLsb' 0 8] :=
    congrArg (· :: _) ((contWord_standard_head_eq_zero_iff len fid).mpr hshort)
  exact ⟨_, hbytes, by rw [hbytes]; rfl⟩

/-- Settles O2: the round trip under every legal layout, at the layout of spec/30. -/
theorem unpackInvertsPack : Obligations.UnpackInvertsPack := fun rest =>
  ⟨decodePpduWith_comp standard_legal rest, decodePpduWith_start standard_legal rest,
    decodePpduWith_end standard_legal rest,
    fun len fid hlong => decodePpduWith_cont standard_legal rest len fid
      (mt (contWord_standard_head_eq_zero_iff len fid).mp (Nat.not_lt.mpr hlong)),
    fun _ fid hshort => decode_short_cont fid hshort rest⟩

end Sys2Proof
end

section
/-! Protocol types (spec/41): the suppressible pairs, the compressor's table with its six fixed rows apart from the one
of `CODE_L2S`, the expander's branches of R170 one lemma each, and the round trip of R178. -/

namespace Sys2Proof.Machine

/-! ### The suppressible pairs -/

/-- Settles O6: the disjuncts of the test are the rows of R163's table, in its order. -/
theorem suppressibleTable : Obligations.SuppressibleTable := by
  intro ptype implicit
  simp only [isSuppressible, Bool.or_eq_true, Bool.and_eq_true, beq_iff_eq, or_assoc]
  rfl

/-! ### The table of R161 -/

/-- The rows of R161 whose code is no parameter. -/
def fixedRows : List (Ptype × Byte) :=
  [(0x0800, 0x0d), (0x0806, 0x0e), (0x8100, 0x0f), (0x86dd, 0x11), (0x88a8, 0x19), (0x9100, 0x1a)]

theorem ptypeTable_eq (p : Config.Params) : ptypeTable p = fixedRows ++ [(0x0082, p.codeL2s)] := rfl

/-- The codes of the fixed rows differ, so each gives its own row, and a fixed row comes before the one of `CODE_L2S`
(log 28). -/
theorem ptypeOfCode_of_mem {p : Config.Params} {ptype : Ptype} {code : Byte} (hrow : (ptype, code) ∈ fixedRows) :
    ptypeOfCode p code = some ptype := by
  simp only [fixedRows, List.mem_cons, Prod.mk.injEq, List.not_mem_nil, or_false] at hrow
  obtain ⟨rfl, rfl⟩ | ⟨rfl, rfl⟩ | ⟨rfl, rfl⟩ | ⟨rfl, rfl⟩ | ⟨rfl, rfl⟩ | ⟨rfl, rfl⟩ := hrow <;> rfl

/-- A code of no fixed row is looked up in the row of `CODE_L2S` alone. -/
theorem ptypeOfCode_of_not_mem {p : Config.Params} {code : Byte} (hfixed : code ∉ fixedRows.map Prod.snd) :
    ptypeOfCode p code = if code = p.codeL2s then some 0x0082 else none := by
  have hnone : fixedRows.find? (fun row => row.2 == code) = none := by
    rw [List.find?_eq_none]
    intro row hrow hcode
    exact hfixed (eq_of_beq hcode ▸ List.mem_map_of_mem hrow)
  rw [ptypeOfCode, ptypeTable_eq, List.find?_append, hnone, Option.none_or, List.find?_singleton]
  by_cases hl2s : code = p.codeL2s
  · simp [hl2s]
  · simp [hl2s, Ne.symm hl2s]

theorem mem_ptypeTable_of_ptypeCompress {p : Config.Params} {ptype : Ptype} {code : Byte}
    (h : ptypeCompress p ptype = some code) : (ptype, code) ∈ ptypeTable p := by
  obtain ⟨before, after, htable, -⟩ := List.lookup_eq_some_iff.mp h
  exact htable ▸ List.mem_append_right before (List.mem_cons_self ..)

/-- R179: the valid implicit codes are those of the fixed rows and 0x30. -/
theorem validImplicit_iff (code : Byte) :
    validImplicit code = true ↔ code ∈ fixedRows.map Prod.snd ∨ code = 0x30 := by
  simp only [validImplicit, fixedRows, List.map_cons, List.map_nil, List.mem_cons, List.not_mem_nil, or_false,
    Bool.or_eq_true, beq_iff_eq, or_assoc]
  rfl

/-- R163: but for L2S and for the implicit code 0x30, a suppressible pair is a fixed row. -/
theorem mem_fixedRows_of_isSuppressible {ptype : Ptype} {implicit : Byte} (h : isSuppressible ptype implicit = true)
    (hl2s : ptype ≠ 0x0082) (hip : implicit ≠ 0x30) : (ptype, implicit) ∈ fixedRows := by
  obtain hptype | ⟨rfl, rfl⟩ | ⟨rfl, rfl⟩ | ⟨rfl, rfl⟩ | ⟨rfl, rfl | h30⟩ | ⟨rfl, rfl | h30⟩ | ⟨rfl, rfl⟩ :=
    (suppressibleTable ptype implicit).mp h
  · exact absurd hptype hl2s
  · decide
  · decide
  · decide
  · decide
  · exact absurd h30 hip
  · decide
  · exact absurd h30 hip
  · decide

/-! ### The version nibble (R172) -/

theorem highNibble_eq_iff (b : Byte) (v : BitVec 4) : b.extractLsb' 4 4 = v ↔ b.toNat / 16 = v.toNat := by
  have := b.isLt
  rw [← BitVec.toNat_inj, BitVec.extractLsb'_toNat, Nat.shiftRight_eq_div_pow]
  omega

theorem ipByNibble_eq (b : Byte) :
    ipByNibble b = if b.toNat / 16 = 4 then some 0x0800 else if b.toNat / 16 = 6 then some 0x86dd else none := by
  simp only [ipByNibble, highNibble_eq_iff]
  rfl

theorem ipByNibble_eq_some_iff (b : Byte) (ptype : Ptype) :
    ipByNibble b = some ptype ↔ (ptype = 0x0800 ∧ b.toNat / 16 = 4) ∨ (ptype = 0x86dd ∧ b.toNat / 16 = 6) := by
  rw [ipByNibble_eq]
  split_ifs with h4 h6
  · simp [h4, eq_comm]
  · simp [h6, eq_comm]
  · simp [h4, h6]

theorem expandIp_cons_of_some {b : Byte} {ptype : Ptype} (h : ipByNibble b = some ptype) (rest : Bytes) :
    expandIp (b :: rest) = .ok (ptype, b :: rest) := by
  simp only [expandIp, h]

theorem expandIp_cons_of_none {b : Byte} (h : ipByNibble b = none) (rest : Bytes) :
    expandIp (b :: rest) = .error .malformedPtype := by
  simp only [expandIp, h]

/-- R172, whatever the protocol type: the expander under 0x30 succeeds exactly for an SDU that begins with its
nibble. -/
theorem expandIp_eq_ok_iff (ptype : Ptype) (sdu : Bytes) :
    expandIp sdu = .ok (ptype, sdu) ↔
      ∃ b rest, sdu = b :: rest ∧
        ((ptype = 0x0800 ∧ b.toNat / 16 = 4) ∨ (ptype = 0x86dd ∧ b.toNat / 16 = 6)) := by
  simp only [← ipByNibble_eq_some_iff]
  constructor
  · intro hok
    cases sdu with
    | nil => cases hok
    | cons b rest =>
      refine ⟨b, rest, rfl, ?_⟩
      cases hnibble : ipByNibble b with
      | none => cases (expandIp_cons_of_none hnibble rest).symm.trans hok
      | some found => cases (expandIp_cons_of_some hnibble rest).symm.trans hok; rfl
  · rintro ⟨b, rest, rfl, hnibble⟩
    exact expandIp_cons_of_some hnibble rest

/-! ### The branches of the expander (R170) -/

section
variable {p : Config.Params} {code : Byte}

theorem ptypeExpand_of_some {ptype : Ptype} (h : ptypeOfCode p code = some ptype) (sdu : Bytes) :
    ptypeExpand p code sdu = .ok (ptype, sdu) := by
  simp only [ptypeExpand, h]

theorem ptypeExpand_fixed {ptype : Ptype} (hrow : (ptype, code) ∈ fixedRows) (sdu : Bytes) :
    ptypeExpand p code sdu = .ok (ptype, sdu) :=
  ptypeExpand_of_some (ptypeOfCode_of_mem hrow) sdu

theorem ptypeExpand_codeL2s (hfixed : p.codeL2s ∉ fixedRows.map Prod.snd) (sdu : Bytes) :
    ptypeExpand p p.codeL2s sdu = .ok (0x0082, sdu) :=
  ptypeExpand_of_some ((ptypeOfCode_of_not_mem hfixed).trans (if_pos rfl)) sdu

/-- A code outside the table of R161 is left to the later branches. -/
theorem ptypeExpand_outside (hfixed : code ∉ fixedRows.map Prod.snd) (hl2s : code ≠ p.codeL2s) (sdu : Bytes) :
    ptypeExpand p code sdu =
      if code = 0x30 then expandIp sdu
      else if code = p.codeVlanWoPtype then vlanRestore p sdu
      else .error .malformedPtype := by
  simp only [ptypeExpand, ptypeOfCode_of_not_mem hfixed, if_neg hl2s]
  rfl

theorem ptypeExpand_ip (hl2s : p.codeL2s ≠ 0x30) (sdu : Bytes) : ptypeExpand p 0x30 sdu = expandIp sdu :=
  (ptypeExpand_outside (by decide) hl2s.symm sdu).trans (if_pos rfl)

theorem ptypeExpand_vlanWoPtype (hfixed : p.codeVlanWoPtype ∉ fixedRows.map Prod.snd)
    (hl2s : p.codeVlanWoPtype ≠ p.codeL2s) (hip : p.codeVlanWoPtype ≠ 0x30) (sdu : Bytes) :
    ptypeExpand p p.codeVlanWoPtype sdu = vlanRestore p sdu := by
  rw [ptypeExpand_outside hfixed hl2s, if_neg hip, if_pos rfl]

theorem ptypeExpand_undefined (hfixed : code ∉ fixedRows.map Prod.snd) (hl2s : code ≠ p.codeL2s)
    (hip : code ≠ 0x30) (hvlan : code ≠ p.codeVlanWoPtype) (sdu : Bytes) :
    ptypeExpand p code sdu = .error .malformedPtype := by
  rw [ptypeExpand_outside hfixed hl2s, if_neg hip, if_neg hvlan]

/-- R178, the compressor's half: the code is one of a fixed row or `CODE_L2S`. -/
theorem ptypeExpand_of_ptypeCompress {ptype : Ptype} (hfixed : p.codeL2s ∉ fixedRows.map Prod.snd)
    (h : ptypeCompress p ptype = some code) (sdu : Bytes) : ptypeExpand p code sdu = .ok (ptype, sdu) := by
  have hmem := mem_ptypeTable_of_ptypeCompress h
  rw [ptypeTable_eq, List.mem_append, List.mem_singleton] at hmem
  obtain hrow | hl2s := hmem
  · exact ptypeExpand_fixed hrow sdu
  · cases hl2s
    exact ptypeExpand_codeL2s hfixed sdu

end

/-- Settles O7: R170's branches are a lemma each, and R178 follows since R179 keeps `CODE_L2S` apart from the fixed
rows and from 0x30. -/
theorem ptypeRoundTrip : Obligations.PtypeRoundTrip := by
  rintro p _ rfl
  refine ⟨fun _ _ sdu hrow => ptypeExpand_fixed hrow sdu, fun sdu hfixed => ptypeExpand_codeL2s hfixed sdu, ?_,
    fun sdu hfixed hl2s hip => ptypeExpand_vlanWoPtype hfixed hl2s hip sdu,
    fun _ sdu hfixed hl2s hip hvlan => ptypeExpand_undefined hfixed hl2s hip hvlan sdu, ?_⟩
  · intro hl2s
    simp only [ptypeExpand_ip hl2s]
    refine ⟨rfl, fun b rest => ⟨fun h4 => ?_, fun h6 => ?_, fun h4 h6 => ?_⟩⟩
    · exact expandIp_cons_of_some ((ipByNibble_eq_some_iff b _).mpr (.inl ⟨rfl, h4⟩)) rest
    · exact expandIp_cons_of_some ((ipByNibble_eq_some_iff b _).mpr (.inr ⟨rfl, h6⟩)) rest
    · exact expandIp_cons_of_none (by rw [ipByNibble_eq, if_neg h4, if_neg h6]) rest
  · intro hvalid
    obtain ⟨hfixed, hip⟩ := not_or.mp (mt (validImplicit_iff p.codeL2s).mpr (Bool.eq_false_iff.mp hvalid))
    exact ⟨fun _ _ sdu hcode => ptypeExpand_of_ptypeCompress hfixed hcode sdu,
      fun _ _ sdu hsup hl2s hip => ptypeExpand_fixed (mem_fixedRows_of_isSuppressible hsup hl2s hip) sdu,
      fun ptype sdu _ _ => ptypeExpand_ip hip sdu ▸ expandIp_eq_ok_iff ptype sdu⟩

end Sys2Proof.Machine
end

section
/-! Configuration (spec/42): the fields of the configuration word over the number the word is, one equation per branch of
the commands that create and destroy a unit and of the header-size query, and the frames of their effects. -/

namespace Sys2Proof.Machine

/-! ### The configuration word as a number (spec/10 R30) -/

theorem toNat_extract {n : Nat} (x : BitVec n) (pos width : Nat) :
    (x.extractLsb' pos width).toNat = x.toNat / 2 ^ pos % 2 ^ width := by
  rw [BitVec.extractLsb'_toNat, Nat.shiftRight_eq_div_pow]

theorem extract_eq_zero_iff {n : Nat} (x : BitVec n) (pos width : Nat) :
    x.extractLsb' pos width = 0 ↔ x.toNat / 2 ^ pos % 2 ^ width = 0 := by
  rw [← toNat_extract]
  exact BitVec.toNat_inj.symm

/-- A field that reaches the top of a word is all of it above the field's place. -/
theorem extract_top_eq_zero_iff {n pos width : Nat} (x : BitVec n) (htop : n = pos + width) :
    x.extractLsb' pos width = 0 ↔ x.toNat / 2 ^ pos = 0 := by
  have hquot : x.toNat / 2 ^ pos < 2 ^ width := Nat.div_lt_of_lt_mul (by rw [← Nat.pow_add, ← htop]; exact x.isLt)
  rw [extract_eq_zero_iff, Nat.mod_eq_of_lt hquot]

theorem getLsbD_iff_toNat {n : Nat} (x : BitVec n) (pos : Nat) :
    x.getLsbD pos = true ↔ x.toNat / 2 ^ pos % 2 = 1 := by
  rw [BitVec.getLsbD, Nat.testBit_eq_decide_div_mod_eq, decide_eq_true_eq]

theorem getLsbD_eq_false_iff_toNat {n : Nat} (x : BitVec n) (pos : Nat) :
    x.getLsbD pos = false ↔ x.toNat / 2 ^ pos % 2 = 0 := by
  rw [← Bool.not_eq_true, getLsbD_iff_toNat, Nat.mod_two_not_eq_one]

/-- `VALID_IMPLICIT` (R179) over the number a code is. -/
theorem validImplicit_iff_toNat (code : Byte) :
    validImplicit code = true ↔ code.toNat ∈ [0x0d, 0x0e, 0x0f, 0x11, 0x19, 0x1a, 0x30] := by
  rw [validImplicit_iff, ← List.mem_singleton, ← List.mem_append,
    ← List.mem_map_of_injective (fun _ _ => BitVec.eq_of_toNat_eq)]
  rfl

/-! ### The validator (R190) -/

/-- The validator over the fields of the word, V1 to V7 in their order. -/
theorem cfgValid_iff (w : CfgWord) : cfgValid w = true ↔
    implicitPpduLabelSize w ≤ labelMax ∧ implicitPayloadLabelSize w ≤ labelMax ∧ type0AlpduLabelSize w ≤ labelMax ∧
    validImplicit (implicitProtocolType w) = true ∧
    (allowAlpduCrc w = true ∨ allowAlpduSequenceNumber w = true) ∧ useExplicitPayloadHeaderMap w = false ∧
    cfgReservedLow w = 0 ∧ cfgReservedHigh w = 0 := by
  simp only [cfgValid, Bool.and_eq_true, Bool.or_eq_true, Bool.not_eq_true', decide_eq_true_eq, beq_iff_eq,
    and_assoc]

/-- Settles O10: each test of the validator is the test of its field's number; the last step reads `labelMax` as 15 and a
field's width as its number of values. -/
theorem cfgValidTests : Obligations.CfgValidTests := by
  intro w
  rw [cfgValid_iff, validImplicit_iff_toNat, implicitPpduLabelSize, implicitPayloadLabelSize, type0AlpduLabelSize,
    implicitProtocolType, toNat_extract, toNat_extract, toNat_extract, toNat_extract, allowAlpduCrc, getLsbD_iff_toNat,
    allowAlpduSequenceNumber, getLsbD_iff_toNat, useExplicitPayloadHeaderMap, getLsbD_eq_false_iff_toNat,
    cfgReservedLow, extract_eq_zero_iff, cfgReservedHigh, extract_top_eq_zero_iff w rfl]
  rfl

/-! ### Answers and frames -/

/-- An instruction that only answers reads as one: the response is the answer and nothing else differs. -/
theorem onlyResponse_of_answer {i : Instr} {s : State} {r : Response} (h : exec i s = answer r s) :
    ∃ t, exec i s = .next t ∧ OnlyResponse s t ∧ t.host.response = some r :=
  ⟨respond r s, h, respond_onlyResponse r s, respond_response r s⟩

theorem answersOnly_of_exec {i : Instr} {s : State} {x : Status} (h : exec i s = answerStatus x s) :
    AnswersOnly i s x := onlyResponse_of_answer h

theorem rxUntouched_replaceTx (r : Response) (t : Tx) (s : State) : RxUntouched s (respond r { s with tx := t }) :=
  ⟨rfl, rfl, rfl⟩

theorem queueKept_replaceTx (r : Response) (t : Tx) (s : State) : QueueKept s (respond r { s with tx := t }) :=
  ⟨rfl, rfl, rfl⟩

theorem txUntouched_replaceRx (r : Response) (u : Rx) (c : Scan) (s : State) :
    TxUntouched s (respond r { s with rx := u, scan := c }) := ⟨rfl, rfl, rfl, rfl⟩

theorem queueKept_replaceRx (r : Response) (u : Rx) (c : Scan) (s : State) :
    QueueKept s (respond r { s with rx := u, scan := c }) := ⟨rfl, rfl, rfl⟩

/-! ### NEW (R191, R192) -/

section
variable {w : CfgWord}

theorem exec_txNew_of_valid (h : cfgValid w = true) (s : State) :
    exec (.txNew w) s = .next (respond { status := .ok } { s with tx := newTx w }) := if_pos h

theorem exec_txNew_of_invalid (h : cfgValid w = false) (s : State) :
    exec (.txNew w) s = answerStatus .errConfig s := if_neg (Bool.eq_false_iff.mp h)

theorem exec_rxNew_of_valid (h : cfgValid w = true) (s : State) :
    exec (.rxNew w) s = .next (respond { status := .ok } { s with rx := newRx w, scan := Scan.idle }) := if_pos h

theorem exec_rxNew_of_invalid (h : cfgValid w = false) (s : State) :
    exec (.rxNew w) s = answerStatus .errConfig s := if_neg (Bool.eq_false_iff.mp h)

end

/-- Settles O11: the unit after NEW is `newTx w` or `newRx w`, whose registers are the reset ones but for those R191 and
R192 set. -/
theorem newUnitRule : Obligations.NewUnitRule := by
  intro w s
  refine ⟨fun hinvalid => ⟨?_, ?_⟩, fun hvalid => ⟨?_, ?_⟩⟩
  · exact answersOnly_of_exec (exec_txNew_of_invalid hinvalid s)
  · exact answersOnly_of_exec (exec_rxNew_of_invalid hinvalid s)
  · exact ⟨_, exec_txNew_of_valid hvalid s, respond_response .., rfl, rfl, rfl, rfl, txCtx_newTx w,
      rxUntouched_replaceTx .., queueKept_replaceTx ..⟩
  · exact ⟨_, exec_rxNew_of_valid hvalid s, respond_response .., rfl, rfl, rfl, rfl, rxCtx_newRx w,
      txUntouched_replaceRx .., queueKept_replaceRx ..⟩

/-! ### DESTROY (R193, R194) -/

section
variable {s : State}

theorem exec_txDestroy_of_configured (h : s.tx.configured = true) :
    exec .txDestroy s = .next (respond { status := .ok } { s with tx := Tx.reset }) := if_pos h

theorem exec_txDestroy_of_unconfigured (h : s.tx.configured = false) :
    exec .txDestroy s = answerStatus .errNullTrmt s := if_neg (Bool.eq_false_iff.mp h)

theorem exec_rxDestroy_of_configured (h : s.rx.configured = true) :
    exec .rxDestroy s = .next (respond { status := .ok } { s with rx := Rx.reset, scan := Scan.idle }) := if_pos h

theorem exec_rxDestroy_of_unconfigured (h : s.rx.configured = false) :
    exec .rxDestroy s = answerStatus .errNullRcvr s := if_neg (Bool.eq_false_iff.mp h)

end

/-- Settles O12: the unit after DESTROY is the one of the reset state. -/
theorem destroyRule : Obligations.DestroyRule := by
  intro s
  refine ⟨fun hnull => ?_, fun hconf => ?_, fun hnull => ?_, fun hconf => ?_⟩
  · exact answersOnly_of_exec (exec_txDestroy_of_unconfigured hnull)
  · exact ⟨_, exec_txDestroy_of_configured hconf, respond_response .., rfl, rxUntouched_replaceTx ..,
      queueKept_replaceTx ..⟩
  · exact answersOnly_of_exec (exec_rxDestroy_of_unconfigured hnull)
  · exact ⟨_, exec_rxDestroy_of_configured hconf, respond_response .., rfl, txUntouched_replaceRx ..,
      queueKept_replaceRx ..⟩

/-! ### HDRSZ (R197) -/

section
variable {w : CfgWord} {k : FpduType}

theorem exec_hdrsz_of_invalid (h : ¬ cfgValid w = true) (s : State) :
    exec (.hdrsz w k) s = answerStatus .headerSizeErrInvalidConfig s := if_neg h

theorem exec_hdrsz_of_size {n : Nat} (hvalid : cfgValid w = true) (hsize : headerSize k = some n) (s : State) :
    exec (.hdrsz w k) s = answer { status := .headerSizeOk, size := n } s := by
  rw [show exec (.hdrsz w k) s = execHdrsz w k s from rfl, execHdrsz, if_pos hvalid, hsize]

theorem exec_hdrsz_of_no_size (hvalid : cfgValid w = true) (hsize : headerSize k = none) (s : State) :
    exec (.hdrsz w k) s = answerStatus .headerSizeErrNonDeterministic s := by
  rw [show exec (.hdrsz w k) s = execHdrsz w k s from rfl, execHdrsz, if_pos hvalid, hsize]

end

/-- Settles O13: the configuration is checked first; then three kinds have a size, and the Traffic FPDU has none. -/
theorem hdrszRule : Obligations.HdrszRule := by
  intro w k s
  by_cases hvalid : cfgValid w = true
  · rw [if_pos hvalid]
    cases k with
    | logon | ctrl | trafficCtrl => exact onlyResponse_of_answer (exec_hdrsz_of_size hvalid rfl s)
    | traffic => exact onlyResponse_of_answer (exec_hdrsz_of_no_size hvalid rfl s)
  · rw [if_neg hvalid]
    exact onlyResponse_of_answer (exec_hdrsz_of_invalid hvalid s)

end Sys2Proof.Machine
end

section
/-! The ALPDU encapsulator (spec/43): the form of the ALPDU header one equation per branch of R222, its length (R227),
and what an accepted ENCAP writes and leaves (R221). -/

namespace Sys2Proof.Machine

/-! ### The seven named protocol types (spec/41 R161, R162) -/

/-- The compressor has a code exactly for the protocol types of R161's table. -/
theorem ptypeCompress_isSome_iff (p : Config.Params) (ptype : Ptype) :
    (ptypeCompress p ptype).isSome = true ↔
      ptype ∈ ([0x0082, 0x8100, 0x88a8, 0x9100, 0x0800, 0x86dd, 0x0806] : List Ptype) := by
  have hkeys : ((ptypeTable p).map Prod.fst).Perm [0x0082, 0x8100, 0x88a8, 0x9100, 0x0800, 0x86dd, 0x0806] :=
    show (fixedRows.map Prod.fst ++ [0x0082]).Perm _ by decide
  rw [← hkeys.mem_iff, ptypeCompress, List.lookup_isSome_iff, List.mem_map]
  exact exists_congr fun _ => and_congr_right' (beq_iff_eq.trans eq_comm)

/-! ### The branches of the header choice (R222) -/

section
variable {p : Config.Params} {cfg : CfgWord} {ptype : Ptype}

/-- The configuration lets the ALPDU header of this protocol type be omitted (R222). -/
def Omittable (cfg : CfgWord) (ptype : Ptype) : Prop :=
  allowPtypeOmission cfg = true ∧ isSuppressible ptype (implicitProtocolType cfg) = true

theorem chooseHeader_of_omittable (h : Omittable cfg ptype) : chooseHeader p cfg ptype = .ptOmit :=
  if_pos (Bool.and_eq_true_iff.mpr h)

theorem chooseHeader_of_not_omittable (h : ¬ Omittable cfg ptype) :
    chooseHeader p cfg ptype =
      if useCompressedPtype cfg = true then (ptypeCompress p ptype).elim (.ptFallback ptype) .ptComp
      else .ptUncomp ptype := by
  rw [chooseHeader, if_neg (fun hand => h (Bool.and_eq_true_iff.mp hand))]
  cases ptypeCompress p ptype <;> rfl

theorem chooseHeader_of_named (h : ¬ Omittable cfg ptype) (hcomp : useCompressedPtype cfg = true) {code : Byte}
    (hcode : ptypeCompress p ptype = some code) : chooseHeader p cfg ptype = .ptComp code := by
  rw [chooseHeader_of_not_omittable h, if_pos hcomp, hcode, Option.elim_some]

theorem chooseHeader_of_unnamed (h : ¬ Omittable cfg ptype) (hcomp : useCompressedPtype cfg = true)
    (hnone : ptypeCompress p ptype = none) : chooseHeader p cfg ptype = .ptFallback ptype := by
  rw [chooseHeader_of_not_omittable h, if_pos hcomp, hnone, Option.elim_none]

theorem chooseHeader_of_uncompressed (h : ¬ Omittable cfg ptype) (hcomp : ¬ useCompressedPtype cfg = true) :
    chooseHeader p cfg ptype = .ptUncomp ptype := by
  rw [chooseHeader_of_not_omittable h, if_neg hcomp]

end

/-- Settles O9: each branch of R222 names one form, and a form has one length. -/
theorem headerLengthLaw : Obligations.HeaderLengthLaw := by
  intro p cfg ptype
  split_ifs with homit hcomp hnamed
  · rw [chooseHeader_of_omittable homit]
    rfl
  · obtain ⟨code, hcode⟩ := Option.isSome_iff_exists.mp ((ptypeCompress_isSome_iff p ptype).mpr hnamed)
    rw [chooseHeader_of_named homit hcomp hcode]
    rfl
  · have hnone : ptypeCompress p ptype = none :=
      Option.not_isSome_iff_eq_none.mp (mt (ptypeCompress_isSome_iff p ptype).mp hnamed)
    rw [chooseHeader_of_unnamed homit hcomp hnone]
    rfl
  · rw [chooseHeader_of_uncompressed homit hcomp]
    rfl

/-! ### The buffer (R221) -/

/-- A buffer that differs from another by the bytes at `off` alone, inside its size, has them stored there. -/
theorem stored_of_byteAt {size off : Nat} {m m' : Mem} {bytes : Bytes} (hfit : off + bytes.length ≤ size)
    (hbyte : ∀ a, byteAt m' a = if off ≤ a ∧ a < off + bytes.length then bytes[a - off]? else byteAt m a) :
    Stored size m m' off bytes where
  stored := by
    refine memRead_ok_iff.mpr ⟨rfl, fun i hi => ⟨by omega, ?_⟩⟩
    rw [hbyte, if_pos (by omega), Nat.add_sub_cancel_left]
  rest a hout := by
    have hkept : byteAt m' a = byteAt m a := by rw [hbyte, if_neg (by omega)]
    rw [readByte, readByte, hkept]

/-- The header ends where the SDU begins (R78). -/
theorem headOf_add_length (p : Config.Params) (cfg : CfgWord) (ptype : Ptype) :
    headOf p cfg ptype + (encode (chooseHeader p cfg ptype)).length = alpduHdrMax :=
  Nat.sub_add_cancel (chooseHeader_length_le p cfg ptype)

theorem fillCtx_stores (p : Config.Params) (cfg : CfgWord) {sdu : Bytes} (ptype : Ptype) (c : TxCtx)
    (hsize : sdu.length ≤ sduMax) :
    ∃ buf, fillCtx p cfg sdu ptype c = .ok (filled p cfg sdu ptype c buf) ∧
      Stored fragBufLen c.buf buf (headOf p cfg ptype) (encode (chooseHeader p cfg ptype) ++ sdu) := by
  obtain ⟨buf, hfill, -, hbyte⟩ := fillCtx_ok p cfg ptype c hsize
  have hend : headOf p cfg ptype + (encode (chooseHeader p cfg ptype) ++ sdu).length = alpduHdrMax + sdu.length := by
    rw [List.length_append, ← Nat.add_assoc, headOf_add_length]
  refine ⟨buf, hfill, stored_of_byteAt ?_ ?_⟩
  · rw [hend]
    exact Nat.le_trans (Nat.add_le_add_left hsize alpduHdrMax) (by decide)
  · rw [hend]
    exact hbyte

/-! ### The transmitter after an accepted ENCAP (R221) -/

/-- The unit after ENCAP has taken context `f`, put the registers `c` there and counted an SDU of `n` bytes, counters
having `w` bits. -/
def takeTx (w : Nat) (t : Tx) (f : Fid) (c : TxCtx) (n : Nat) : Tx :=
  countTx w (setTxCtx { t with busy := setBusy t.busy f } f c) f (encapCounters n)

section
variable (w : Nat) (t : Tx) (f : Fid) (c : TxCtx) (n : Nat)

@[simp] theorem takeTx_busyBit : busyBit (takeTx w t f c n).busy f = true := busyBit_setBusy_same t.busy f

@[simp] theorem takeTx_agg : (takeTx w t f c n).agg = addCounters w t.agg (encapCounters n) := rfl

@[simp] theorem txCtx_takeTx_same :
    txCtx (takeTx w t f c n) f = { c with cnt := addCounters w c.cnt (encapCounters n) } := by
  rw [takeTx, txCtx_countTx_same, txCtx_setTxCtx_same]

theorem takeTx_sameBut : TxSameBut f t (takeTx w t f c n) where
  configured := rfl
  cfg := rfl
  busy _ hne := busyBit_setBusy_ne t.busy hne
  ctx g hne := by
    rw [takeTx, txCtx_countTx_ne _ _ hne, txCtx_setTxCtx_ne _ _ hne]
    rfl

end

/-- R220: where every check passes, ENCAP takes the context and records who took it. -/
theorem exec_encap_of_accepted {s : State} {sdu : Bytes} {ptype : Ptype} {f : Fid} {c : TxCtx}
    (hconf : s.tx.configured = true) (hsize : sdu.length ≤ sduMax) (hinit : (txCtx s.tx f).initialised = true)
    (hfree : busyBit s.tx.busy f = false) (hfill : fillCtx s.params s.tx.cfg sdu ptype (txCtx s.tx f) = .ok c) :
    exec (.encap (some sdu) ptype f) s =
      .next (respond { status := .ok }
        { s with tx := takeTx s.params.cntW s.tx f c sdu.length, host := recordOwner f s.host }) := by
  simp only [show exec (.encap (some sdu) ptype f) s = execEncap (some sdu) ptype f s from rfl, execEncap,
    if_pos hconf, if_neg (Nat.not_lt.mpr hsize), hinit, hfree, hfill, Bool.not_true, Bool.false_eq_true, ↓reduceIte]
  rfl

/-- Settles O17: the accepted ENCAP leaves `takeTx` of the filled context; its registers are those of `filled`, the
buffer is the one `fillCtx_stores` speaks of. -/
theorem encapFillsContext : Obligations.EncapFillsContext := by
  intro s sdu ptype f hconf hsize hinit hfree
  obtain ⟨buf, hfill, hstored⟩ := fillCtx_stores s.params s.tx.cfg ptype (txCtx s.tx f) hsize
  exact ⟨_, _, buf, exec_encap_of_accepted hconf hsize hinit hfree hfill, respond_response .., rfl,
    txCtx_takeTx_same .., hstored, takeTx_busyBit .., takeTx_agg .., takeTx_sameBut .., ⟨rfl, rfl, rfl⟩, rfl, rfl⟩

end Sys2Proof.Machine
end

section
/-! The fragmentation engine (spec/44): what EMIT answers in each case of `EmitCase`, the release of a context as the
host sees it (R253), the trailer a START stores (R245 to R247), and the size of what is emitted (R240, R255). -/

namespace Sys2Proof.Machine

/-! ### What the host reads of an emission (R240) -/

section
variable {s : State} {f : Fid} {burst : Nat}

theorem exec_emit_of_emit {e : Emission} (h : emit s.params s.tx f burst = .ok e) :
    exec (.emit f burst) s = .next (respond { status := e.status, bytes := e.ppdu } { s with tx := e.tx }) := by
  rw [show exec (.emit f burst) s = execEmit f burst s from rfl, execEmit, h]
  rfl

theorem exec_emit_of_case {e : Emission} (h : EmitCase s.params s.tx f burst e) :
    exec (.emit f burst) s = .next (respond { status := e.status, bytes := e.ppdu } { s with tx := e.tx }) :=
  exec_emit_of_emit (emit_of_case h)

/-- A case of EMIT that emits nothing only answers its status (R241, R251). -/
theorem answersOnly_of_noEmission {x : Status} (h : EmitCase s.params s.tx f burst (noEmission s.tx x)) :
    AnswersOnly (.emit f burst) s x := answersOnly_of_exec (exec_emit_of_case h)

end

/-- A cursor past the SDU leaves no ALPDU byte for a CONT (R248, R251). -/
theorem contLen_eq_zero {t : Tx} {f : Fid} {burst : Nat} (h : (txCtx t f).sduEnd.toNat ≤ (txCtx t f).cursor.toNat) :
    contLen t f burst = 0 := by
  obtain ⟨hrem, -, -⟩ := contLen_bounds (t := t) (f := f) (burst := burst)
  rwa [remAlpdu, Nat.sub_eq_zero_of_le h, Nat.le_zero] at hrem

/-- Settles O20: each premise is the guard of a case of EMIT that emits nothing. -/
theorem emitChangesNothing : Obligations.EmitChangesNothing := by
  intro s f burst hconf hinit
  refine ⟨fun hfree => ?_, fun hbusy hfrag hcomp hburst => ?_, fun hbusy hfrag hsmall => ?_⟩
  · exact answersOnly_of_noEmission (.timeout hconf hinit hfree)
  · exact answersOnly_of_noEmission (.firstTooSmall ⟨hconf, hinit, hbusy⟩ hfrag hcomp hburst)
  · exact answersOnly_of_noEmission
      (.laterTooSmall ⟨hconf, hinit, hbusy⟩ hfrag (hsmall.imp_right (And.imp_right contLen_eq_zero)))

/-! ### The release of the context (R253) -/

theorem releasedTx_releaseTx (f : Fid) (d : Counters) (r : Response) (s : State) :
    ReleasedTx f d s (respond r { s with tx := releaseTx s.params.cntW s.tx f d }) :=
  ⟨txCtx_releaseTx_same .., busyBit_clearBusy_same .., releaseTx_agg .., releaseTx_sameBut ..,
    rxUntouched_replaceTx .., queueKept_replaceTx ..⟩

/-- Settles O21: it is the case `comp` of EMIT, whose next state is a release counted as sent. -/
theorem emitCompRule : Obligations.EmitCompRule := by
  intro s f burst alpdu hready hfrag hfits hread
  exact ⟨_, exec_emit_of_case (.comp hready hfrag hfits alpdu hread), respond_response .., releasedTx_releaseTx ..⟩

/-! ### The START (R245 to R247) -/

section
variable {size off n : Nat} {m m' : Mem} {bytes : Bytes}

theorem stored_of_memWrite (h : memWrite size m off bytes = .ok m') : Stored size m m' off bytes :=
  stored_of_byteAt (memWrite_bound h) (memWrite_byteAt h)

/-- A shorter read gives the first bytes of a longer one. -/
theorem memRead_take {k : Nat} (h : memRead size m off n = .ok bytes) (hk : k ≤ n) :
    memRead size m off k = .ok (bytes.take k) := by
  obtain ⟨hlen, hbyte⟩ := memRead_ok_iff.mp h
  refine memRead_ok_iff.mpr ⟨by rw [List.length_take, hlen, Nat.min_eq_left hk], fun i hi => ?_⟩
  rw [List.getElem?_take_of_lt hi]
  exact hbyte i (Nat.lt_of_lt_of_le hi hk)

end

/-- The trailer of a START whose ALPDU is `alpdu`: the CRC of the ALPDU, or the sequence number. -/
def startTrailer (p : Config.Params) (c : TxCtx) (alpdu : Bytes) : Bytes :=
  if c.useCrc = true then le32 (crc32 p.crc32 alpdu) else [c.nextSeqNb.setWidth 8]

/-- Where the buffer has room for the trailer, it is stored behind the SDU; the tail moves past it, and a sequence
number that was sent advances. -/
theorem writeTrailer_stores {p : Config.Params} {c : TxCtx} {alpdu : Bytes}
    (hread : memRead fragBufLen c.buf c.head.toNat (alpduLen c) = .ok alpdu)
    (hroom : c.sduEnd.toNat + (startTrailer p c alpdu).length ≤ fragBufLen) :
    ∃ buf, memWrite fragBufLen c.buf c.sduEnd.toNat (startTrailer p c alpdu) = .ok buf ∧
      writeTrailer p c = .ok
        { c with
          buf := buf
          tail := index (c.sduEnd.toNat + (startTrailer p c alpdu).length)
          nextSeqNb := if c.useCrc = true then c.nextSeqNb else c.nextSeqNb + 1 } := by
  obtain ⟨buf, hwrite⟩ := memWrite_ok_of_le (m := c.buf) hroom
  refine ⟨buf, hwrite, ?_⟩
  by_cases hcrc : c.useCrc = true
  · have htrl : startTrailer p c alpdu = encode (.trlCrc (crc32 p.crc32 alpdu)) := if_pos hcrc
    rw [htrl] at hwrite ⊢
    rw [writeTrailer, if_pos hcrc, if_pos hcrc, hread]
    dsimp only
    rw [hwrite]
    rfl
  · have htrl : startTrailer p c alpdu = encode (.trlSeq c.nextSeqNb) := if_neg hcrc
    rw [htrl] at hwrite ⊢
    rw [writeTrailer, if_neg hcrc, if_neg hcrc, hwrite]
    rfl

/-- Settles O22: it is the case `start` of EMIT. The bytes a START sends lie before the trailer, so storing it leaves
them as they were. -/
theorem emitStartRule : Obligations.EmitStartRule := by
  rintro s f burst c alpdu trl hready rfl hfrag hfits hburst hread rfl hroom
  obtain ⟨hpos, hshort, -, -⟩ := startLen_bounds hfits hburst
  obtain ⟨buf, hwrite, htrailer⟩ := writeTrailer_stores (p := s.params) hread hroom
  have hpayload : memRead fragBufLen buf (txCtx s.tx f).head.toNat (startLen burst) =
      .ok (alpdu.take (startLen burst)) := by
    have hbefore : (txCtx s.tx f).head.toNat + startLen burst ≤ (txCtx s.tx f).sduEnd.toNat := by
      rw [alpduLen] at hshort
      omega
    rw [memRead_memWrite_disjoint hwrite (.inl hbefore)]
    exact memRead_take hread (Nat.le_of_lt hshort)
  exact ⟨_, buf, exec_emit_of_case (.start hready hfrag hfits hburst _ htrailer _ hpayload), respond_response ..,
    txCtx_setTxCtx_same .., stored_of_memWrite hwrite, hpos, hshort, rfl, rfl, setTxCtx_sameBut ..,
    rxUntouched_replaceTx .., queueKept_replaceTx ..⟩

/-! ### The size of what is emitted (R240, R255) -/

/-- One PPDU that fits the burst: a header and as many payload bytes as its length field says, at most 2047. -/
def PpduFits (l : Config.PpduLayout) (burst : Nat) (ppdu : Bytes) : Prop :=
  ppdu.length ≤ burst ∧ ∃ (i : Instr) (payload : Bytes), ppdu = encodeWith l i ++ payload ∧
    payloadField i = some payload.length ∧ payload.length ≤ ppduLenMax

theorem length_field_toNat {n : Nat} (h : n ≤ ppduLenMax) : (BitVec.ofNat 11 n).toNat = n :=
  Nat.mod_eq_of_lt (Nat.lt_succ_of_le h)

/-- A header of `k` bytes whose length field is made of the number `n` of bytes read, with those bytes after it. -/
theorem ppduFits_of_memRead {l : Config.PpduLayout} {burst size off n k : Nat} {m : Mem} {payload : Bytes} {i : Instr}
    (hread : memRead size m off n = .ok payload) (hlen : (encodeWith l i).length = k)
    (hfield : payloadField i = some (BitVec.ofNat 11 n).toNat) (hmax : n ≤ ppduLenMax) (hburst : n + k ≤ burst) :
    PpduFits l burst (encodeWith l i ++ payload) := by
  obtain rfl := memRead_length hread
  rw [length_field_toNat hmax] at hfield
  exact ⟨by rwa [List.length_append, hlen, Nat.add_comm], i, payload, rfl, hfield, hmax⟩

/-- An EMIT either emits one PPDU that fits, with status OK or OK_AND_DONE, or emits nothing, with another. -/
theorem emit_ppdu {p : Config.Params} {t : Tx} {f : Fid} {burst : Nat} {e : Emission}
    (h : emit p t f burst = .ok e) :
    (e.status = .ok ∨ e.status = .okAndDone) ∧ PpduFits p.ppduLayout burst e.ppdu ∨
    ¬ (e.status = .ok ∨ e.status = .okAndDone) ∧ e.ppdu = [] := by
  obtain ⟨hcomp, hstart, hcont, hend⟩ := encodeWith_length p.ppduLayout
  cases emit_cases h with
  | nullTrmt | nInitBuf | timeout | firstTooSmall | laterTooSmall | tooMuchFrag => exact .inr ⟨nofun, rfl⟩
  | comp hready hfrag hfits payload hread =>
    obtain ⟨hmax, hburst⟩ := hfits
    exact .inl ⟨.inr rfl, ppduFits_of_memRead hread (hcomp ..) rfl hmax hburst⟩
  | start hready hfrag hfits hb c hwrite payload hread =>
    obtain ⟨-, -, hmax, hburst⟩ := startLen_bounds hfits hb
    exact .inl ⟨.inl rfl, ppduFits_of_memRead hread (hstart ..) rfl hmax hburst⟩
  | endPpdu hready hfrag hb hfits hcap payload hread =>
    obtain ⟨hburst, hmax⟩ := Nat.le_min.mp hfits
    exact .inl ⟨.inr rfl, ppduFits_of_memRead hread (hend ..) rfl hmax (by omega)⟩
  | cont hready hfrag hb hfits hpos hcap payload hread =>
    obtain ⟨-, hmax, hburst⟩ := contLen_bounds (t := t) (f := f) (burst := burst)
    exact .inl ⟨.inl rfl, ppduFits_of_memRead hread (hcont ..) rfl hmax (by omega)⟩

/-- Settles O26: under the invariant EMIT answers and keeps it, and what it emits is as `emit_ppdu` says. -/
theorem emitBounded : Obligations.EmitBounded := by
  intro s f burst hinv
  obtain ⟨e, hemit⟩ := emit_total (p := s.params) hinv f burst
  refine ⟨_, _, exec_emit_of_emit hemit, respond_response .., emit_inv hinv hemit, ?_⟩
  obtain ⟨hsent, hfits⟩ | ⟨hnone, hempty⟩ := emit_ppdu hemit
  · exact ⟨fun hok hdone => absurd hsent (not_or.mpr ⟨hok, hdone⟩), fun _ => hfits⟩
  · exact ⟨fun _ _ => hempty, fun hsent => absurd hsent hnone⟩

end Sys2Proof.Machine
end

section
/-! The PPDU parse (spec/46): a unit whose payload runs past the end of the FPDU ends the scan (R305, R310). -/

namespace Sys2Proof.Machine

section
variable {s : State}

/-! ### The units that carry a payload (R305) -/

theorem payloadAt_eq_none {hl len : Nat} (h : s.scan.fpdu.length < s.rx.off + hl + len) : payloadAt s hl len = none :=
  if_neg (Nat.not_le.mpr h)

theorem exec_comp_of_no_payload {len : BitVec 11} (hheader : s.scan.phase = .header)
    (hnone : payloadAt s 2 len.toNat = none) (lt : LabelType) (pts : Bool) :
    exec (.comp lt pts len) s = .next (endTruncated s) := by
  rw [show exec (.comp lt pts len) s = execComp lt pts len s from rfl, execComp, hheader]
  dsimp only
  rw [hnone]

theorem exec_start_of_no_payload {len : BitVec 11} (hheader : s.scan.phase = .header)
    (hnone : payloadAt s 4 len.toNat = none) (lt : LabelType) (pts : Bool) (f : Fid) (total : Index) (crc : Bool) :
    exec (.start lt pts len f total crc) s = .next (endTruncated s) := by
  rw [show exec (.start lt pts len f total crc) s = execStart lt pts len f total crc s from rfl, execStart, hheader]
  dsimp only
  rw [hnone]

theorem exec_cont_of_no_payload {len : BitVec 11} (hheader : s.scan.phase = .header)
    (hnone : payloadAt s 2 len.toNat = none) (f : Fid) :
    exec (.cont len f) s = .next (endTruncated s) := by
  rw [show exec (.cont len f) s = execCont len f s from rfl, execCont, hheader]
  dsimp only
  rw [hnone]

theorem exec_endPpdu_of_no_payload {len : BitVec 11} (hheader : s.scan.phase = .header)
    (hnone : payloadAt s 2 len.toNat = none) (f : Fid) :
    exec (.endPpdu len f) s = .next (endTruncated s) := by
  rw [show exec (.endPpdu len f) s = execEndPpdu len f s from rfl, execEndPpdu, hheader]
  dsimp only
  rw [hnone]

end

/-! ### The end of a truncated scan (R310) -/

/-- The bytes from `rx.off` on are dropped as one packet, counted on the aggregate; no other register is written. -/
theorem endTruncated_rx (s : State) :
    (endTruncated s).rx =
      { s.rx with
        agg := addCounters s.params.cntW s.rx.agg
          { pktsDropped := 1, bytesDropped := s.scan.fpdu.length - s.rx.off } } := by
  have hupdate : dropCounters 0 (s.scan.fpdu.length - s.rx.off) 0 =
      { pktsDropped := 1, bytesDropped := s.scan.fpdu.length - s.rx.off } := by
    rw [dropCounters, Nat.zero_add]
  rw [endTruncated, finishScan_rx, takeTruncated_rx, hupdate]
  rfl

theorem endTruncated_response (s : State) :
    (endTruncated s).host.response =
      some { status := .err, events := s.scan.events ++ [.drop none .fpduTruncated] } :=
  finishScan_response (takeTruncated s)

theorem endTruncated_off (s : State) : (endTruncated s).rx.off = s.rx.off := by rw [endTruncated_rx]

theorem endTruncated_agg (s : State) :
    (endTruncated s).rx.agg =
      addCounters s.params.cntW s.rx.agg
        { pktsDropped := 1, bytesDropped := s.scan.fpdu.length - s.rx.off } := by rw [endTruncated_rx]

theorem endTruncated_sameButAgg (s : State) : RxSameButAgg s.rx (endTruncated s).rx := by
  rw [endTruncated_rx]
  exact ⟨rfl, rfl, rfl, rfl⟩

theorem endTruncated_queueKept (s : State) : QueueKept s (endTruncated s) := ⟨rfl, rfl, rfl⟩

/-- Settles O43: each of the four units finds no payload and ends the scan by `endTruncated`. -/
theorem truncatedPayload : Obligations.TruncatedPayload := by
  intro s i hl len hheader hunit hpast
  have hnone : payloadAt s hl len.toNat = none := payloadAt_eq_none hpast
  have hexec : exec i s = .next (endTruncated s) := by
    obtain ⟨lt, pts, rfl, rfl⟩ | ⟨lt, pts, f, total, crc, rfl, rfl⟩ | ⟨f, rfl, rfl⟩ | ⟨f, rfl, rfl⟩ := hunit
    · exact exec_comp_of_no_payload hheader hnone lt pts
    · exact exec_start_of_no_payload hheader hnone lt pts f total crc
    · exact exec_cont_of_no_payload hheader hnone f
    · exact exec_endPpdu_of_no_payload hheader hnone f
  exact ⟨endTruncated s, hexec, endTruncated_sameButAgg s, endTruncated_off s, endTruncated_agg s, finishScan_scan _,
    finishScan_tx _, finishScan_params _, endTruncated_queueKept s, endTruncated_response s⟩

end Sys2Proof.Machine
end

section
/-! The reassembly machine (spec/47): a unit whose payload is in the FPDU arrives (R323), and the drop that follows is
counted with the arrival (R340). So read, the dropped ENDs (R332, R334), the units for a FREE context (R328), the
trailers (R344, R345) and the answer of a DECAP (R321, R352). -/

namespace Sys2Proof.Machine

/-! ### What a drop counts and releases (R340, R341) -/

section
variable {s t : State} {f : Fid} {reason : DropReason} {off hl len prior lost w : Nat}

theorem rxReleased_releaseRx (r : Rx) (f : Fid) (d : Counters) :
    RxReleased w (some f) d r (releaseRx (countRx w r (some f) d) f) where
  configured := countRx_configured ..
  cfg := countRx_cfg ..
  agg := countRx_agg ..
  ctx g := by
    by_cases hg : g = f
    · subst hg
      rw [if_pos rfl]
      exact rxCtx_countRx_same ..
    · rw [if_neg fun h => hg (Option.some.inj h).symm]
      exact rxCtx_countRx_ne r d hg
  busy g := by
    rw [releaseRx_busy, countRx_busy]
    by_cases hg : g = f
    · subst hg
      simp
    · simp [busyBit_clearBusy_ne _ hg, Ne.symm hg]

/-- The drop of the unit in hand, the scan going on at the next header. -/
theorem takeDrop_droppedBy (f : Fid) (reason : DropReason) (len prior : Nat) (s : State) :
    DroppedBy (some f) reason (dropCounters (lostOnDrop s.rx f reason prior) len prior) s.rx.off s
      (setPhase .header (takeDrop (some f) reason len prior s)) where
  only := ⟨takeDrop_tx .., takeDrop_params .., takeDrop_host ..⟩
  rx := rxReleased_releaseRx ..
  off := takeDrop_off ..
  scan := rfl

theorem setPhase_of_phase {p : ScanPhase} (h : s.scan.phase = p) : setPhase p s = s := by
  subst h
  rfl

/-- At a header position the drop itself leaves the scan at the header. -/
theorem takeDrop_droppedBy_of_header (hheader : s.scan.phase = .header) (f : Fid) (reason : DropReason)
    (len prior : Nat) :
    DroppedBy (some f) reason (dropCounters (lostOnDrop s.rx f reason prior) len prior) s.rx.off s
      (takeDrop (some f) reason len prior s) := by
  have hdrop := takeDrop_droppedBy f reason len prior s
  rwa [setPhase_of_phase (by simp [hheader])] at hdrop

/-- R340: a packet is lost where the dropped unit leaves part of the ALPDU missing. -/
theorem lostOnDrop_of_losesRemainder {r : Rx} (hreason : losesRemainder reason = true)
    (hbusy : busyBit r.busy f = true) :
    lostOnDrop r f reason prior = if prior < (rxCtx r f).totalLen.toNat then 1 else 0 := by
  have honce : alwaysLosesOne reason = false := by
    revert hreason
    cases reason <;> decide
  simp [lostOnDrop, honce, hreason, hbusy]

/-! ### The arrival before a drop (R323) -/

/-- What a unit that arrives and is then dropped counts. -/
def arrivedDropCounters (announcesSdu : Bool) (lost len prior : Nat) : Counters where
  pktsIn := if announcesSdu then 1 else 0
  pktsDropped := 1
  pktsLost := lost
  bytesIn := len
  bytesDropped := prior + len

theorem addCounters_arrival_drop (a : Counters) (b : Bool) (lost len prior : Nat) :
    addCounters w (addCounters w a (arrivalCounters b len)) (dropCounters lost len prior) =
      addCounters w a (arrivedDropCounters b lost len prior) := by
  simp [addCounters_addCounters, arrivalCounters, dropCounters, arrivedDropCounters]

theorem arrive_ctx_same (f : Fid) (b : Bool) (hl len : Nat) (s : State) :
    rxCtx (arrive (some f) b hl len s).rx f =
      { rxCtx s.rx f with cnt := addCounters s.params.cntW (rxCtx s.rx f).cnt (arrivalCounters b len) } :=
  rxCtx_countRx_same ..

theorem arrive_ctx_ne {g : Fid} (hg : g ≠ f) (b : Bool) (hl len : Nat) (s : State) :
    rxCtx (arrive (some f) b hl len s).rx g = rxCtx s.rx g := rxCtx_countRx_ne _ _ hg

theorem lostOnDrop_arrive (f : Fid) (reason : DropReason) (b : Bool) (hl len prior : Nat) (s : State) :
    lostOnDrop (arrive (some f) b hl len s).rx f reason prior = lostOnDrop s.rx f reason prior := by
  rw [lostOnDrop, arrive_ctx_same, arrive_busy]
  rfl

/-- A drop of the unit that has just arrived, seen from before its arrival: one update counts both. -/
theorem DroppedBy.of_arrive {b : Bool}
    (h : DroppedBy (some f) reason (dropCounters lost len prior) off (arrive (some f) b hl len s) t) :
    DroppedBy (some f) reason (arrivedDropCounters b lost len prior) off s t := by
  obtain ⟨⟨htx, hparams, hhost⟩, ⟨hconf, hcfg, hagg, hctx, hbusy⟩, hoff, hscan⟩ := h
  refine ⟨⟨htx, hparams, hhost⟩, ⟨?_, ?_, ?_, fun g => ?_, fun g => ?_⟩, hoff, hscan⟩
  · rw [hconf, arrive_configured]
  · rw [hcfg, arrive_cfg]
  · rw [hagg, arrive_params, arrive_rx, countRx_agg, addCounters_arrival_drop]
  · rw [hctx]
    by_cases hg : g = f
    · subst hg
      rw [if_pos rfl, if_pos rfl, arrive_params, arrive_ctx_same, addCounters_arrival_drop]
    · have hne : ¬ some f = some g := fun h => hg (Option.some.inj h).symm
      rw [if_neg hne, if_neg hne, arrive_ctx_ne hg]
  · rw [hbusy, arrive_busy]

/-- R323 and R340: a unit arrives at a header position and is dropped there. -/
theorem takeDrop_arrive_droppedBy (hheader : s.scan.phase = .header) (f : Fid) (reason : DropReason) (b : Bool)
    (hl len prior : Nat) :
    DroppedBy (some f) reason (arrivedDropCounters b (lostOnDrop s.rx f reason prior) len prior)
      (s.rx.off + hl + len) s (takeDrop (some f) reason len prior (arrive (some f) b hl len s)) := by
  have hdrop := takeDrop_droppedBy_of_header (s := arrive (some f) b hl len s) hheader f reason len prior
  rw [lostOnDrop_arrive] at hdrop
  exact hdrop.of_arrive

end

/-! ### CONT and END, one equation per drop (R328, R332, R334) -/

section
variable {s : State} {len : BitVec 11} {f : Fid} {payload : Bytes}

theorem payloadAt_of_payloadIs {hl n : Nat} (h : PayloadIs s hl n payload) : payloadAt s hl n = some payload := by
  obtain ⟨hfits, rfl⟩ := h
  exact if_pos hfits

theorem priorBytes_of_busy {r : Rx} (h : busyBit r.busy f = true) :
    priorBytes r f = (rxCtx r f).bytesReceived.toNat := if_pos h

theorem priorBytes_of_free {r : Rx} (h : busyBit r.busy f = false) : priorBytes r f = 0 := by simp [priorBytes, h]

theorem exec_cont_of_free (hheader : s.scan.phase = .header) (hpayload : PayloadIs s 2 len.toNat payload)
    (hfree : busyBit s.rx.busy f = false) :
    exec (.cont len f) s =
      .next (takeDrop (some f) .invalidTransition len.toNat 0 (arrive (some f) false 2 len.toNat s)) := by
  rw [show exec (.cont len f) s = execCont len f s from rfl, execCont, hheader]
  simp [payloadAt_of_payloadIs hpayload, priorBytes_of_free hfree, hfree]

theorem exec_endPpdu_of_free (hheader : s.scan.phase = .header) (hpayload : PayloadIs s 2 len.toNat payload)
    (hfree : busyBit s.rx.busy f = false) :
    exec (.endPpdu len f) s =
      .next (takeDrop (some f) .invalidTransition len.toNat 0 (arrive (some f) false 2 len.toNat s)) := by
  rw [show exec (.endPpdu len f) s = execEndPpdu len f s from rfl, execEndPpdu, hheader]
  simp [payloadAt_of_payloadIs hpayload, priorBytes_of_free hfree, hfree]

theorem exec_endPpdu_of_short (hheader : s.scan.phase = .header) (hpayload : PayloadIs s 2 len.toNat payload)
    (hbusy : busyBit s.rx.busy f = true) (hshort : len.toNat < trlLen (rxCtx s.rx f).useCrc) :
    exec (.endPpdu len f) s =
      .next (takeDrop (some f) .trailerShort len.toNat (rxCtx s.rx f).bytesReceived.toNat
        (arrive (some f) false 2 len.toNat s)) := by
  rw [show exec (.endPpdu len f) s = execEndPpdu len f s from rfl, execEndPpdu, hheader]
  simp [payloadAt_of_payloadIs hpayload, priorBytes_of_busy hbusy, hbusy, arrive_ctx_same, hshort]

theorem exec_endPpdu_of_mismatch (hheader : s.scan.phase = .header) (hpayload : PayloadIs s 2 len.toNat payload)
    (hbusy : busyBit s.rx.busy f = true) (htrailer : trlLen (rxCtx s.rx f).useCrc ≤ len.toNat)
    (hsum : (rxCtx s.rx f).bytesReceived.toNat + (len.toNat - trlLen (rxCtx s.rx f).useCrc) ≠
      (rxCtx s.rx f).totalLen.toNat) :
    exec (.endPpdu len f) s =
      .next (takeDrop (some f) .lengthMismatch len.toNat (rxCtx s.rx f).bytesReceived.toNat
        (arrive (some f) false 2 len.toNat s)) := by
  rw [show exec (.endPpdu len f) s = execEndPpdu len f s from rfl, execEndPpdu, hheader]
  simp [payloadAt_of_payloadIs hpayload, priorBytes_of_busy hbusy, hbusy, arrive_ctx_same, htrailer, hsum]

/-- R328: an update without `pktsLost`, since a FREE context holds nothing to lose. -/
theorem freeDrop_droppedBy (hheader : s.scan.phase = .header) (f : Fid) (n : Nat) :
    DroppedBy (some f) .invalidTransition { bytesIn := n, pktsDropped := 1, bytesDropped := n } (s.rx.off + 2 + n) s
      (takeDrop (some f) .invalidTransition n 0 (arrive (some f) false 2 n s)) := by
  have hdrop := takeDrop_arrive_droppedBy hheader f .invalidTransition false 2 n 0
  rwa [arrivedDropCounters, Nat.zero_add] at hdrop

/-- R332 and R334: a CONT or END dropped on a context IN_PROGRESS, for a reason that loses the remainder. -/
theorem remainderDrop_droppedBy (hheader : s.scan.phase = .header) (hbusy : busyBit s.rx.busy f = true)
    {reason : DropReason} (hreason : losesRemainder reason = true) (n prior : Nat) :
    DroppedBy (some f) reason
      { bytesIn := n, pktsDropped := 1, pktsLost := if prior < (rxCtx s.rx f).totalLen.toNat then 1 else 0
        bytesDropped := prior + n }
      (s.rx.off + 2 + n) s (takeDrop (some f) reason n prior (arrive (some f) false 2 n s)) := by
  have hdrop := takeDrop_arrive_droppedBy hheader f reason false 2 n prior
  rwa [lostOnDrop_of_losesRemainder hreason hbusy] at hdrop

end

/-- Settles O39: each premise is the guard of one drop of END, and both reasons lose the remainder. -/
theorem endDropped : Obligations.EndDropped := by
  rintro s len f payload c d hheader hpayload hbusy rfl rfl
  exact ⟨fun hshort => ⟨_, exec_endPpdu_of_short hheader hpayload hbusy hshort,
      remainderDrop_droppedBy hheader hbusy rfl ..⟩,
    fun htrailer hsum => ⟨_, exec_endPpdu_of_mismatch hheader hpayload hbusy htrailer hsum,
      remainderDrop_droppedBy hheader hbusy rfl ..⟩⟩

/-- Settles O37: CONT and END test the busy bit first and drop alike. -/
theorem invalidTransition : Obligations.InvalidTransition := by
  rintro s len f payload i hheader hpayload hfree (rfl | rfl)
  · exact ⟨_, exec_cont_of_free hheader hpayload hfree, freeDrop_droppedBy hheader f _⟩
  · exact ⟨_, exec_endPpdu_of_free hheader hpayload hfree, freeDrop_droppedBy hheader f _⟩

/-! ### The trailer bytes (spec/40 R142, spec/47 R345) -/

/-- Bits 7:3 of the byte of a sequence trailer are ignored. -/
theorem extract_low3 (b : Byte) : b.extractLsb' 0 3 = BitVec.ofNat 3 (b.toNat % 8) := by
  apply BitVec.eq_of_toNat_eq
  simp

theorem toNat_append_eq {m n : Nat} (x : BitVec m) (y : BitVec n) :
    (x ++ y).toNat = 2 ^ n * x.toNat + y.toNat := by
  rw [BitVec.toNat_append, Nat.shiftLeft_eq, Nat.mul_comm, ← Nat.two_pow_add_eq_or_of_lt y.isLt]

/-- Four bytes as a number, by their weights. -/
theorem word32_eq_ofNat (b3 b2 b1 b0 : Byte) :
    word32 b3 b2 b1 b0 =
      BitVec.ofNat 32 (b0.toNat + 2 ^ 8 * b1.toNat + 2 ^ 16 * b2.toNat + 2 ^ 24 * b3.toNat) := by
  apply BitVec.eq_of_toNat_eq
  have h0 := b0.isLt
  have h1 := b1.isLt
  have h2 := b2.isLt
  have h3 := b3.isLt
  rw [word32, toNat_append_eq, toNat_append_eq, toNat_append_eq, BitVec.toNat_ofNat]
  omega

/-! ### A good trailer (R331) -/

section
variable {s : State} {f : Fid} {alpdu trl : Bytes} {len prior : Nat}

/-- The ALPDU goes to delivery with the label type and PTS latched at the START, which `r` still holds. -/
theorem trailerPassed_trailerGood {r : Rx} {c : RxCtx} (hsame : RxSameBut f s.rx r) (hbusy : r.busy = s.rx.busy)
    (hoff : r.off = s.rx.off) (hctx : rxCtx r f = c) (hlt : c.lt = (rxCtx s.rx f).lt)
    (hpts : c.pts = (rxCtx s.rx f).pts) (alpdu : Bytes) (len prior : Nat) :
    TrailerPassed f alpdu len prior c r.agg s (trailerGood f alpdu len prior { s with rx := r }) := by
  subst hctx
  refine ⟨⟨rfl, rfl, rfl⟩, hsame, hbusy, hoff, rfl, rfl, ?_⟩
  rw [← hlt, ← hpts]
  rfl

theorem RxSameBut.refl (f : Fid) (r : Rx) : RxSameBut f r r := ⟨rfl, rfl, fun _ _ => rfl, fun _ _ => rfl⟩

theorem RxSameBut.trans {r r' r'' : Rx} (h : RxSameBut f r r') (h' : RxSameBut f r' r'') : RxSameBut f r r'' where
  configured := h'.configured.trans h.configured
  cfg := h'.cfg.trans h.cfg
  busy g hg := (h'.busy g hg).trans (h.busy g hg)
  ctx g hg := (h'.ctx g hg).trans (h.ctx g hg)

theorem setRxCtx_sameBut (r : Rx) (f : Fid) (c : RxCtx) : RxSameBut f r (setRxCtx r f c) :=
  ⟨rfl, rfl, fun _ _ => rfl, fun _ hg => rxCtx_setRxCtx_ne r c hg⟩

theorem countRx_sameBut (w : Nat) (r : Rx) (f : Fid) (d : Counters) : RxSameBut f r (countRx w r (some f) d) :=
  ⟨rfl, rfl, fun _ _ => rfl, fun _ hg => rxCtx_countRx_ne r d hg⟩

/-! ### The CRC trailer (R344) -/

theorem exec_trlCrc_of_match {crc : Crc} (hphase : s.scan.phase = .trailer f alpdu trl len prior)
    (hmatch : crc = crc32 s.params.crc32 alpdu) :
    exec (.trlCrc crc) s = .next (trailerGood f alpdu len prior s) := by
  rw [show exec (.trlCrc crc) s = execTrlCrc crc s from rfl, execTrlCrc, hphase]
  exact if_pos (beq_iff_eq.mpr hmatch)

theorem exec_trlCrc_of_mismatch {crc : Crc} (hphase : s.scan.phase = .trailer f alpdu trl len prior)
    (hmismatch : crc ≠ crc32 s.params.crc32 alpdu) :
    exec (.trlCrc crc) s = .next (setPhase .header (takeDrop (some f) .crcMismatch len prior s)) := by
  rw [show exec (.trlCrc crc) s = execTrlCrc crc s from rfl, execTrlCrc, hphase]
  exact if_neg fun hcheck => hmismatch (beq_iff_eq.mp hcheck)

/-! ### The sequence trailer (R345) -/

/-- The difference modulo 8 between a number and the expected one. -/
theorem seq_sub_toNat (seq exp : SeqNb) : (seq - exp).toNat = (8 + seq.toNat - exp.toNat) % 8 := by
  have hexp := exp.isLt
  rw [BitVec.toNat_sub]
  omega

theorem seqRecorded_sameBut (r : Rx) (f : Fid) (seq : SeqNb) : RxSameBut f r (seqRecorded r f seq) :=
  setRxCtx_sameBut ..

theorem rxCtx_seqRecorded_same (r : Rx) (f : Fid) (seq : SeqNb) :
    rxCtx (seqRecorded r f seq) f = { rxCtx r f with seqInit := true, nextExpSeq := seq + 1 } :=
  rxCtx_setRxCtx_same ..

/-- Where a number was expected before, recording the trailer only resynchronises it. -/
theorem seqRecorded_of_seqInit {r : Rx} (hinit : (rxCtx r f).seqInit = true) (seq : SeqNb) :
    seqRecorded r f seq = setRxCtx r f { rxCtx r f with nextExpSeq := seq + 1 } := by
  rw [seqRecorded, ← hinit]

theorem rxCtx_seqRecorded_count {r : Rx} (hinit : (rxCtx r f).seqInit = true) (w : Nat) (seq : SeqNb) (d : Counters) :
    rxCtx (countRx w (seqRecorded r f seq) (some f) d) f =
      { rxCtx r f with nextExpSeq := seq + 1, cnt := addCounters w (rxCtx r f).cnt d } := by
  rw [rxCtx_countRx_same, seqRecorded_of_seqInit hinit, rxCtx_setRxCtx_same]

theorem exec_trlSeq_of_first (hphase : s.scan.phase = .trailer f alpdu trl len prior)
    (hinit : (rxCtx s.rx f).seqInit = false) (seq : SeqNb) :
    exec (.trlSeq seq) s = .next (trailerGood f alpdu len prior { s with rx := seqRecorded s.rx f seq }) := by
  rw [show exec (.trlSeq seq) s = execTrlSeq seq s from rfl, execTrlSeq, hphase]
  simp [hinit]

theorem exec_trlSeq_of_gap (hphase : s.scan.phase = .trailer f alpdu trl len prior)
    (hinit : (rxCtx s.rx f).seqInit = true) {seq : SeqNb}
    (hgap : (seq - (rxCtx s.rx f).nextExpSeq).toNat < s.params.seqAmbigMin) :
    exec (.trlSeq seq) s =
      .next (trailerGood f alpdu len prior
        { s with
          rx := countRx s.params.cntW (seqRecorded s.rx f seq) (some f)
            { pktsLost := (seq - (rxCtx s.rx f).nextExpSeq).toNat } }) := by
  rw [show exec (.trlSeq seq) s = execTrlSeq seq s from rfl, execTrlSeq, hphase]
  simp only [hinit, Bool.not_true, Bool.false_eq_true, if_false, if_neg (Nat.not_le.mpr hgap)]

theorem exec_trlSeq_of_ambiguous (hphase : s.scan.phase = .trailer f alpdu trl len prior)
    (hinit : (rxCtx s.rx f).seqInit = true) {seq : SeqNb}
    (hambiguous : s.params.seqAmbigMin ≤ (seq - (rxCtx s.rx f).nextExpSeq).toNat) :
    exec (.trlSeq seq) s =
      .next (setPhase .header
        (takeDrop (some f) .seqAmbiguous len prior { s with rx := seqRecorded s.rx f seq })) := by
  rw [show exec (.trlSeq seq) s = execTrlSeq seq s from rfl, execTrlSeq, hphase]
  simp only [hinit, Bool.not_true, Bool.false_eq_true, if_false, if_pos hambiguous]

end

/-- Settles O41: the bytes weigh by their places, and the two outcomes are those of the comparison; the drop loses no
packet. -/
theorem trlCrcRule : Obligations.TrlCrcRule := by
  refine ⟨fun b0 b1 b2 b3 rest => ?_, fun s crc f alpdu trl len prior hphase =>
    ⟨fun hmatch => ⟨_, exec_trlCrc_of_match hphase hmatch, ?_⟩,
      fun hmismatch => ⟨_, exec_trlCrc_of_mismatch hphase hmismatch, takeDrop_droppedBy ..⟩⟩⟩
  · rw [← word32_eq_ofNat]
    rfl
  · exact trailerPassed_trailerGood (.refl ..) rfl rfl rfl rfl rfl ..

/-- Settles O40: the three branches of the rule, each with its next state. -/
theorem trlSeqRule : Obligations.TrlSeqRule := by
  refine ⟨fun b rest => ?_, ?_⟩
  · rw [← extract_low3]
    rfl
  rintro s seq f alpdu trl len prior d c hphase rfl rfl
  rw [← seq_sub_toNat]
  refine ⟨fun hinit => ⟨_, exec_trlSeq_of_first hphase hinit seq, ?_⟩,
    fun hinit hgap => ⟨_, exec_trlSeq_of_gap hphase hinit hgap, ?_⟩,
    fun hinit hambiguous => ⟨_, exec_trlSeq_of_ambiguous hphase hinit hambiguous, ?_⟩⟩
  · exact trailerPassed_trailerGood (seqRecorded_sameBut s.rx f seq) rfl rfl (rxCtx_seqRecorded_same s.rx f seq) rfl
      rfl alpdu len prior
  · exact trailerPassed_trailerGood ((seqRecorded_sameBut s.rx f seq).trans (countRx_sameBut ..)) rfl rfl
      (rxCtx_seqRecorded_count hinit ..) rfl rfl alpdu len prior
  · have hdrop := takeDrop_droppedBy f .seqAmbiguous len prior { s with rx := seqRecorded s.rx f seq }
    rw [seqRecorded_of_seqInit hinit] at hdrop ⊢
    exact hdrop

/-! ### The answer of a DECAP (R321, R352) -/

section
variable {s : State}

theorem exec_decap_of_unconfigured (h : s.rx.configured = false) (fpdu : Option Bytes) :
    exec (.decap fpdu) s = answerStatus .errNullRcvr s := if_neg (Bool.eq_false_iff.mp h)

theorem exec_decap_none (h : s.rx.configured = true) : exec (.decap none) s = answerStatus .errNullBuf s := if_pos h

end

/-- Settles O46: a scan that runs ends with an answer that says whether it dropped something (`execDecap_done`). -/
theorem decapStatus : Obligations.DecapStatus := by
  intro s
  refine ⟨fun hconf fpdu => answersOnly_of_exec (exec_decap_of_unconfigured hconf fpdu),
    fun hconf => answersOnly_of_exec (exec_decap_none hconf), fun fpdu hconf hinv => ?_⟩
  obtain ⟨t, hexec, hkept, hidle, htx, hproducer, hconf', hcfg, r, hresponse, hanswer⟩ :=
    execDecap_done hinv hconf fpdu
  refine ⟨t, r.events, hexec, ?_, htx, ⟨htx.requests, hproducer, htx.owner⟩, hkept.scan.idleIsEmpty hidle,
    hconf'.trans hconf, hcfg⟩
  obtain ⟨hr, hdrop⟩ | ⟨hr, hdrop⟩ := hanswer
  all_goals
    rw [hresponse, hdrop]
    exact congrArg some hr

end Sys2Proof.Machine
end

section
/-! Statistics and debug reads (spec/48): the record and the counter a read names, one equation per branch of the three
commands, and that each of them only answers. -/

namespace Sys2Proof.Machine

/-! ### Counters and records by number (spec/10 R35) -/

/-- A counter's number is its place in the record's list of counters. -/
theorem counter_eq_countersOf (c : Counters) (n : Nat) : counter c n = (countersOf c)[n]? := by
  match n with
  | 0 | 1 | 2 | 3 | 4 | 5 | 6 | 7 | 8 => rfl
  | _ + 9 => rfl

theorem counter_eq_none {n : Nat} (h : n > 8) (c : Counters) : counter c n = none := by
  rw [counter_eq_countersOf]
  exact List.getElem?_eq_none h

theorem txRecord_of_named {t : Tx} {sel : Nat} {rec : Counters}
    (h : sel = 8 ∧ rec = t.agg ∨ ∃ f : Fid, sel = f.toNat ∧ rec = (txCtx t f).cnt) : txRecord t sel = some rec := by
  obtain ⟨rfl, rfl⟩ | ⟨f, rfl, rfl⟩ := h
  · exact if_pos rfl
  · rw [txRecord, if_neg (Nat.ne_of_lt f.isLt), Vector.getElem?_eq_getElem f.isLt, Option.map_some, txCtx]

theorem rxRecord_of_named {r : Rx} {sel : Nat} {rec : Counters}
    (h : sel = 8 ∧ rec = r.agg ∨ ∃ f : Fid, sel = f.toNat ∧ rec = (rxCtx r f).cnt) : rxRecord r sel = some rec := by
  obtain ⟨rfl, rfl⟩ | ⟨f, rfl, rfl⟩ := h
  · exact if_pos rfl
  · rw [rxRecord, if_neg (Nat.ne_of_lt f.isLt), Vector.getElem?_eq_getElem f.isLt, Option.map_some, rxCtx]

theorem txRecord_eq_none {sel : Nat} (h : sel > 8) (t : Tx) : txRecord t sel = none := by
  rw [txRecord, if_neg (Nat.ne_of_gt h), Vector.getElem?_eq_none (Nat.le_of_lt h), Option.map_none]

theorem rxRecord_eq_none {sel : Nat} (h : sel > 8) (r : Rx) : rxRecord r sel = none := by
  rw [rxRecord, if_neg (Nat.ne_of_gt h), Vector.getElem?_eq_none (Nat.le_of_lt h), Option.map_none]

/-! ### Counter reads (R384, R385) -/

section
variable {n : Nat} {s : State}

theorem answerCounter_of_counter {rec : Counters} {v : Count} (h : (countersOf rec)[n]? = some v) :
    answerCounter (some rec) n s = answer { status := .ok, value := v } s := by
  rw [answerCounter, Option.bind_some, counter_eq_countersOf, h]

/-- No such record, or a number above that of the last counter. -/
theorem answerCounter_of_absent {rec : Option Counters} (h : rec = none ∨ n > 8) :
    answerCounter rec n s = answerStatus .err s := by
  have hnone : rec.bind (fun c => counter c n) = none := by
    obtain rfl | hn := h
    · exact Option.bind_none _
    · exact Option.bind_eq_none_iff.mpr fun c _ => counter_eq_none hn c
  rw [answerCounter, hnone]

theorem exec_txStat_of_configured (h : s.tx.configured = true) (sel : Nat) :
    exec (.txStat sel n) s = answerCounter (txRecord s.tx sel) n s := if_pos h

theorem exec_txStat_of_unconfigured (h : s.tx.configured = false) (sel : Nat) :
    exec (.txStat sel n) s = answerStatus .errNullTrmt s := if_neg (Bool.eq_false_iff.mp h)

theorem exec_rxStat_of_configured (h : s.rx.configured = true) (sel : Nat) :
    exec (.rxStat sel n) s = answerCounter (rxRecord s.rx sel) n s := if_pos h

theorem exec_rxStat_of_unconfigured (h : s.rx.configured = false) (sel : Nat) :
    exec (.rxStat sel n) s = answerStatus .errNullRcvr s := if_neg (Bool.eq_false_iff.mp h)

end

/-- Settles O30: on a configured unit the read is `answerCounter` of the record `sel` names, which only answers. -/
theorem statRule : Obligations.StatRule := by
  intro s sel n
  refine ⟨fun hnull => answersOnly_of_exec (exec_txStat_of_unconfigured hnull sel),
    fun hnull => answersOnly_of_exec (exec_rxStat_of_unconfigured hnull sel),
    fun hconf => ⟨fun habsent => answersOnly_of_exec ?_, fun v rec hrec hv => onlyResponse_of_answer ?_⟩,
    fun hconf => ⟨fun habsent => answersOnly_of_exec ?_, fun v rec hrec hv => onlyResponse_of_answer ?_⟩⟩
  · rw [exec_txStat_of_configured hconf, answerCounter_of_absent (habsent.imp_left (txRecord_eq_none · s.tx))]
  · rw [exec_txStat_of_configured hconf, txRecord_of_named hrec, answerCounter_of_counter hv]
  · rw [exec_rxStat_of_configured hconf, answerCounter_of_absent (habsent.imp_left (rxRecord_eq_none · s.rx))]
  · rw [exec_rxStat_of_configured hconf, rxRecord_of_named hrec, answerCounter_of_counter hv]

/-! ### The dump of a pending ALPDU (R386) -/

section
variable {s : State} {f : Fid}

theorem exec_dumpAlpdu_of_unconfigured (h : s.tx.configured = false) :
    exec (.dumpAlpdu f) s = answerStatus .errNullTrmt s := if_neg (Bool.eq_false_iff.mp h)

theorem exec_dumpAlpdu_of_free (hconf : s.tx.configured = true) (hfree : busyBit s.tx.busy f = false) :
    exec (.dumpAlpdu f) s = answerStatus .errContextTimeout s :=
  (if_pos hconf).trans (if_neg (Bool.eq_false_iff.mp hfree))

theorem exec_dumpAlpdu_of_read {bytes : Bytes} (hconf : s.tx.configured = true) (hbusy : busyBit s.tx.busy f = true)
    (hread : memRead fragBufLen (txCtx s.tx f).buf (txCtx s.tx f).head.toNat
      ((txCtx s.tx f).tail.toNat - (txCtx s.tx f).head.toNat) = .ok bytes) :
    exec (.dumpAlpdu f) s = answer { status := .ok, bytes := bytes } s := by
  rw [show exec (.dumpAlpdu f) s = execDumpAlpdu f s from rfl, execDumpAlpdu, if_pos hconf, if_pos hbusy]
  simp only [hread]

end

/-- Settles O31: each of the three outcomes is an answer and nothing more. -/
theorem dumpRule : Obligations.DumpRule := fun _ _ =>
  ⟨fun hnull => answersOnly_of_exec (exec_dumpAlpdu_of_unconfigured hnull),
    fun hconf hfree => answersOnly_of_exec (exec_dumpAlpdu_of_free hconf hfree),
    fun _ hconf hbusy hread => onlyResponse_of_answer (exec_dumpAlpdu_of_read hconf hbusy hread)⟩

end Sys2Proof.Machine
end

section
/-! The statuses of the commands (spec/60 R400 to R406): the refusals of the transmitter's commands as equations, the
null-unit rule (R404), and for each command that its answer is one R403 lists for it and is not ERR_N_INIT_BUF. -/

namespace Sys2Proof.Machine

/-! ### The refusals of ENCAP, EMIT and PACK (R220, R241, R280) -/

section
variable {s : State} {ptype : Ptype} {f : Fid}

theorem exec_encap_of_unconfigured (h : s.tx.configured = false) (sdu : Option Bytes) :
    exec (.encap sdu ptype f) s = answerStatus .errNullTrmt s := if_neg (Bool.eq_false_iff.mp h)

theorem exec_encap_none (h : s.tx.configured = true) :
    exec (.encap none ptype f) s = answerStatus .errNullBuf s := if_pos h

theorem exec_encap_of_too_big {sdu : Bytes} (h : s.tx.configured = true) (hsize : sduMax < sdu.length) :
    exec (.encap (some sdu) ptype f) s = answerStatus .errSduTooBig s :=
  (if_pos h).trans (if_pos hsize)

theorem exec_encap_of_busy {sdu : Bytes} (h : s.tx.configured = true) (hsize : sdu.length ≤ sduMax)
    (hinit : (txCtx s.tx f).initialised = true) (hbusy : busyBit s.tx.busy f = true) :
    exec (.encap (some sdu) ptype f) s = answerStatus .errCtxBusy s := by
  have hready : (!(txCtx s.tx f).initialised) ≠ true := by rw [hinit]; decide
  exact (if_pos h).trans ((if_neg (Nat.not_lt.mpr hsize)).trans ((if_neg hready).trans (if_pos hbusy)))

theorem exec_emit_of_unconfigured (h : s.tx.configured = false) (burst : Nat) :
    exec (.emit f burst) s = answerStatus .errNullTrmt s := exec_emit_of_case (.nullTrmt h)

theorem exec_pack_of_unconfigured (h : s.tx.configured = false) (size : Nat) (label : Option Bytes)
    (sched : List Fid) : exec (.pack size label sched) s = answerStatus .errNullTrmt s :=
  if_neg (Bool.eq_false_iff.mp h)

/-- R281: PACK on a configured unit fails one of its operand checks, or runs with its first bytes decided. -/
theorem exec_pack_of_configured (h : s.tx.configured = true) (size : Nat) (label : Option Bytes) (sched : List Fid) :
    (∃ x, (x = .errNullBuf ∨ x = .err ∨ x = .errFrag) ∧ exec (.pack size label sched) s = answerStatus x s) ∨
    ∃ start, exec (.pack size label sched) s = packFrom size start sched s := by
  by_cases hnolabel : implicitPayloadLabelSize s.tx.cfg = 0
  · exact .inr ⟨[], (if_pos h).trans (if_pos hnolabel)⟩
  · cases label with
    | none => exact .inl ⟨_, .inl rfl, (if_pos h).trans (if_neg hnolabel)⟩
    | some bytes =>
      by_cases hlabel : bytes.length = implicitPayloadLabelSize s.tx.cfg
      · by_cases hshort : size < implicitPayloadLabelSize s.tx.cfg
        · exact .inl ⟨_, .inr (.inr rfl),
            (if_pos h).trans ((if_neg hnolabel).trans ((if_pos hlabel).trans (if_pos hshort)))⟩
        · exact .inr ⟨bytes, (if_pos h).trans ((if_neg hnolabel).trans ((if_pos hlabel).trans (if_neg hshort)))⟩
      · exact .inl ⟨_, .inr (.inl rfl), (if_pos h).trans ((if_neg hnolabel).trans (if_neg hlabel))⟩

end

/-! ### The null units (R404) -/

/-- Settles O15: every command tests its unit's `configured` first; one equation each. -/
theorem nullUnitRule : Obligations.NullUnitRule := by
  refine ⟨fun s i hnull hcommand => answersOnly_of_exec ?_, fun s i hnull hcommand => answersOnly_of_exec ?_⟩
  · obtain rfl | ⟨sdu, ptype, f, rfl⟩ | ⟨f, burst, rfl⟩ | ⟨size, label, sched, rfl⟩ | ⟨f, rfl⟩ | ⟨sel, n, rfl⟩ :=
      hcommand
    · exact exec_txDestroy_of_unconfigured hnull
    · exact exec_encap_of_unconfigured hnull sdu
    · exact exec_emit_of_unconfigured hnull burst
    · exact exec_pack_of_unconfigured hnull size label sched
    · exact exec_dumpAlpdu_of_unconfigured hnull
    · exact exec_txStat_of_unconfigured hnull sel
  · obtain rfl | ⟨fpdu, rfl⟩ | ⟨sel, n, rfl⟩ := hcommand
    · exact exec_rxDestroy_of_unconfigured hnull
    · exact exec_decap_of_unconfigured hnull fpdu
    · exact exec_rxStat_of_unconfigured hnull sel

/-! ### Answers the relation lists (R403, R406) -/

/-- A status that R403 lists for the command and that occurs (R406). -/
def listed (i : Instr) (x : Status) : Bool := decide (x ∈ statusesOf i ∧ x ≠ .errNInitBuf)

/-- The command answers, with a status that is listed for it. -/
def AnswersListed (i : Instr) (s : State) : Prop :=
  ∃ t r, exec i s = .next t ∧ t.host.response = some r ∧ listed i r.status = true

theorem listed_of_or {i : Instr} {x y z : Status} (h : z = x ∨ z = y) (hx : listed i x = true)
    (hy : listed i y = true) : listed i z = true := by
  obtain rfl | rfl := h
  · exact hx
  · exact hy

/-- A test of a given status computes, whatever the operands: `rfl` for `hlisted`. -/
theorem answersListed_of_respond {i : Instr} {s u : State} {r : Response} (h : exec i s = .next (respond r u))
    (hlisted : listed i r.status = true) : AnswersListed i s :=
  ⟨_, r, h, respond_response r u, hlisted⟩

theorem txNew_answersListed (w : CfgWord) (s : State) : AnswersListed (.txNew w) s := by
  cases hvalid : cfgValid w with
  | true => exact answersListed_of_respond (exec_txNew_of_valid hvalid s) rfl
  | false => exact answersListed_of_respond (exec_txNew_of_invalid hvalid s) rfl

theorem rxNew_answersListed (w : CfgWord) (s : State) : AnswersListed (.rxNew w) s := by
  cases hvalid : cfgValid w with
  | true => exact answersListed_of_respond (exec_rxNew_of_valid hvalid s) rfl
  | false => exact answersListed_of_respond (exec_rxNew_of_invalid hvalid s) rfl

theorem txDestroy_answersListed (s : State) : AnswersListed .txDestroy s := by
  cases hconf : s.tx.configured with
  | false => exact answersListed_of_respond (exec_txDestroy_of_unconfigured hconf) rfl
  | true => exact answersListed_of_respond (exec_txDestroy_of_configured hconf) rfl

theorem rxDestroy_answersListed (s : State) : AnswersListed .rxDestroy s := by
  cases hconf : s.rx.configured with
  | false => exact answersListed_of_respond (exec_rxDestroy_of_unconfigured hconf) rfl
  | true => exact answersListed_of_respond (exec_rxDestroy_of_configured hconf) rfl

theorem hdrsz_answersListed (w : CfgWord) (k : FpduType) (s : State) : AnswersListed (.hdrsz w k) s := by
  by_cases hvalid : cfgValid w = true
  · cases hsize : headerSize k with
    | some n => exact answersListed_of_respond (exec_hdrsz_of_size hvalid hsize s) rfl
    | none => exact answersListed_of_respond (exec_hdrsz_of_no_size hvalid hsize s) rfl
  · exact answersListed_of_respond (exec_hdrsz_of_invalid hvalid s) rfl

/-- The flag of a context follows `configured` (R406), so past the unit check ENCAP finds it set. -/
theorem encap_answersListed {s : State} (hinv : TxInv s.tx) (sdu : Option Bytes) (ptype : Ptype) (f : Fid) :
    AnswersListed (.encap sdu ptype f) s := by
  cases hconf : s.tx.configured with
  | false => exact answersListed_of_respond (exec_encap_of_unconfigured hconf sdu) rfl
  | true =>
    have hinit : (txCtx s.tx f).initialised = true := (hinv.initialisedIs f).trans hconf
    cases sdu with
    | none => exact answersListed_of_respond (exec_encap_none hconf) rfl
    | some bytes =>
      rcases Nat.lt_or_ge sduMax bytes.length with hbig | hsize
      · exact answersListed_of_respond (exec_encap_of_too_big hconf hbig) rfl
      · cases hbusy : busyBit s.tx.busy f with
        | true => exact answersListed_of_respond (exec_encap_of_busy hconf hsize hinit hbusy) rfl
        | false =>
          obtain ⟨buf, hfill, -⟩ := fillCtx_stores s.params s.tx.cfg ptype (txCtx s.tx f) hsize
          exact answersListed_of_respond (exec_encap_of_accepted hconf hsize hinit hbusy hfill) rfl

/-- Every case of EMIT but `nInitBuf` has a listed status, and that one needs a unit whose flags disagree (R406). -/
theorem emit_status_listed {p : Config.Params} {t : Tx} {f : Fid} {burst : Nat} {e : Emission} (hinv : TxInv t)
    (h : emit p t f burst = .ok e) : listed (.emit f burst) e.status = true := by
  cases emit_cases h with
  | nInitBuf hconf hinit => exact absurd ((hinv.initialisedIs f).trans hconf) (Bool.eq_false_iff.mp hinit)
  | nullTrmt | timeout | firstTooSmall | laterTooSmall | tooMuchFrag | comp | start | endPpdu | cont => rfl

theorem emit_answersListed {s : State} (hinv : TxInv s.tx) (f : Fid) (burst : Nat) :
    AnswersListed (.emit f burst) s := by
  obtain ⟨e, hemit⟩ := emit_total (p := s.params) hinv f burst
  exact answersListed_of_respond (exec_emit_of_emit hemit) (emit_status_listed hinv hemit)

/-- PACK's answer says only whether some EMIT failed (R285), not with what status. -/
theorem packResponse_status (size : Nat) (k : Packing) :
    (packResponse size k).status = .errFrag ∨ (packResponse size k).status = .ok :=
  ite_eq_or_eq (k.failed = true) ..

theorem pack_answersListed {s : State} (hinv : TxInv s.tx) (size : Nat) (label : Option Bytes) (sched : List Fid) :
    AnswersListed (.pack size label sched) s := by
  cases hconf : s.tx.configured with
  | false => exact answersListed_of_respond (exec_pack_of_unconfigured hconf size label sched) rfl
  | true =>
    obtain ⟨x, hx, hexec⟩ | ⟨start, hexec⟩ := exec_pack_of_configured hconf size label sched
    · obtain rfl | rfl | rfl := hx
      all_goals exact answersListed_of_respond hexec rfl
    · obtain ⟨k, hserve⟩ := serveSched_total (p := s.params) (size := size) sched
        (k := { tx := s.tx, out := start, failed := false }) hinv
      rw [packFrom, hserve] at hexec
      exact answersListed_of_respond hexec (listed_of_or (packResponse_status size k) rfl rfl)

/-- The bytes of a pending ALPDU can be read (R80). -/
theorem memRead_pending {c : TxCtx} (h : TxCtxInv true c) :
    ∃ bytes, memRead fragBufLen c.buf c.head.toNat (c.tail.toNat - c.head.toNat) = .ok bytes := by
  obtain ⟨hhead, hsdu, -, htail, hend⟩ := h.bounds
  have hspan : c.head.toNat + (c.tail.toNat - c.head.toNat) = c.tail.toNat := by omega
  have hwritten := h.written rfl
  rw [← hspan] at hwritten
  exact memRead_of_written (.inr (hspan.trans_le htail)) hwritten

theorem dumpAlpdu_answersListed {s : State} (hinv : TxInv s.tx) (f : Fid) : AnswersListed (.dumpAlpdu f) s := by
  cases hconf : s.tx.configured with
  | false => exact answersListed_of_respond (exec_dumpAlpdu_of_unconfigured hconf) rfl
  | true =>
    cases hbusy : busyBit s.tx.busy f with
    | false => exact answersListed_of_respond (exec_dumpAlpdu_of_free hconf hbusy) rfl
    | true =>
      have hpending := hinv.ctx f
      rw [hbusy] at hpending
      obtain ⟨bytes, hread⟩ := memRead_pending hpending
      exact answersListed_of_respond (exec_dumpAlpdu_of_read hconf hbusy hread) rfl

/-- A counter read answers OK with the value, or ERR (R384). -/
theorem answerCounter_status (rec : Option Counters) (n : Nat) (s : State) :
    ∃ r, answerCounter rec n s = answer r s ∧ (r.status = .ok ∨ r.status = .err) := by
  rw [answerCounter]
  cases rec.bind (fun c => counter c n) with
  | some v => exact ⟨_, rfl, .inl rfl⟩
  | none => exact ⟨_, rfl, .inr rfl⟩

theorem txStat_answersListed (sel n : Nat) (s : State) : AnswersListed (.txStat sel n) s := by
  cases hconf : s.tx.configured with
  | false => exact answersListed_of_respond (exec_txStat_of_unconfigured hconf sel) rfl
  | true =>
    obtain ⟨r, hread, hstatus⟩ := answerCounter_status (txRecord s.tx sel) n s
    exact answersListed_of_respond ((exec_txStat_of_configured hconf sel).trans hread) (listed_of_or hstatus rfl rfl)

theorem rxStat_answersListed (sel n : Nat) (s : State) : AnswersListed (.rxStat sel n) s := by
  cases hconf : s.rx.configured with
  | false => exact answersListed_of_respond (exec_rxStat_of_unconfigured hconf sel) rfl
  | true =>
    obtain ⟨r, hread, hstatus⟩ := answerCounter_status (rxRecord s.rx sel) n s
    exact answersListed_of_respond ((exec_rxStat_of_configured hconf sel).trans hread) (listed_of_or hstatus rfl rfl)

/-- A scan that runs ends with OK or ERR (`execDecap_done`); before it DECAP checks the unit and the operand. -/
theorem decap_answersListed {s : State} (hinv : RxInv s.params.rasmBufLen s.rx) (fpdu : Option Bytes) :
    AnswersListed (.decap fpdu) s := by
  cases hconf : s.rx.configured with
  | false => exact answersListed_of_respond (exec_decap_of_unconfigured hconf fpdu) rfl
  | true =>
    cases fpdu with
    | none => exact answersListed_of_respond (exec_decap_none hconf) rfl
    | some bytes =>
      obtain ⟨t, hexec, -, -, -, -, -, -, r, hresponse, hanswer⟩ := execDecap_done hinv hconf bytes
      have hstatus : r.status = .ok ∨ r.status = .err :=
        hanswer.imp (fun ⟨hr, _⟩ => congrArg Response.status hr) (fun ⟨hr, _⟩ => congrArg Response.status hr)
      exact ⟨t, r, hexec, hresponse, listed_of_or hstatus rfl rfl⟩

/-- R403 over the instructions: those that are no command are wire units. -/
theorem command_answersListed {s : State} {i : Instr} (htx : TxInv s.tx) (hrx : RxInv s.params.rasmBufLen s.rx)
    (hcommand : ∃ o, siteOf i = .command o) : AnswersListed i s := by
  cases i with
  | txNew w => exact txNew_answersListed w s
  | rxNew w => exact rxNew_answersListed w s
  | txDestroy => exact txDestroy_answersListed s
  | rxDestroy => exact rxDestroy_answersListed s
  | encap sdu ptype f => exact encap_answersListed htx sdu ptype f
  | emit f burst => exact emit_answersListed htx f burst
  | pack size label sched => exact pack_answersListed htx size label sched
  | dumpAlpdu f => exact dumpAlpdu_answersListed htx f
  | txStat sel n => exact txStat_answersListed sel n s
  | rxStat sel n => exact rxStat_answersListed sel n s
  | decap fpdu => exact decap_answersListed hrx fpdu
  | hdrsz w k => exact hdrsz_answersListed w k s
  | reserved12 | reserved13 | reserved14 | reserved15 => exact answersListed_of_respond (u := s) rfl rfl
  | pad | comp | start | cont | endPpdu | ptOmit | ptComp | ptFallback | ptUncomp | trlSeq | trlCrc =>
    exact nomatch hcommand

/-- Settles O58: a listed status is one of R403's list, and not the one R406 excludes. -/
theorem statusRelation : Obligations.StatusRelation := by
  rintro s i ⟨htx, hrx, -⟩ hcommand
  obtain ⟨t, r, hexec, hresponse, hlisted⟩ := command_answersListed htx hrx hcommand
  exact ⟨t, r, hexec, hresponse, of_decide_eq_true hlisted⟩

end Sys2Proof.Machine
end

section
/-! The parameters (spec/00 R8, spec/70 R443): each instruction, each round of a DECAP's scan and each step leaves them
as they are. Nothing is assumed of the state: a fault or a refusal has no next state, so no invariant is needed. -/

namespace Sys2Proof.Machine

open Host (Outcome)

/-- Where the outcome is a next state, its parameters are those of `s`. -/
structure KeepsParams (s : State) (o : Outcome State Fault Refusal) : Prop where
  of_next : ∀ t, o = .next t → t.params = s.params

section
variable {s u : State} {o : Outcome State Fault Refusal}

theorem keepsParams_next (h : u.params = s.params) : KeepsParams s (.next u) :=
  ⟨fun _ hnext => Outcome.next.inj hnext ▸ h⟩

theorem keepsParams_fault (e : Fault) : KeepsParams s (.fault e) :=
  ⟨fun _ hnext => by cases hnext⟩

theorem keepsParams_refused (e : Refusal) : KeepsParams s (.refused e) :=
  ⟨fun _ hnext => by cases hnext⟩

theorem keepsParams_outOfPlace : KeepsParams s outOfPlace := keepsParams_refused _

theorem keepsParams_answer {r : Response} (h : u.params = s.params) : KeepsParams s (answer r u) :=
  keepsParams_next h

theorem keepsParams_answerStatus {x : Status} (h : u.params = s.params) : KeepsParams s (answerStatus x u) :=
  keepsParams_answer h

theorem keepsParams_ite {c : Prop} [Decidable c] {o' : Outcome State Fault Refusal} (ht : KeepsParams s o)
    (hf : KeepsParams s o') : KeepsParams s (if c then o else o') := by
  split
  · exact ht
  · exact hf

/-- Steps that keep the parameters compose. -/
theorem KeepsParams.of_params_eq (h : KeepsParams u o) (hu : u.params = s.params) : KeepsParams s o :=
  ⟨fun t ht => (h.of_next t ht).trans hu⟩

end

/-! ### The operations of the scan -/

theorem endTruncated_params (s : State) : (endTruncated s).params = s.params :=
  (finishScan_params _).trans (takeTruncated_params s)

theorem deliver_params (f : Option Fid) (expanded : Expanded) (len prior : Nat) (s : State) :
    (deliver f expanded len prior s).params = s.params := by
  refine (setPhase_params ..).trans ?_
  split
  · exact takeDrop_params ..
  split
  · exact takeDrop_params ..
  · exact deliverSdu_params ..

theorem trailerGood_params (f : Fid) (alpdu : Bytes) (len prior : Nat) (s : State) :
    (trailerGood f alpdu len prior s).params = s.params := setPhase_params ..

theorem dropRouted_params (reason : DropReason) (s : State) : (dropRouted reason s).params = s.params := by
  unfold dropRouted
  split
  · exact (setPhase_params ..).trans (takeDrop_params ..)
  · exact (setPhase_params ..).trans (takeDrop_params ..)
  all_goals rfl

theorem onDecodeError_params (e : DecodeError) (s : State) : (onDecodeError e s).params = s.params := by
  cases e with
  | endOfFpdu | notACommandCode => exact finishScan_params s
  | truncatedHeader => exact endTruncated_params s
  | ptypeFieldTooShort | trailerTooShort => exact dropRouted_params _ s

theorem beginScan_params (fpdu : Bytes) (s : State) : (beginScan fpdu s).params = s.params := by
  unfold beginScan
  dsimp only
  split
  · exact (endTruncated_params _).trans (setOff_params ..)
  · exact setOff_params ..

/-! ### The units at a header position (spec/46 R302, spec/47 R325 to R334) -/

section
variable {s : State}

/-- A unit that arrives and is dropped. -/
theorem keepsParams_drop_arrive (f g : Option Fid) (reason : DropReason) (b : Bool) (hl len n prior : Nat) :
    KeepsParams s (.next (takeDrop f reason n prior (arrive g b hl len s))) :=
  keepsParams_next ((takeDrop_params ..).trans (arrive_params ..))

theorem acceptStart_keepsParams (lt : LabelType) (pts : Bool) (payload : Bytes) (f : Fid) (totalLen : Index)
    (useCrc : Bool) : KeepsParams s (acceptStart lt pts payload f totalLen useCrc s) := by
  unfold acceptStart
  dsimp only
  split
  · exact keepsParams_fault _
  · exact keepsParams_next (logEvent_params ..)

theorem acceptCont_keepsParams (payload : Bytes) (f : Fid) : KeepsParams s (acceptCont payload f s) := by
  unfold acceptCont
  dsimp only
  split
  · exact keepsParams_fault _
  · exact keepsParams_next (logEvent_params ..)

theorem acceptEnd_keepsParams (payload : Bytes) (f : Fid) (prior : Nat) :
    KeepsParams s (acceptEnd payload f prior s) := by
  unfold acceptEnd
  dsimp only
  split
  · exact keepsParams_fault _
  split
  · exact keepsParams_fault _
  · exact keepsParams_next (setPhase_params ..)

theorem execPad_keepsParams : KeepsParams s (execPad s) := by
  unfold execPad
  split
  · exact keepsParams_next (finishScan_params s)
  all_goals exact keepsParams_outOfPlace

theorem execComp_keepsParams (lt : LabelType) (pts : Bool) (len : BitVec 11) :
    KeepsParams s (execComp lt pts len s) := by
  unfold execComp
  split
  · split
    · exact keepsParams_next (endTruncated_params s)
    · exact keepsParams_ite (keepsParams_drop_arrive ..)
        (keepsParams_next ((setPhase_params ..).trans (arrive_params ..)))
  all_goals exact keepsParams_outOfPlace

theorem execStart_keepsParams (lt : LabelType) (pts : Bool) (len : BitVec 11) (f : Fid) (totalLen : Index)
    (useCrc : Bool) : KeepsParams s (execStart lt pts len f totalLen useCrc s) := by
  unfold execStart
  split
  · split
    · exact keepsParams_next (endTruncated_params s)
    · exact keepsParams_ite (keepsParams_drop_arrive ..) <| keepsParams_ite (keepsParams_drop_arrive ..) <|
        keepsParams_ite (keepsParams_drop_arrive ..) <|
        (acceptStart_keepsParams ..).of_params_eq (arrive_params ..)
  all_goals exact keepsParams_outOfPlace

theorem execCont_keepsParams (len : BitVec 11) (f : Fid) : KeepsParams s (execCont len f s) := by
  unfold execCont
  split
  · split
    · exact keepsParams_next (endTruncated_params s)
    · exact keepsParams_ite (keepsParams_drop_arrive ..) <| keepsParams_ite (keepsParams_drop_arrive ..) <|
        (acceptCont_keepsParams ..).of_params_eq (arrive_params ..)
  all_goals exact keepsParams_outOfPlace

theorem execEndPpdu_keepsParams (len : BitVec 11) (f : Fid) : KeepsParams s (execEndPpdu len f s) := by
  unfold execEndPpdu
  split
  · split
    · exact keepsParams_next (endTruncated_params s)
    · exact keepsParams_ite (keepsParams_drop_arrive ..) <| keepsParams_ite (keepsParams_drop_arrive ..) <|
        keepsParams_ite (keepsParams_drop_arrive ..) <|
        (acceptEnd_keepsParams ..).of_params_eq (arrive_params ..)
  all_goals exact keepsParams_outOfPlace

/-! ### The trailers (spec/47 R344, R345) -/

/-- Whatever the number, only the receiver is written before the ALPDU is delivered or dropped. -/
theorem execTrlSeq_keepsParams (seq : SeqNb) : KeepsParams s (execTrlSeq seq s) := by
  unfold execTrlSeq
  split
  · exact keepsParams_ite (keepsParams_next (trailerGood_params ..)) <|
      keepsParams_ite (keepsParams_next ((setPhase_params ..).trans (takeDrop_params ..))) <|
      keepsParams_next (trailerGood_params ..)
  all_goals exact keepsParams_outOfPlace

theorem execTrlCrc_keepsParams (crc : Crc) : KeepsParams s (execTrlCrc crc s) := by
  unfold execTrlCrc
  split
  · exact keepsParams_ite (keepsParams_next (trailerGood_params ..))
      (keepsParams_next ((setPhase_params ..).trans (takeDrop_params ..)))
  all_goals exact keepsParams_outOfPlace

/-- The four forms of an ALPDU header (spec/47 R350) differ in what they deliver only. -/
theorem execUnit_keepsParams (i : Instr) : KeepsParams s (execUnit i s) := by
  cases i with
  | pad => exact execPad_keepsParams
  | comp lt pts len => exact execComp_keepsParams lt pts len
  | start lt pts len f totalLen useCrc => exact execStart_keepsParams lt pts len f totalLen useCrc
  | cont len f => exact execCont_keepsParams len f
  | endPpdu len f => exact execEndPpdu_keepsParams len f
  | ptOmit | ptComp | ptFallback | ptUncomp =>
    simp only [execUnit, execPtOmit, execPtComp, execPtFallback, execPtUncomp]
    split
    · exact keepsParams_next (deliver_params ..)
    all_goals exact keepsParams_outOfPlace
  | trlSeq seq => exact execTrlSeq_keepsParams seq
  | trlCrc crc => exact execTrlCrc_keepsParams crc
  | txNew | txDestroy | encap | emit | pack | dumpAlpdu | txStat | rxNew | rxDestroy | decap | rxStat | hdrsz
  | reserved12 | reserved13 | reserved14 | reserved15 => exact keepsParams_outOfPlace

end

/-! ### The scan of a DECAP (spec/46 R307, spec/47 R321) -/

theorem scanStep_keepsParams (s : State) : KeepsParams s (scanStep s) := by
  unfold scanStep
  split
  · exact execUnit_keepsParams _
  · exact keepsParams_next (onDecodeError_params ..)

theorem runScan_keepsParams (rounds : Nat) (s : State) : KeepsParams s (runScan rounds s) := by
  induction rounds generalizing s with
  | zero => exact keepsParams_next rfl
  | succ rounds ih =>
    unfold runScan
    refine keepsParams_ite (keepsParams_next rfl) ?_
    split
    · next u hround => exact (ih u).of_params_eq ((scanStep_keepsParams s).of_next u hround)
    · exact keepsParams_fault _
    · exact keepsParams_refused _

/-! ### The commands (spec/42 to spec/45, spec/48) -/

section
variable {s : State}

theorem execDecap_keepsParams (fpdu : Option Bytes) : KeepsParams s (execDecap fpdu s) := by
  refine keepsParams_ite ?_ (keepsParams_answerStatus rfl)
  cases fpdu with
  | none => exact keepsParams_answerStatus rfl
  | some bytes => exact (runScan_keepsParams _ _).of_params_eq (beginScan_params bytes s)

theorem execEncap_keepsParams (sdu : Option Bytes) (ptype : Ptype) (f : Fid) :
    KeepsParams s (execEncap sdu ptype f s) := by
  refine keepsParams_ite ?_ (keepsParams_answerStatus rfl)
  cases sdu with
  | none => exact keepsParams_answerStatus rfl
  | some bytes =>
    refine keepsParams_ite (keepsParams_answerStatus rfl) <| keepsParams_ite (keepsParams_answerStatus rfl) <|
      keepsParams_ite (keepsParams_answerStatus rfl) ?_
    split
    · exact keepsParams_fault _
    · exact keepsParams_answerStatus rfl

theorem execEmit_keepsParams (f : Fid) (burst : Nat) : KeepsParams s (execEmit f burst s) := by
  unfold execEmit
  split
  · exact keepsParams_fault _
  · exact keepsParams_answer rfl

theorem packFrom_keepsParams (size : Nat) (start : Bytes) (sched : List Fid) :
    KeepsParams s (packFrom size start sched s) := by
  unfold packFrom
  split
  · exact keepsParams_fault _
  · exact keepsParams_answer rfl

theorem execPack_keepsParams (size : Nat) (label : Option Bytes) (sched : List Fid) :
    KeepsParams s (execPack size label sched s) := by
  refine keepsParams_ite (keepsParams_ite (packFrom_keepsParams ..) ?_) (keepsParams_answerStatus rfl)
  cases label with
  | none => exact keepsParams_answerStatus rfl
  | some bytes =>
    exact keepsParams_ite (keepsParams_ite (keepsParams_answerStatus rfl) (packFrom_keepsParams ..))
      (keepsParams_answerStatus rfl)

theorem answerCounter_keepsParams (rec : Option Counters) (n : Nat) : KeepsParams s (answerCounter rec n s) := by
  unfold answerCounter
  split
  · exact keepsParams_answer rfl
  · exact keepsParams_answerStatus rfl

theorem execDumpAlpdu_keepsParams (f : Fid) : KeepsParams s (execDumpAlpdu f s) := by
  refine keepsParams_ite (keepsParams_ite ?_ (keepsParams_answerStatus rfl)) (keepsParams_answerStatus rfl)
  dsimp only
  split
  · exact keepsParams_fault _
  · exact keepsParams_answer rfl

theorem execHdrsz_keepsParams (w : CfgWord) (k : FpduType) : KeepsParams s (execHdrsz w k s) := by
  refine keepsParams_ite ?_ (keepsParams_answerStatus rfl)
  cases k with
  | logon | ctrl | trafficCtrl => exact keepsParams_answer rfl
  | traffic => exact keepsParams_answerStatus rfl

/-- NEW and DESTROY replace one unit, or refuse by a status; the parameters belong to neither unit. -/
theorem exec_keepsParams (i : Instr) : KeepsParams s (exec i s) := by
  have hunit : KeepsParams s (execUnit i s) := execUnit_keepsParams i
  cases i with
  | pad | comp | start | cont | endPpdu | ptOmit | ptComp | ptFallback | ptUncomp | trlSeq | trlCrc =>
    exact hunit
  | txNew | txDestroy | rxNew | rxDestroy =>
    exact keepsParams_ite (keepsParams_answerStatus rfl) (keepsParams_answerStatus rfl)
  | encap sdu ptype f => exact execEncap_keepsParams sdu ptype f
  | emit f burst => exact execEmit_keepsParams f burst
  | pack size label sched => exact execPack_keepsParams size label sched
  | dumpAlpdu f => exact execDumpAlpdu_keepsParams f
  | txStat | rxStat => exact keepsParams_ite (answerCounter_keepsParams ..) (keepsParams_answerStatus rfl)
  | decap fpdu => exact execDecap_keepsParams fpdu
  | hdrsz w k => exact execHdrsz_keepsParams w k
  | reserved12 | reserved13 | reserved14 | reserved15 => exact keepsParams_answerStatus rfl

end

/-! ### The step -/

theorem commandStep_keepsParams (s : State) : KeepsParams s (commandStep s) := by
  unfold commandStep
  split
  · exact keepsParams_next rfl
  · exact keepsParams_ite ((exec_keepsParams _).of_params_eq (accept_params ..)) (keepsParams_refused _)

theorem unitStep_keepsParams (s : State) : KeepsParams s (unitStep s) := by
  unfold unitStep
  split
  · exact exec_keepsParams _
  · exact keepsParams_next (onDecodeError_params ..)

/-- A step is a command or a unit of the scan. -/
theorem step_keepsParams (s : State) : KeepsParams s (step s) :=
  keepsParams_ite (commandStep_keepsParams s) (unitStep_keepsParams s)

/-- Settles O56: every instruction keeps the parameters, and so does a step that executes none. -/
theorem paramsNeverChange : Obligations.ParamsNeverChange := fun s =>
  (step_keepsParams s).of_next

end Sys2Proof.Machine
end

section
/-! The codec in both directions (spec/30 R100 to R116): the bytes of every instruction decode to it, at a PPDU-header
position the decoded unit has exactly the bytes read, and the words the spec writes out. -/

namespace Sys2Proof

/-! ### Decoding what was encoded -/

theorem decodeFpduType_encodeFpduType (k : FpduType) : decodeFpduType (encodeFpduType k) = k := by
  cases k <;> rfl

/-- Bits 7:3 of a sequence trailer are written as 0 and not read (R111, R113). -/
theorem extract_seq_setWidth (seq : SeqNb) : (seq.setWidth 8).extractLsb' 0 3 = seq := by
  apply BitVec.eq_of_getLsbD_eq
  intro i hi
  simp [hi, show i < 8 by omega]

section
variable {l : Config.PpduLayout} {i : Instr} (rest : Bytes)

/-- PPDU headers, where a CONT must not begin like a PAD (R102, R109). -/
theorem decodeWith_encodeWith_ppdu (hl : l.legal = true) (hwf : i.wellFormedWith l = true) (hsite : siteOf i = .ppdu) :
    decodeWith l .ppdu (encodeWith l i ++ rest) = .ok (i, rest) := by
  cases i with
  | pad => rfl
  | comp lt pts len => exact decodePpduWith_comp hl rest lt pts len
  | start lt pts len f total crc => exact decodePpduWith_start hl rest lt pts len f total crc
  | cont len f => exact decodePpduWith_cont hl rest len f (bne_iff_ne.mp hwf)
  | endPpdu len f => exact decodePpduWith_end hl rest len f
  | ptOmit | ptComp | ptFallback | ptUncomp | trlSeq | trlCrc | txNew | txDestroy | encap | emit | pack | dumpAlpdu
  | txStat | rxNew | rxDestroy | decap | rxStat | hdrsz | reserved12 | reserved13 | reserved14 | reserved15 =>
    cases hsite

theorem decodeAlpduHdr_ptComp {code : Byte} (h : code ≠ 0xff) :
    decodeAlpduHdr false true (code :: rest) = .ok (.ptComp code, rest) := if_neg h

theorem decodeAlpduHdr_ptFallback (ptype : Ptype) :
    decodeAlpduHdr false true (0xff#8 :: le16 ptype ++ rest) = .ok (.ptFallback ptype, rest) := by
  have hword : decodeAlpduHdr false true (0xff#8 :: le16 ptype ++ rest) =
      .ok (.ptFallback (word16 (ptype.extractLsb' 8 8) (ptype.extractLsb' 0 8)), rest) := rfl
  rw [hword, word16_bytes]

theorem decodeAlpduHdr_ptUncomp (ptype : Ptype) :
    decodeAlpduHdr false false (le16 ptype ++ rest) = .ok (.ptUncomp ptype, rest) := by
  have hword : decodeAlpduHdr false false (le16 ptype ++ rest) =
      .ok (.ptUncomp (word16 (ptype.extractLsb' 8 8) (ptype.extractLsb' 0 8)), rest) := rfl
  rw [hword, word16_bytes]

theorem decodeTrailer_trlSeq (seq : SeqNb) :
    decodeTrailer false (seq.setWidth 8 :: rest) = .ok (.trlSeq seq, rest) := by
  have hbyte : decodeTrailer false (seq.setWidth 8 :: rest) =
      .ok (.trlSeq ((seq.setWidth 8).extractLsb' 0 3), rest) := rfl
  rw [hbyte, extract_seq_setWidth]

theorem decodeTrailer_trlCrc (crc : Crc) : decodeTrailer true (le32 crc ++ rest) = .ok (.trlCrc crc, rest) := by
  have hword : decodeTrailer true (le32 crc ++ rest) =
      .ok (.trlCrc (word32 (crc.extractLsb' 24 8) (crc.extractLsb' 16 8) (crc.extractLsb' 8 8) (crc.extractLsb' 0 8)),
        rest) := rfl
  rw [hword, word32_bytes]

/-- Every well-formed instruction, in its own code space (R100). -/
theorem decodeWith_encodeWith (hl : l.legal = true) (hwf : i.wellFormedWith l = true) :
    decodeWith l (siteOf i) (encodeWith l i ++ rest) = .ok (i, rest) := by
  cases i with
  | pad | comp | start | cont | endPpdu => exact decodeWith_encodeWith_ppdu rest hl hwf rfl
  | ptOmit => rfl
  | ptComp code => exact decodeAlpduHdr_ptComp rest (bne_iff_ne.mp hwf)
  | ptFallback ptype => exact decodeAlpduHdr_ptFallback rest ptype
  | ptUncomp ptype => exact decodeAlpduHdr_ptUncomp rest ptype
  | trlSeq seq => exact decodeTrailer_trlSeq rest seq
  | trlCrc crc => exact decodeTrailer_trlCrc rest crc
  | txNew | txDestroy | encap | emit | pack | dumpAlpdu | txStat | rxNew | rxDestroy | decap | rxStat | reserved12
  | reserved13 | reserved14 | reserved15 => rfl
  | hdrsz w k =>
    have hcommand : decodeWith l (siteOf (.hdrsz w k)) (encodeWith l (.hdrsz w k) ++ rest) =
        .ok (.hdrsz w (decodeFpduType (encodeFpduType k)), rest) := rfl
    rw [hcommand, decodeFpduType_encodeFpduType]

end

/-- Settles O1: the law under every legal layout, of which the one of spec/30 is one. -/
theorem encodeDecodeRoundTrip : Obligations.EncodeDecodeRoundTrip :=
  ⟨fun _ _ rest hl hwf => decodeWith_encodeWith rest hl hwf,
    fun i rest hwf => decodeWith_encodeWith rest standard_legal ((wellFormedWith_standard i).trans hwf)⟩

/-! ### Encoding what was decoded -/

/-- Two fields taken from adjacent places of a word, put back, are the one field that spans both. -/
theorem fieldAt_extract_adjacent {n : Nat} (x : BitVec n) (pos w w' : Nat) :
    fieldAt n (pos + w) (x.extractLsb' (pos + w) w') ||| fieldAt n pos (x.extractLsb' pos w) =
      fieldAt n pos (x.extractLsb' pos (w + w')) := by
  apply BitVec.eq_of_getLsbD_eq
  intro i hi
  simp only [BitVec.getLsbD_or, getLsbD_fieldAt, BitVec.getLsbD_extractLsb', hi, decide_true, Bool.true_and]
  by_cases hlow : i < pos
  · simp [show ¬ pos ≤ i by omega, show ¬ pos + w ≤ i by omega]
  by_cases hmid : i < pos + w
  · simp [show pos ≤ i by omega, show ¬ pos + w ≤ i by omega, show i - pos < w by omega,
      show i - pos < w + w' by omega]
  · simp [show pos ≤ i by omega, show pos + w ≤ i by omega, show ¬ i - pos < w by omega,
      show i - (pos + w) < w' ↔ i - pos < w + w' by omega, show pos + w + (i - (pos + w)) = pos + (i - pos) by omega]

theorem fieldAt_whole {n : Nat} (x : BitVec n) : fieldAt n 0 (x.extractLsb' 0 n) = x := by
  rw [BitVec.extractLsb'_eq_self, fieldAt, BitVec.setWidth_eq, BitVec.shiftLeft_zero]

theorem ofBool_getLsbD {n : Nat} (x : BitVec n) (pos : Nat) : BitVec.ofBool (x.getLsbD pos) = x.extractLsb' pos 1 := by
  apply BitVec.eq_of_getLsbD_eq
  intro i hi
  simp [show i = 0 by omega]

/-- R103 to R106: the fields of spec/30 fill a header from its top to its lowest bit. -/
theorem compWord_extract {w : BitVec 16} (hse : w.extractLsb' 14 2 = 3#2) :
    compWord .standard (w.extractLsb' 12 2) (w.getLsbD 11) (w.extractLsb' 0 11) = w := by
  have hmark : 0xC000#16 = fieldAt 16 14 (w.extractLsb' 14 2) := by rw [hse]; decide
  have h1 := fieldAt_extract_adjacent w 12 2 2
  have h2 := fieldAt_extract_adjacent w 11 1 4
  have h3 := fieldAt_extract_adjacent w 0 11 5
  simp only [Nat.reduceAdd] at h1 h2 h3
  rw [compWord, hmark, ofBool_getLsbD]
  exact (congrArg (· ||| _ ||| _) h1).trans ((congrArg (· ||| _) h2).trans (h3.trans (fieldAt_whole w)))

theorem startWord_extract {x : BitVec 32} (hse : x.extractLsb' 30 2 = 2#2) :
    startWord .standard (x.extractLsb' 28 2) (x.getLsbD 27) (x.extractLsb' 16 11) (x.extractLsb' 13 3)
      (x.extractLsb' 1 12) (x.getLsbD 0) = x := by
  have hmark : 0x80000000#32 = fieldAt 32 30 (x.extractLsb' 30 2) := by rw [hse]; decide
  have h1 := fieldAt_extract_adjacent x 28 2 2
  have h2 := fieldAt_extract_adjacent x 27 1 4
  have h3 := fieldAt_extract_adjacent x 16 11 5
  have h4 := fieldAt_extract_adjacent x 13 3 16
  have h5 := fieldAt_extract_adjacent x 1 12 19
  have h6 := fieldAt_extract_adjacent x 0 1 31
  simp only [Nat.reduceAdd] at h1 h2 h3 h4 h5 h6
  rw [startWord, hmark, ofBool_getLsbD, ofBool_getLsbD]
  simp only [Config.PpduLayout.standard, h1, h2, h3, h4, h5, h6, fieldAt_whole]

theorem contWord_extract (w : BitVec 16) :
    contWord .standard (w.extractLsb' 3 11) (w.extractLsb' 0 3) = fieldAt 16 0 (w.extractLsb' 0 14) :=
  fieldAt_extract_adjacent w 0 3 11

/-- A short header is its marker S, E over the fields of the CONT header. -/
theorem fieldAt_marker_contWord (w : BitVec 16) :
    fieldAt 16 14 (w.extractLsb' 14 2) ||| contWord .standard (w.extractLsb' 3 11) (w.extractLsb' 0 3) = w := by
  rw [contWord_extract]
  exact (fieldAt_extract_adjacent w 0 14 2).trans (fieldAt_whole w)

theorem endWord_extract {w : BitVec 16} (hse : w.extractLsb' 14 2 = 1#2) :
    endWord .standard (w.extractLsb' 3 11) (w.extractLsb' 0 3) = w := by
  have hmark : 0x4000#16 = fieldAt 16 14 (w.extractLsb' 14 2) := by rw [hse]; decide
  rw [endWord, hmark, fieldAt_marker_contWord]

theorem contWord_extract_of_marker {w : BitVec 16} (hse : w.extractLsb' 14 2 = 0#2) :
    contWord .standard (w.extractLsb' 3 11) (w.extractLsb' 0 3) = w := by
  have hmark : 0#16 = fieldAt 16 14 (w.extractLsb' 14 2) := by rw [hse]; decide
  rw [← BitVec.zero_or (x := contWord ..), hmark, fieldAt_marker_contWord]

theorem be16_word16 (hi lo : Byte) : be16 (word16 hi lo) = [hi, lo] := by
  rw [be16, word16, BitVec.extractLsb'_append_eq_left, BitVec.extractLsb'_append_eq_right]

theorem be32_word32 (b3 b2 b1 b0 : Byte) : be32 (word32 b3 b2 b1 b0) = [b3, b2, b1, b0] := by
  have h2 : (word32 b3 b2 b1 b0).extractLsb' 16 8 = b2 := by
    rw [word32, BitVec.extractLsb'_append_eq_of_le (by decide), BitVec.extractLsb'_append_eq_of_le (by decide)]
    exact BitVec.extractLsb'_append_eq_right
  have h1 : (word32 b3 b2 b1 b0).extractLsb' 8 8 = b1 := by
    rw [word32, BitVec.extractLsb'_append_eq_of_le (by decide)]
    exact BitVec.extractLsb'_append_eq_right
  have h3 : (word32 b3 b2 b1 b0).extractLsb' 24 8 = b3 := by
    rw [word32, BitVec.extractLsb'_append_eq_of_le (by decide), BitVec.extractLsb'_append_eq_of_le (by decide)]
    exact BitVec.extractLsb'_append_eq_left
  rw [be32, h1, h2, h3, word32, BitVec.extractLsb'_append_eq_right]

/-- S and E of a header are the top bits of its first byte (R101). -/
theorem extract_top_word16 (hi lo : Byte) : (word16 hi lo).extractLsb' 14 2 = hi.extractLsb' 6 2 :=
  BitVec.extractLsb'_append_eq_of_le (by decide)

theorem extract_top_word32 (b3 b2 b1 b0 : Byte) :
    (word32 b3 b2 b1 b0).extractLsb' 30 2 = b3.extractLsb' 6 2 := by
  rw [word32, BitVec.extractLsb'_append_eq_of_le (by decide), BitVec.extractLsb'_append_eq_of_le (by decide),
    BitVec.extractLsb'_append_eq_of_le (by decide)]

/-- What the decoder can read at a PPDU-header position (R101, R109). -/
theorem decodePpduWith_cases {l : Config.PpduLayout} {bytes rest : Bytes} {i : Instr}
    (h : decodePpduWith l bytes = .ok (i, rest)) :
    (bytes = 0 :: rest ∧ i = .pad) ∨
    (∃ b3 b2 b1 b0, bytes = b3 :: b2 :: b1 :: b0 :: rest ∧ b3.extractLsb' 6 2 = 2#2 ∧
      i = unpackStart l (word32 b3 b2 b1 b0)) ∨
    (∃ hi lo, bytes = hi :: lo :: rest ∧ hi ≠ 0 ∧ hi.extractLsb' 6 2 ≠ 2#2 ∧ i = unpackShort l (word16 hi lo)) := by
  unfold decodePpduWith at h
  split at h
  · cases h
  · split at h
    · next hzero => cases h; exact .inl ⟨by rw [hzero], rfl⟩
    next hzero =>
    split at h
    · next hstart =>
      split at h
      · cases h; exact .inr (.inl ⟨_, _, _, _, rfl, (isStartByte_iff _).mp hstart, rfl⟩)
      · cases h
    · next hstart =>
      split at h
      · cases h; exact .inr (.inr ⟨_, _, rfl, hzero, mt (isStartByte_iff _).mpr hstart, rfl⟩)
      · cases h

theorem encode_unpackStart {x : BitVec 32} (hse : x.extractLsb' 30 2 = 2#2) :
    encode (unpackStart .standard x) = be32 x := congrArg be32 (startWord_extract hse)

/-- Every short header but a START's marker: which of the three it is, S and E say. -/
theorem encode_unpackShort {w : BitVec 16} (hse : w.extractLsb' 14 2 ≠ 2#2) :
    encode (unpackShort .standard w) = be16 w := by
  obtain h0 | h1 | h3 : w.extractLsb' 14 2 = 0#2 ∨ w.extractLsb' 14 2 = 1#2 ∨ w.extractLsb' 14 2 = 3#2 := by
    revert hse
    generalize w.extractLsb' 14 2 = v
    revert v
    decide
  · rw [unpackShort_eq, h0]
    exact congrArg be16 (contWord_extract_of_marker h0)
  · rw [unpackShort_eq, h1]
    exact congrArg be16 (endWord_extract h1)
  · rw [unpackShort_eq, h3]
    exact congrArg be16 (compWord_extract h3)

/-- A short header whose first byte is not zero is no CONT that reads as PAD (R102, R105). -/
theorem unpackShort_wellFormed {hi lo : Byte} (hpad : hi ≠ 0) (hse : hi.extractLsb' 6 2 ≠ 2#2) :
    (unpackShort .standard (word16 hi lo)).wellFormed = true := by
  rw [← wellFormedWith_standard]
  have hbytes : encode (unpackShort .standard (word16 hi lo)) = [hi, lo] := by
    rw [encode_unpackShort (by rwa [extract_top_word16]), be16_word16]
  revert hbytes
  cases hunit : unpackShort .standard (word16 hi lo) with
  | cont len f =>
    intro hbytes
    have hhead : (contWord .standard len f).extractLsb' 8 8 = hi := (List.cons.inj hbytes).1
    exact bne_iff_ne.mpr (hhead ▸ hpad)
  | pad | comp | start | endPpdu | ptOmit | ptFallback | ptUncomp | trlSeq | trlCrc | txNew | txDestroy
  | encap | emit | pack | dumpAlpdu | txStat | rxNew | rxDestroy | decap | rxStat | hdrsz | reserved12 | reserved13
  | reserved14 | reserved15 => exact fun _ => rfl
  | ptComp =>
    unfold unpackShort at hunit
    split at hunit
    · cases hunit
    · split at hunit <;> cases hunit

/-- Settles O3: the three ways to read a header, each of them packing the word it was read from. -/
theorem ppduBytesDetermined : Obligations.PpduBytesDetermined := by
  intro bytes rest i hdecode
  refine ⟨?_, ?_, Machine.decodePpdu_site hdecode⟩
  · obtain ⟨rfl, rfl⟩ | ⟨b3, b2, b1, b0, rfl, hse, rfl⟩ | ⟨hi, lo, rfl, -, hse, rfl⟩ := decodePpduWith_cases hdecode
    · rfl
    · rw [encode_unpackStart (by rwa [extract_top_word32]), be32_word32]
      rfl
    · rw [encode_unpackShort (by rwa [extract_top_word16]), be16_word16]
      rfl
  · obtain ⟨-, rfl⟩ | ⟨b3, b2, b1, b0, -, -, rfl⟩ | ⟨hi, lo, -, hpad, hse, rfl⟩ := decodePpduWith_cases hdecode
    · rfl
    · rfl
    · exact unpackShort_wellFormed hpad hse

/-- Settles O4: each is an evaluation of the decoder on a literal, its fields read from a literal word. -/
theorem specWordsDecode : Obligations.SpecWordsDecode :=
  ⟨rfl, rfl, rfl, rfl, rfl, rfl, rfl, rfl, rfl, rfl, rfl⟩

end Sys2Proof
end

section
/-! CRC-32 (spec/40 R145 to R149): each byte step of the default function is injective in the register and in the byte,
so a message with one bit flipped has another CRC, as the type of the other functions has it. -/

namespace Sys2Proof.Machine

/-! ### The default function (R146) -/

theorem crcBit_eq (x : Crc) : crcBit x = (x <<< 1) ^^^ (if x.msb then crcPoly else 0) := by
  unfold crcBit
  split
  · rfl
  · exact BitVec.xor_zero.symm

/-- Bit 0 of a bit step says whether the polynomial was added: it alone has this bit. -/
theorem getLsbD_zero_crcBit (x : Crc) : (crcBit x).getLsbD 0 = x.msb := by
  rw [crcBit_eq, BitVec.getLsbD_xor, BitVec.getLsbD_shiftLeft]
  cases x.msb with
  | true | false => simp [crcPoly]

/-- A bit step loses nothing: the bit shifted out is seen in bit 0, the others in their next places. -/
theorem crcBit_injective : Function.Injective crcBit := by
  intro x y h
  have hmsb : x.msb = y.msb := by rw [← getLsbD_zero_crcBit, h, getLsbD_zero_crcBit]
  have hshift : x <<< 1 = y <<< 1 := by
    rw [crcBit_eq, crcBit_eq, hmsb] at h
    exact BitVec.xor_left_inj _ |>.mp h
  apply BitVec.eq_of_getLsbD_eq
  intro i hi
  by_cases htop : i = 31
  · subst htop
    rwa [BitVec.msb_eq_getLsbD_last, BitVec.msb_eq_getLsbD_last] at hmsb
  · have hbit := congrArg (fun v : Crc => v.getLsbD (i + 1)) hshift
    simp only [BitVec.getLsbD_shiftLeft] at hbit
    simpa [-BitVec.getLsbD_eq_getElem, show i + 1 < 32 by omega] using hbit

theorem crcByte_eq (crc : Crc) (b : Byte) : crcByte crc b = crcBit^[8] (crc ^^^ (b.setWidth 32 <<< 24)) := rfl

/-- With the same byte, other registers stay apart. -/
theorem crcByte_injective_left (b : Byte) : Function.Injective (crcByte · b) := fun x y h => by
  simp only [crcByte_eq] at h
  exact BitVec.xor_left_inj _ |>.mp (crcBit_injective.iterate 8 h)

/-- A flipped bit of the byte changes the register. -/
theorem crcByte_flip (crc : Crc) (b : Byte) {j : Nat} (hj : j < 8) :
    crcByte crc (b ^^^ BitVec.twoPow 8 j) ≠ crcByte crc b := by
  intro h
  simp only [crcByte_eq] at h
  have hword := BitVec.xor_right_inj _ |>.mp (crcBit_injective.iterate 8 h)
  have hbit := congrArg (fun v : Crc => v.getLsbD (24 + j)) hword
  simp [show 24 + j < 32 by omega, hj] at hbit

theorem crcFold_injective (m : Bytes) : Function.Injective (fun crc : Crc => m.foldl crcByte crc) := by
  induction m with
  | nil => exact Function.injective_id
  | cons b m ih => exact ih.comp (crcByte_injective_left b)

/-- A flip in the message changes the register at its byte, and the bytes after it keep the difference. -/
theorem crcFold_flip (m : Bytes) (crc : Crc) {k j : Nat} (hk : k < m.length) (hj : j < 8) :
    (m.modify k (fun b => b ^^^ BitVec.twoPow 8 j)).foldl crcByte crc ≠ m.foldl crcByte crc := by
  induction m generalizing crc k with
  | nil => cases hk
  | cons b m ih =>
    cases k with
    | zero => exact fun h => crcByte_flip crc b hj (crcFold_injective m h)
    | succ k => exact ih (crcByte crc b) (Nat.lt_of_succ_lt_succ hk)

/-- R147, the flips inside the message. -/
theorem crc32_flip (c : Config.CrcInstance) (m : Bytes) {k j : Nat} (hk : k < m.length) (hj : j < 8) :
    crc32 c (m.modify k (fun b => b ^^^ BitVec.twoPow 8 j)) ≠ crc32 c m := by
  cases c with
  | mpeg2 => exact crcFold_flip m _ hk hj
  | other n => exact (Config.crc32Other n).flip m k j hk hj

/-! ### The message and its trailer (R147) -/

section
variable {α : Type} (f : α → α) (l m : List α) {k : Nat}

theorem modify_append_left (h : k < l.length) : (l ++ m).modify k f = l.modify k f ++ m := by
  induction l generalizing k with
  | nil => cases h
  | cons a l ih =>
    cases k with
    | zero => rfl
    | succ k => exact congrArg (a :: ·) (ih (Nat.lt_of_succ_lt_succ h))

theorem modify_append_right (h : l.length ≤ k) : (l ++ m).modify k f = l ++ m.modify (k - l.length) f := by
  induction l generalizing k with
  | nil => rfl
  | cons a l ih =>
    cases k with
    | zero => cases h
    | succ k =>
      rw [List.length_cons, Nat.add_sub_add_right]
      exact congrArg (a :: ·) (ih (Nat.le_of_succ_le_succ h))

end

theorem modify_flip_ne {m : Bytes} {k j : Nat} (hk : k < m.length) (hj : j < 8) :
    m.modify k (fun b => b ^^^ BitVec.twoPow 8 j) ≠ m := by
  intro h
  have hbyte := congrArg (·[k]?) h
  simp only [List.getElem?_modify, if_pos, List.getElem?_eq_getElem hk] at hbyte
  have hbit := congrArg (fun b : Byte => b.getLsbD j) (Option.some.inj hbyte)
  simp [hj] at hbit

/-- Settles O5: a flip in the message changes the CRC and not the trailer, a flip in the trailer the reverse. -/
theorem crcDetectsSingleBitFlip : Obligations.CrcDetectsSingleBitFlip := by
  intro c m n t k j hk hj h
  have htrailer (v : Crc) : (le32 v).length = 4 := rfl
  refine Bool.eq_false_iff.mpr fun hcheck => ?_
  obtain rfl : t = crc32 c n := beq_iff_eq.mp hcheck
  by_cases hmessage : k < m.length
  · rw [modify_append_left _ _ _ hmessage] at h
    obtain ⟨rfl, hcrc⟩ := List.append_inj' h rfl
    have hword := congrArg (fun l => decodeTrailer true (l ++ [])) hcrc
    simp only [decodeTrailer_trlCrc, Except.ok.injEq, Prod.mk.injEq, Instr.trlCrc.injEq, and_true] at hword
    exact crc32_flip c m hmessage hj hword
  · rw [modify_append_right _ _ _ (Nat.le_of_not_lt hmessage)] at h
    obtain ⟨rfl, hcrc⟩ := List.append_inj' h (by rw [List.length_modify]; rfl)
    exact modify_flip_ne (by rw [htrailer]; omega) hj hcrc.symm

end Sys2Proof.Machine
end

section
/-! VLAN_RESTORE (spec/41 R175, R176): past the length check, what is delivered is decided by the outer EtherType and by
the version nibble at the offset `P`. -/

namespace Sys2Proof.Machine

section
variable {p : Config.Params} {sdu : Bytes}

theorem vlanRestore_of_short (h : sdu.length < vlanPtypeOff p + 1) : vlanRestore p sdu = .error .malformedVlan :=
  if_pos h

theorem vlanRestore_of_other_ethertype (h : ¬ (sdu[12]? = some 0x81 ∧ sdu[13]? = some 0x00)) :
    vlanRestore p sdu = .error .malformedVlan := by
  by_cases hshort : sdu.length < vlanPtypeOff p + 1
  · exact vlanRestore_of_short hshort
  · exact (if_neg hshort).trans (if_neg h)

/-- A VLAN frame that reaches the offset: the nibble there says what is missing. -/
theorem vlanRestore_of_vlan {b : Byte} (hbyte : sdu[vlanPtypeOff p]? = some b)
    (hvlan : sdu[12]? = some 0x81 ∧ sdu[13]? = some 0x00) :
    vlanRestore p sdu = (ipByNibble b).elim (.error .malformedVlan)
      (fun r => .ok (ptypeVlan, sdu.take (vlanPtypeOff p) ++ be16 r ++ sdu.drop (vlanPtypeOff p))) := by
  have hlong : ¬ sdu.length < vlanPtypeOff p + 1 := by
    obtain ⟨hlt, -⟩ := List.getElem?_eq_some_iff.mp hbyte
    omega
  unfold vlanRestore
  dsimp only
  rw [if_neg hlong, hbyte, Option.bind_some]
  refine (if_pos hvlan).trans ?_
  cases ipByNibble b with
  | none | some r => rfl

theorem vlanRestore_of_other_nibble {b : Byte} (hbyte : sdu[vlanPtypeOff p]? = some b) (hnone : ipByNibble b = none) :
    vlanRestore p sdu = .error .malformedVlan := by
  by_cases hvlan : sdu[12]? = some 0x81 ∧ sdu[13]? = some 0x00
  · rw [vlanRestore_of_vlan hbyte hvlan, hnone, Option.elim_none]
  · exact vlanRestore_of_other_ethertype hvlan

end

/-- Settles O8: a lemma for each of the three drops; of a VLAN frame the nibble 4 or 6 gives the protocol type. -/
theorem vlanRestoreRule : Obligations.VlanRestoreRule := by
  rintro p sdu _ rfl
  refine ⟨vlanRestore_of_short, fun hother => vlanRestore_of_other_ethertype (not_and_or.mpr hother),
    fun b hbyte h4 h6 => vlanRestore_of_other_nibble hbyte ?_, fun b hbyte h81 h00 h4 => ?_,
    fun b hbyte h81 h00 h6 => ?_⟩
  · rw [ipByNibble_eq, if_neg h4, if_neg h6]
  · rw [vlanRestore_of_vlan hbyte ⟨h81, h00⟩, (ipByNibble_eq_some_iff b 0x0800).mpr (.inl ⟨rfl, h4⟩)]
    rfl
  · rw [vlanRestore_of_vlan hbyte ⟨h81, h00⟩, (ipByNibble_eq_some_iff b 0x86dd).mpr (.inr ⟨rfl, h6⟩)]
    rfl

end Sys2Proof.Machine
end

section
/-! The transmitter's commands: the reserved codes (spec/30 R116), the checks of ENCAP and PACK (spec/43 R220, spec/45
R280), all that an ENCAP with status OK has done (R221, R230), and the later emissions of EMIT (spec/44 R248 to
R256). -/

namespace Sys2Proof.Machine

/-- Settles O14: each of the four is the answer `ERR`. -/
theorem reservedCodesRule : Obligations.ReservedCodesRule := fun _ =>
  ⟨answersOnly_of_exec rfl, answersOnly_of_exec rfl, answersOnly_of_exec rfl, answersOnly_of_exec rfl⟩

theorem answered_respond_iff {r : Response} {s : State} {x : Status} : Answered (respond r s) x ↔ r.status = x :=
  ⟨fun ⟨_, hr, hx⟩ => by cases hr; exact hx, fun hx => ⟨r, rfl, hx⟩⟩

/-! ### ENCAP (R220, R221) -/

section
variable {s t : State} {ptype : Ptype} {f : Fid}

theorem exec_encap_of_uninitialised {sdu : Bytes} (h : s.tx.configured = true) (hsize : sdu.length ≤ sduMax)
    (hinit : (txCtx s.tx f).initialised = false) :
    exec (.encap (some sdu) ptype f) s = answerStatus .errNInitBuf s := by
  have hnot : (!(txCtx s.tx f).initialised) = true := by rw [hinit]; rfl
  exact (if_pos h).trans ((if_neg (Nat.not_lt.mpr hsize)).trans (if_pos hnot))

/-- An ENCAP of `sdu` took context `f`: the guards it passed, the buffer it left and the whole next state. -/
structure EncapTook (sdu : Bytes) (ptype : Ptype) (f : Fid) (buf : Mem) (s t : State) : Prop where
  configured : s.tx.configured = true
  size : sdu.length ≤ sduMax
  initialised : (txCtx s.tx f).initialised = true
  free : busyBit s.tx.busy f = false
  fill : fillCtx s.params s.tx.cfg sdu ptype (txCtx s.tx f) =
    .ok (filled s.params s.tx.cfg sdu ptype (txCtx s.tx f) buf)
  stored : Stored fragBufLen (txCtx s.tx f).buf buf (headOf s.params s.tx.cfg ptype)
    (encode (chooseHeader s.params s.tx.cfg ptype) ++ sdu)
  state : t = respond { status := .ok }
    { s with
      tx := takeTx s.params.cntW s.tx f (filled s.params s.tx.cfg sdu ptype (txCtx s.tx f) buf) sdu.length
      host := recordOwner f s.host }

/-- What an ENCAP can do: answer a status that is not OK, or take the context. -/
theorem exec_encap_cases (sdu : Option Bytes) (ptype : Ptype) (f : Fid) (s : State) :
    (∃ x, exec (.encap sdu ptype f) s = answerStatus x s ∧ x ≠ .ok) ∨
    ∃ bytes buf t, sdu = some bytes ∧ exec (.encap sdu ptype f) s = .next t ∧ EncapTook bytes ptype f buf s t := by
  cases hconf : s.tx.configured with
  | false => exact .inl ⟨_, exec_encap_of_unconfigured hconf sdu, nofun⟩
  | true =>
    cases sdu with
    | none => exact .inl ⟨_, exec_encap_none hconf, nofun⟩
    | some bytes =>
      rcases Nat.lt_or_ge sduMax bytes.length with hbig | hsize
      · exact .inl ⟨_, exec_encap_of_too_big hconf hbig, nofun⟩
      cases hinit : (txCtx s.tx f).initialised with
      | false => exact .inl ⟨_, exec_encap_of_uninitialised hconf hsize hinit, nofun⟩
      | true =>
        cases hbusy : busyBit s.tx.busy f with
        | true => exact .inl ⟨_, exec_encap_of_busy hconf hsize hinit hbusy, nofun⟩
        | false =>
          obtain ⟨buf, hfill, hstored⟩ := fillCtx_stores s.params s.tx.cfg ptype (txCtx s.tx f) hsize
          exact .inr ⟨bytes, buf, _, rfl, exec_encap_of_accepted hconf hsize hinit hbusy hfill,
            hconf, hsize, hinit, hbusy, hfill, hstored, rfl⟩

theorem encapTook_of_answered {sdu : Option Bytes} (hexec : exec (.encap sdu ptype f) s = .next t)
    (hok : Answered t .ok) : ∃ bytes buf, sdu = some bytes ∧ EncapTook bytes ptype f buf s t := by
  obtain ⟨x, hrefused, hx⟩ | ⟨bytes, buf, u, rfl, htook, hencap⟩ := exec_encap_cases sdu ptype f s
  · cases hrefused.symm.trans hexec
    exact absurd (answered_respond_iff.mp hok) hx
  · cases htook.symm.trans hexec
    exact ⟨bytes, buf, rfl, hencap⟩

variable {sdu : Bytes} {buf : Mem}

theorem EncapTook.txCtx_eq (h : EncapTook sdu ptype f buf s t) :
    txCtx t.tx f =
      { filled s.params s.tx.cfg sdu ptype (txCtx s.tx f) buf with
        cnt := addCounters s.params.cntW (txCtx s.tx f).cnt (encapCounters sdu.length) } := by
  rw [h.state]
  exact txCtx_takeTx_same ..

theorem EncapTook.busy (h : EncapTook sdu ptype f buf s t) : busyBit t.tx.busy f = true := by
  rw [h.state]
  exact takeTx_busyBit ..

theorem EncapTook.sameBut (h : EncapTook sdu ptype f buf s t) : TxSameBut f s.tx t.tx := by
  rw [h.state]
  exact takeTx_sameBut ..

/-- Where header and SDU lie in the buffer after ENCAP (R221). -/
theorem EncapTook.head_toNat (h : EncapTook sdu ptype f buf s t) :
    (txCtx t.tx f).head.toNat = headOf s.params s.tx.cfg ptype := by
  rw [h.txCtx_eq]
  exact index_toNat (Nat.lt_of_le_of_lt (Nat.sub_le ..) (by decide))

theorem EncapTook.sduEnd_toNat (h : EncapTook sdu ptype f buf s t) :
    (txCtx t.tx f).sduEnd.toNat = alpduHdrMax + sdu.length := by
  rw [h.txCtx_eq]
  exact index_toNat (Nat.lt_of_le_of_lt (Nat.add_le_add_left h.size _) (by decide))

/-- The ALPDU a busy context holds, read from its buffer (R226, R230). -/
theorem EncapTook.memRead_alpdu (h : EncapTook sdu ptype f buf s t) :
    memRead fragBufLen (txCtx t.tx f).buf (txCtx t.tx f).head.toNat (alpduLen (txCtx t.tx f)) =
      .ok (encode (chooseHeader s.params s.tx.cfg ptype) ++ sdu) := by
  have hlen : alpduLen (txCtx t.tx f) = (encode (chooseHeader s.params s.tx.cfg ptype) ++ sdu).length := by
    rw [alpduLen, h.head_toNat, h.sduEnd_toNat, List.length_append, ← headOf_add_length s.params s.tx.cfg ptype,
      Nat.add_assoc, Nat.add_sub_cancel_left]
  rw [hlen, h.head_toNat, h.txCtx_eq]
  exact h.stored.stored

end

/-- Settles O16: the checks are tested in this order, and each answers at once. -/
theorem encapChecks : Obligations.EncapChecks := fun _ _ _ hconf =>
  ⟨answersOnly_of_exec (exec_encap_none hconf),
    fun _ hbig => answersOnly_of_exec (exec_encap_of_too_big hconf hbig),
    fun _ hsize => ⟨fun hinit => answersOnly_of_exec (exec_encap_of_uninitialised hconf hsize hinit),
      fun hinit hbusy => answersOnly_of_exec (exec_encap_of_busy hconf hsize hinit hbusy)⟩⟩

/-- Settles O18: the first ENCAP found the bit clear and set it, and the second passes the checks before that test. -/
theorem encapTestAndSet : Obligations.EncapTestAndSet := by
  intro s t sdu sdu' ptype ptype' f hsize hexec hok
  obtain ⟨_, buf, hsdu, htook⟩ := encapTook_of_answered hexec hok
  have hinit : (txCtx t.tx f).initialised = true := by rw [htook.txCtx_eq]; exact htook.initialised
  exact ⟨htook.free, answersOnly_of_exec
    (exec_encap_of_busy (htook.sameBut.configured.trans htook.configured) hsize hinit htook.busy)⟩

/-- Settles O19: no trailer is written yet, so the bytes up to the tail are the ALPDU. -/
theorem encapThenDump : Obligations.EncapThenDump := by
  intro s t sdu ptype f hexec hok
  obtain ⟨_, buf, hsdu, htook⟩ := encapTook_of_answered hexec hok
  cases hsdu
  have hnotrailer : (txCtx t.tx f).tail = (txCtx t.tx f).sduEnd := by rw [htook.txCtx_eq]; rfl
  refine onlyResponse_of_answer
    (exec_dumpAlpdu_of_read (htook.sameBut.configured.trans htook.configured) htook.busy ?_)
  rw [hnotrailer]
  exact htook.memRead_alpdu

/-! ### The later emissions (R248 to R252) -/

/-- Settles O23: it is the case `cont` of EMIT. -/
theorem emitContRule : Obligations.EmitContRule := by
  intro s f burst payload hready hfrag hburst hend hpos hcap hread
  obtain ⟨hrem, -, -⟩ := contLen_bounds (t := s.tx) (f := f) (burst := burst)
  exact ⟨_, exec_emit_of_case (.cont hready hfrag hburst hend hpos hcap payload hread), respond_response .., hrem,
    txCtx_setTxCtx_same .., rfl, rfl, setTxCtx_sameBut .., rxUntouched_replaceTx .., queueKept_replaceTx ..⟩

/-- Settles O24: it is the case `endPpdu` of EMIT, whose next state is a release counted as sent. -/
theorem emitEndRule : Obligations.EmitEndRule := by
  intro s f burst payload hready hfrag hburst hend hcap hread
  exact ⟨_, exec_emit_of_case (.endPpdu hready hfrag hburst hend hcap payload hread), respond_response ..,
    releasedTx_releaseTx ..⟩

/-- Settles O25: with the cap reached either later emission is the case `tooMuchFrag`, a release counted as dropped. -/
theorem emitTooMuchFrag : Obligations.EmitTooMuchFrag := by
  intro s f burst cap hready hfrag hburst hnext hmax hcap
  have hreached : fragCapReached s.params (txCtx s.tx f) = true := by
    rw [fragCapReached, hmax]
    exact decide_eq_true hcap
  exact ⟨_, exec_emit_of_case (.tooMuchFrag hready hfrag hburst hnext hreached), respond_response ..,
    releasedTx_releaseTx ..⟩

/-! ### Progress (R256) -/

theorem exec_emit_next {s t : State} {f : Fid} {burst : Nat} (h : exec (.emit f burst) s = .next t) :
    ∃ e, emit s.params s.tx f burst = .ok e ∧
      t = respond { status := e.status, bytes := e.ppdu } { s with tx := e.tx } := by
  cases hemit : emit s.params s.tx f burst with
  | ok e =>
    cases (exec_emit_of_emit hemit).symm.trans h
    exact ⟨e, rfl, rfl⟩
  | error e =>
    have hfault : exec (.emit f burst) s = .fault e := by
      rw [show exec (.emit f burst) s = execEmit f burst s from rfl, execEmit, hemit]
    cases hfault.symm.trans h

section
variable {p : Config.Params} {t : Tx} {f : Fid} {burst : Nat} {e : Emission}

/-- A START and a CONT leave the context busy, with the cursor further on. -/
theorem emit_ok_advances (hinv : TxInv t) (h : emit p t f burst = .ok e) (hok : e.status = .ok) :
    busyBit e.tx.busy f = true ∧ (txCtx t f).cursor.toNat < (txCtx e.tx f).cursor.toNat := by
  have hctx := hinv.ctx f
  cases emit_cases h with
  | nullTrmt | nInitBuf | timeout | firstTooSmall | laterTooSmall | tooMuchFrag | comp | endPpdu => cases hok
  | start hready hfrag hfits hb c hwrite payload hread =>
    rw [hready.busy] at hctx
    obtain ⟨hhead, -, hsdu, -, -⟩ := hctx.bounds
    obtain ⟨hcursor, -⟩ := hctx.notFragmented rfl hfrag
    obtain ⟨hpos, hshort, -, -⟩ := startLen_bounds hfits hb
    obtain ⟨buf, seq, hwrite', -⟩ := writeTrailer_inv (p := p) hctx hfrag
    cases hwrite'.symm.trans hwrite
    refine ⟨hready.busy, ?_⟩
    rw [txCtx_setTxCtx_same, hcursor]
    change _ < (index ((txCtx t f).head.toNat + startLen burst)).toNat
    rw [alpduLen] at hshort
    rw [index_toNat (by omega)]
    omega
  | cont hready hfrag hb hend hpos hcap payload hread =>
    rw [hready.busy] at hctx
    obtain ⟨-, -, hsdu, -, -⟩ := hctx.bounds
    obtain ⟨hrem, -, -⟩ := contLen_bounds (t := t) (f := f) (burst := burst)
    rw [remAlpdu] at hrem
    refine ⟨hready.busy, ?_⟩
    rw [txCtx_setTxCtx_same]
    change _ < (index ((txCtx t f).cursor.toNat + contLen t f burst)).toNat
    rw [index_toNat (by omega)]
    omega

/-- A burst that takes a START header with one byte, and an END header with the trailer, is never too small: where no
ALPDU byte is left, the trailer is all that remains. -/
theorem emit_status_ne_tooSmall (hinv : TxInv t) (h : emit p t f burst = .ok e) (hstart : 5 ≤ burst)
    (htrailer : 2 + trlLen (txCtx t f).useCrc ≤ burst) : e.status ≠ .errBurstTooSmall := by
  have hctx := hinv.ctx f
  cases emit_cases h with
  | nullTrmt | nInitBuf | timeout | tooMuchFrag | comp | start | endPpdu | cont => nofun
  | firstTooSmall hready hfrag hfits hb => omega
  | laterTooSmall hready hfrag hsmall =>
    obtain hb | ⟨hend, hzero⟩ := hsmall
    · omega
    · rw [hready.busy] at hctx
      obtain ⟨-, -, -, htail⟩ := hctx.fragmented hfrag
      obtain ⟨-, hlen⟩ := trlLen_le (txCtx t f).useCrc
      refine absurd ?_ hend
      simp only [contLen, endFits, remTotal, ppduLenMax] at hzero ⊢
      omega

end

/-- Settles O27: an advance as `emit_ok_advances` says, up to a tail the invariant bounds; and the last lemma. -/
theorem emitProgress : Obligations.EmitProgress := by
  intro s t f burst r hinv hexec hr
  obtain ⟨e, hemit, rfl⟩ := exec_emit_next hexec
  obtain rfl := Option.some.inj hr
  refine ⟨fun hok => ?_, emit_status_ne_tooSmall hinv hemit⟩
  obtain ⟨hbusy, hadvance⟩ := emit_ok_advances hinv hemit hok
  have hctx := (emit_inv hinv hemit).ctx f
  rw [hbusy] at hctx
  obtain ⟨-, -, -, htail, -⟩ := hctx.bounds
  exact ⟨hadvance, hctx.cursorLe, htail⟩

/-! ### The checks of PACK (R280) -/

section
variable {s : State} {size : Nat} {sched : List Fid} (hconf : s.tx.configured = true)
  (hlabel : implicitPayloadLabelSize s.tx.cfg ≠ 0)
include hconf hlabel

theorem exec_pack_of_no_label : exec (.pack size none sched) s = answerStatus .errNullBuf s :=
  (if_pos hconf).trans (if_neg hlabel)

theorem exec_pack_of_wrong_label {label : Bytes} (hlen : label.length ≠ implicitPayloadLabelSize s.tx.cfg) :
    exec (.pack size (some label) sched) s = answerStatus .err s :=
  (if_pos hconf).trans ((if_neg hlabel).trans (if_neg hlen))

theorem exec_pack_of_small {label : Bytes} (hlen : label.length = implicitPayloadLabelSize s.tx.cfg)
    (hsmall : size < implicitPayloadLabelSize s.tx.cfg) :
    exec (.pack size (some label) sched) s = answerStatus .errFrag s :=
  (if_pos hconf).trans ((if_neg hlabel).trans ((if_pos hlen).trans (if_pos hsmall)))

end

/-- Settles O28: the checks are tested in this order, and each answers at once. -/
theorem packChecks : Obligations.PackChecks := fun _ _ _ hconf hlabel =>
  ⟨answersOnly_of_exec (exec_pack_of_no_label hconf hlabel),
    fun _ hlen => answersOnly_of_exec (exec_pack_of_wrong_label hconf hlabel hlen),
    fun _ hlen hsmall => answersOnly_of_exec (exec_pack_of_small hconf hlabel hlen hsmall)⟩

end Sys2Proof.Machine
end

section
/-! The FPDU packer (spec/45 R280 to R285): PACK's bounded loops compute the runs of its two loops, whose rounds end
since every PPDU takes room, and an FPDU never outgrows its size. -/

namespace Sys2Proof.Machine

section
variable {p : Config.Params} {size : Nat} {f : Fid} {k k' : Packing}

/-! ### The room a PPDU takes (R240, R280) -/

/-- A unit with a payload has a header. -/
theorem encodeWith_length_pos {l : Config.PpduLayout} {i : Instr} {n : Nat} (h : payloadField i = some n) :
    0 < (encodeWith l i).length := by
  cases i with
  | comp | start | cont | endPpdu => exact Nat.succ_pos _
  | pad | ptOmit | ptComp | ptFallback | ptUncomp | trlSeq | trlCrc | txNew | txDestroy | encap | emit | pack
  | dumpAlpdu | txStat | rxNew | rxDestroy | decap | rxStat | hdrsz | reserved12 | reserved13 | reserved14
  | reserved15 => cases h

theorem emit_ppdu_length {t : Tx} {burst : Nat} {e : Emission} (h : emit p t f burst = .ok e)
    (hsent : e.status = .ok ∨ e.status = .okAndDone) : 0 < e.ppdu.length ∧ e.ppdu.length ≤ burst := by
  obtain ⟨-, hfits, i, payload, hppdu, hfield, -⟩ | ⟨hnot, -⟩ := emit_ppdu h
  · refine ⟨?_, hfits⟩
    rw [hppdu, List.length_append]
    exact Nat.add_pos_left (encodeWith_length_pos hfield) _
  · exact absurd hsent hnot

/-- Each PPDU drawn leaves less room. -/
theorem room_lt {e : Emission} (he : emit p k.tx f (size - k.out.length) = .ok e) (hs : e.status = .ok) :
    size - (k.out ++ e.ppdu).length < size - k.out.length := by
  obtain ⟨hpos, hfits⟩ := emit_ppdu_length he (.inl hs)
  rw [List.length_append]
  omega

/-! ### The loops and their runs (R280, R282) -/

/-- The inner loop with rounds left, once the EMIT of a busy context is known. -/
theorem drainCtx_succ {e : Emission} (rounds : Nat) (hb : busyBit k.tx.busy f = true)
    (he : emit p k.tx f (size - k.out.length) = .ok e) :
    drainCtx p size f (rounds + 1) k =
      if e.status = .ok then drainCtx p size f rounds { k with tx := e.tx, out := k.out ++ e.ppdu }
      else if e.status = .okAndDone then .ok { k with tx := e.tx, out := k.out ++ e.ppdu }
      else if e.status = .errBurstTooSmall then .ok { k with tx := e.tx }
      else .ok { k with tx := e.tx, failed := true } := by
  obtain ⟨t, ppdu, status⟩ := e
  rw [drainCtx, if_pos hb, he]
  cases status <;> rfl

theorem drawRun_of_drainCtx {rounds : Nat} (hroom : size - k.out.length < rounds)
    (h : drainCtx p size f rounds k = .ok k') : DrawRun p size f k k' := by
  induction rounds generalizing k with
  | zero => exact absurd hroom (Nat.not_lt_zero _)
  | succ rounds ih =>
    by_cases hb : busyBit k.tx.busy f = true
    · cases he : emit p k.tx f (size - k.out.length) with
      | error e => rw [drainCtx, if_pos hb, he] at h; cases h
      | ok e =>
        rw [drainCtx_succ rounds hb he] at h
        split_ifs at h with hok hdone hfull
        · exact .again hb he hok (ih (Nat.lt_of_lt_of_le (room_lt he hok) (Nat.le_of_lt_succ hroom)) h)
        · cases h; exact .finished hb he hdone
        · cases h; exact .full hb he hfull
        · cases h; exact .failed hb he ⟨hok, hdone, hfull⟩
    · rw [drainCtx, if_neg hb] at h
      cases h
      exact .notBusy (Bool.eq_false_iff.mpr hb)

theorem drainCtx_of_drawRun (h : DrawRun p size f k k') {rounds : Nat} (hroom : size - k.out.length < rounds) :
    drainCtx p size f rounds k = .ok k' := by
  induction h generalizing rounds with
  | notBusy hb =>
    cases rounds with
    | zero => exact absurd hroom (Nat.not_lt_zero _)
    | succ rounds => exact if_neg (Bool.eq_false_iff.mp hb)
  | again hb he hs _ ih =>
    cases rounds with
    | zero => exact absurd hroom (Nat.not_lt_zero _)
    | succ rounds =>
      rw [drainCtx_succ rounds hb he, if_pos hs]
      exact ih (Nat.lt_of_lt_of_le (room_lt he hs) (Nat.le_of_lt_succ hroom))
  | finished hb he hs | full hb he hs =>
    cases rounds with
    | zero => exact absurd hroom (Nat.not_lt_zero _)
    | succ rounds => rw [drainCtx_succ rounds hb he, hs]; rfl
  | failed hb he hs =>
    cases rounds with
    | zero => exact absurd hroom (Nat.not_lt_zero _)
    | succ rounds =>
      obtain ⟨hok, hdone, hfull⟩ := hs
      rw [drainCtx_succ rounds hb he, if_neg hok, if_neg hdone, if_neg hfull]

/-- The rounds PACK allows its inner loop are more than it can use. -/
theorem drainCtx_iff_drawRun : drainCtx p size f (size + 1) k = .ok k' ↔ DrawRun p size f k k' :=
  have hroom : size - k.out.length < size + 1 := Nat.lt_succ_of_le (Nat.sub_le ..)
  ⟨drawRun_of_drainCtx hroom, fun h => drainCtx_of_drawRun h hroom⟩

theorem packRun_of_serveSched {sched : List Fid} (h : serveSched p size sched k = .ok k') :
    PackRun p size sched k k' := by
  induction sched generalizing k with
  | nil => cases h; exact .done
  | cons f fs ih =>
    rw [serveSched] at h
    split at h
    · cases h
    · next k1 hdrain =>
      have hdraw := drainCtx_iff_drawRun.mp hdrain
      split_ifs at h with hfailed
      · cases h; exact .failed hdraw hfailed
      · exact .next hdraw (Bool.eq_false_iff.mpr hfailed) (ih h)

theorem serveSched_of_packRun {sched : List Fid} (h : PackRun p size sched k k') :
    serveSched p size sched k = .ok k' := by
  induction h with
  | done => rfl
  | failed hd hf =>
    rw [serveSched, drainCtx_iff_drawRun.mpr hd]
    exact if_pos hf
  | next hd hf _ ih =>
    rw [serveSched, drainCtx_iff_drawRun.mpr hd]
    exact (if_neg (Bool.eq_false_iff.mp hf)).trans ih

/-! ### What the loops keep (R283 to R285) -/

/-- The FPDU under construction begins with its label, has room for no more than its size, and its unit is in order. -/
structure PackingOk (start : Bytes) (size : Nat) (k : Packing) : Prop where
  tx : TxInv k.tx
  label : start <+: k.out
  fits : k.out.length ≤ size

theorem serveSched_packingOk {start : Bytes} {sched : List Fid} (h : PackingOk start size k)
    (hk : serveSched p size sched k = .ok k') : PackingOk start size k' := by
  refine serveSched_induction (PackingOk start size) (fun f k e ⟨htx, hlabel, hfits⟩ hb he => ?_) sched h hk
  have htx' := emit_inv htx he
  have hsent (hs : e.status = .ok ∨ e.status = .okAndDone) :
      PackingOk start size { k with tx := e.tx, out := k.out ++ e.ppdu } := by
    obtain ⟨-, hlen⟩ := emit_ppdu_length he hs
    exact ⟨htx', hlabel.trans (List.prefix_append ..), by rw [List.length_append]; omega⟩
  split
  · next hs => exact hsent (.inl hs)
  · next hs => exact hsent (.inr hs)
  · exact ⟨htx', hlabel, hfits⟩
  · exact ⟨htx', hlabel, hfits⟩

/-- With no cap on the fragments an EMIT of a busy context emits or finds the burst too small. -/
theorem emit_status_of_busy {t : Tx} {burst : Nat} {e : Emission} (hinv : TxInv t) (hcap : p.maxFrags = none)
    (hb : busyBit t.busy f = true) (h : emit p t f burst = .ok e) :
    e.status = .ok ∨ e.status = .okAndDone ∨ e.status = .errBurstTooSmall := by
  cases emit_cases h with
  | nullTrmt hconf => rw [hinv.freeUnconfigured hconf, busyBit_zero] at hb; cases hb
  | nInitBuf hconf hinit => rw [hinv.initialisedIs, hconf] at hinit; cases hinit
  | timeout _ _ hfree => cases hb.symm.trans hfree
  | tooMuchFrag _ _ _ _ hm => rw [fragCapReached, hcap] at hm; cases hm
  | start | cont => exact .inl rfl
  | comp | endPpdu => exact .inr (.inl rfl)
  | firstTooSmall | laterTooSmall => exact .inr (.inr rfl)

/-- R285: without MAX_FRAGS no EMIT of PACK fails. -/
theorem serveSched_not_failed {sched : List Fid} (hinv : TxInv k.tx) (hcap : p.maxFrags = none)
    (hnot : k.failed = false) (hk : serveSched p size sched k = .ok k') : k'.failed = false := by
  have hkept := serveSched_induction (fun k => TxInv k.tx ∧ k.failed = false)
    (fun f k e ⟨htx, hnot⟩ hb he => ?_) sched ⟨hinv, hnot⟩ hk
  · exact hkept.2
  · have htx' := emit_inv htx he
    split
    · exact ⟨htx', hnot⟩
    · exact ⟨htx', hnot⟩
    · exact ⟨htx', hnot⟩
    · next hok hdone hsmall =>
      exact absurd (emit_status_of_busy htx hcap hb he) (not_or.mpr ⟨hok, not_or.mpr ⟨hdone, hsmall⟩⟩)

end

/-! ### PACK past its checks (R280, R281) -/

theorem exec_pack_of_label {s : State} {size : Nat} {label : Option Bytes} {start : Bytes} (sched : List Fid)
    (hconf : s.tx.configured = true)
    (hlabel : implicitPayloadLabelSize s.tx.cfg = 0 ∧ start = [] ∨
      implicitPayloadLabelSize s.tx.cfg ≠ 0 ∧ label = some start ∧
        start.length = implicitPayloadLabelSize s.tx.cfg ∧ start.length ≤ size) :
    exec (.pack size label sched) s = packFrom size start sched s := by
  obtain ⟨hnone, rfl⟩ | ⟨hsome, rfl, hlen, hfits⟩ := hlabel
  · exact (if_pos hconf).trans (if_pos hnone)
  · exact (if_pos hconf).trans ((if_neg hsome).trans ((if_pos hlen).trans (if_neg (by omega))))

/-- Settles O29: the loops' outcome `k` is the end of their run; its unit, its bytes and its failure are as the loops
keep them. -/
theorem packRunsItsLoops : Obligations.PackRunsItsLoops := by
  intro s size label start sched hinv hconf hlabel
  obtain ⟨k, hserve⟩ := serveSched_total (p := s.params) (size := size) sched
    (k := { tx := s.tx, out := start, failed := false }) hinv
  have hfits : start.length ≤ size := by
    obtain ⟨-, rfl⟩ | ⟨-, -, -, hle⟩ := hlabel
    · exact Nat.zero_le _
    · exact hle
  obtain ⟨-, hprefix, hsize⟩ := serveSched_packingOk ⟨hinv, List.prefix_refl start, hfits⟩ hserve
  have hexec : exec (.pack size label sched) s = .next (respond (packResponse size k) { s with tx := k.tx }) := by
    rw [exec_pack_of_label sched hconf hlabel, packFrom, hserve]
    rfl
  have hunique (k' : Packing)
      (hrun : PackRun s.params size sched { tx := s.tx, out := start, failed := false } k') : k' = k :=
    Except.ok.inj ((serveSched_of_packRun hrun).symm.trans hserve)
  exact ⟨_, k, packRun_of_serveSched hserve, hunique, fun hcap => serveSched_not_failed hinv hcap rfl hserve, hexec,
    rfl, rxUntouched_replaceTx .., queueKept_replaceTx .., hprefix, hsize, respond_response ..⟩

end Sys2Proof.Machine
end

section
/-! The wire units as a DECAP executes them (spec/46, spec/47): where each is in its place, one equation for each of its
outcomes, and the rules for the outcomes that keep the PPDU (R325, R326, R330, R331) or deliver the ALPDU (R350). -/

namespace Sys2Proof.Machine

/-! ### Out of place (spec/30 R100) -/

section
variable {s : State} {i : Instr}

theorem exec_ppdu_of_not_header (hsite : siteOf i = .ppdu) (hphase : s.scan.phase ≠ .header) :
    exec i s = .refused .unitOutOfPlace := by
  cases i with
  | pad | comp | start | cont | endPpdu =>
    simp only [exec, execPad, execComp, execStart, execCont, execEndPpdu]
    split
    · contradiction
    all_goals rfl
  | ptOmit | ptComp | ptFallback | ptUncomp | trlSeq | trlCrc | txNew | txDestroy | encap | emit | pack | dumpAlpdu
  | txStat | rxNew | rxDestroy | decap | rxStat | hdrsz | reserved12 | reserved13 | reserved14 | reserved15 =>
    cases hsite

theorem exec_trailer_of_not_trailer {b : Bool} (hsite : siteOf i = .trailer b)
    (hphase : ∀ f a t l p, s.scan.phase ≠ .trailer f a t l p) : exec i s = .refused .unitOutOfPlace := by
  cases i with
  | trlSeq | trlCrc =>
    simp only [exec, execTrlSeq, execTrlCrc]
    split
    · next hp => exact (hphase _ _ _ _ _ hp).elim
    all_goals rfl
  | pad | comp | start | cont | endPpdu | ptOmit | ptComp | ptFallback | ptUncomp | txNew | txDestroy | encap | emit
  | pack | dumpAlpdu | txStat | rxNew | rxDestroy | decap | rxStat | hdrsz | reserved12 | reserved13 | reserved14
  | reserved15 => cases hsite

theorem exec_alpduHdr_of_not_alpdu {a b : Bool} (hsite : siteOf i = .alpduHdr a b)
    (hphase : ∀ f a lt pts l p, s.scan.phase ≠ .alpdu f a lt pts l p) : exec i s = .refused .unitOutOfPlace := by
  cases i with
  | ptOmit | ptComp | ptFallback | ptUncomp =>
    simp only [exec, execPtOmit, execPtComp, execPtFallback, execPtUncomp]
    split
    · next hp => exact (hphase _ _ _ _ _ _ hp).elim
    all_goals rfl
  | pad | comp | start | cont | endPpdu | trlSeq | trlCrc | txNew | txDestroy | encap | emit | pack | dumpAlpdu
  | txStat | rxNew | rxDestroy | decap | rxStat | hdrsz | reserved12 | reserved13 | reserved14 | reserved15 =>
    cases hsite

end

/-- Settles O44: each unit tests the phase first; one lemma for each kind of unit. -/
theorem unitOutOfPlaceRefused : Obligations.UnitOutOfPlaceRefused := by
  rintro s i (⟨hsite, hphase⟩ | ⟨⟨b, hsite⟩, hphase⟩ | ⟨⟨a, b, hsite⟩, hphase⟩)
  · exact exec_ppdu_of_not_header hsite hphase
  · exact exec_trailer_of_not_trailer hsite hphase
  · exact exec_alpduHdr_of_not_alpdu hsite hphase

/-! ### PAD and COMP (R302, R325) -/

theorem legalLt_iff (lt : LabelType) : LegalLt lt ↔ isReservedLt lt = false := by
  unfold LegalLt
  revert lt
  decide

theorem not_legalLt_iff (lt : LabelType) : ¬ LegalLt lt ↔ isReservedLt lt = true := by
  rw [legalLt_iff, Bool.not_eq_false]

section
variable {s : State} {lt : LabelType} {len : BitVec 11} {payload : Bytes}

theorem exec_pad_of_header (hheader : s.scan.phase = .header) : exec .pad s = .next (finishScan s) := by
  rw [show exec .pad s = execPad s from rfl, execPad, hheader]

theorem exec_comp_of_legal (hheader : s.scan.phase = .header) (hpayload : PayloadIs s 2 len.toNat payload)
    (hlt : isReservedLt lt = false) (pts : Bool) :
    exec (.comp lt pts len) s =
      .next (setPhase (.alpdu none payload lt pts len.toNat 0) (arrive none true 2 len.toNat s)) := by
  rw [show exec (.comp lt pts len) s = execComp lt pts len s from rfl, execComp, hheader]
  simp only [payloadAt_of_payloadIs hpayload, hlt, Bool.false_eq_true, ↓reduceIte]

theorem exec_comp_of_reserved (hheader : s.scan.phase = .header) (hpayload : PayloadIs s 2 len.toNat payload)
    (hlt : isReservedLt lt = true) (pts : Bool) :
    exec (.comp lt pts len) s = .next (takeDrop none .reservedLt len.toNat 0 (arrive none true 2 len.toNat s)) := by
  rw [show exec (.comp lt pts len) s = execComp lt pts len s from rfl, execComp, hheader]
  simp only [payloadAt_of_payloadIs hpayload, hlt, ↓reduceIte]

end

/-- Settles O32: what `finishScan` leaves and answers. -/
theorem padRule : Obligations.PadRule := fun s hheader =>
  ⟨_, exec_pad_of_header hheader, finishScan_tx s, finishScan_rx s, finishScan_params s, finishScan_scan s,
    ⟨rfl, rfl, rfl⟩, finishScan_response s⟩

/-- A unit with no fragment-id counts on the aggregate alone, and releases no context. -/
theorem rxReleased_countRx_none (w : Nat) (r : Rx) (d : Counters) : RxReleased w none d r (countRx w r none d) where
  configured := rfl
  cfg := rfl
  agg := rfl
  ctx _ := rfl
  busy _ := (Bool.and_true _).symm

/-- The drop of an ALPDU that came in a COMP (R340). -/
theorem takeDrop_none_droppedBy (reason : DropReason) (len prior : Nat) (s : State) :
    DroppedBy none reason { pktsDropped := 1, bytesDropped := len } s.rx.off s
      (setPhase .header (takeDrop none reason len prior s)) where
  only := ⟨rfl, rfl, rfl⟩
  rx := by
    have hupdate : dropCounters 0 len 0 = { pktsDropped := 1, bytesDropped := len } := by
      rw [dropCounters, Nat.zero_add]
    rw [setPhase_rx, takeDrop_none_rx, hupdate]
    exact rxReleased_countRx_none ..
  off := rfl
  scan := rfl

/-- Settles O33: a COMP arrives on the aggregate alone; dropped, arrival and drop are one update. -/
theorem compRule : Obligations.CompRule := by
  intro s lt pts len payload hheader hpayload
  refine ⟨fun hlegal => ⟨_, exec_comp_of_legal hheader hpayload ((legalLt_iff lt).mp hlegal) pts, ⟨rfl, rfl, rfl⟩,
      ⟨rfl, rfl, rfl, rfl⟩, rfl, rfl, rfl⟩,
    fun hreserved => ⟨_, exec_comp_of_reserved hheader hpayload ((not_legalLt_iff lt).mp hreserved) pts,
      ⟨rfl, rfl, rfl⟩, ?_, rfl, ?_⟩⟩
  · have hagg := addCounters_arrival_drop (w := s.params.cntW) s.rx.agg true 0 len.toNat 0
    rw [arrivedDropCounters, Nat.zero_add] at hagg
    exact ⟨rfl, rfl, hagg, fun _ => rfl, fun _ => (Bool.and_true _).symm⟩
  · rw [takeDrop_scan, arrive_scan, ← hheader]

/-! ### START (R326, R329) -/

section
variable {s : State} {lt : LabelType} {pts crc : Bool} {len : BitVec 11} {f : Fid} {total : Index} {payload : Bytes}
  (hheader : s.scan.phase = .header)
include hheader

section
variable (hpayload : PayloadIs s 4 len.toNat payload)
include hpayload

theorem exec_start_of_busy (hbusy : busyBit s.rx.busy f = true) :
    exec (.start lt pts len f total crc) s =
      .next (takeDrop (some f) .contextNotFree len.toNat (rxCtx s.rx f).bytesReceived.toNat
        (arrive (some f) true 4 len.toNat s)) := by
  rw [show exec (.start lt pts len f total crc) s = execStart lt pts len f total crc s from rfl, execStart, hheader]
  simp only [payloadAt_of_payloadIs hpayload, priorBytes_of_busy hbusy, arrive_busy, hbusy, ↓reduceIte]

variable (hfree : busyBit s.rx.busy f = false)
include hfree

theorem exec_start_of_reserved (hlt : isReservedLt lt = true) :
    exec (.start lt pts len f total crc) s =
      .next (takeDrop (some f) .reservedLt len.toNat 0 (arrive (some f) true 4 len.toNat s)) := by
  rw [show exec (.start lt pts len f total crc) s = execStart lt pts len f total crc s from rfl, execStart, hheader]
  simp only [payloadAt_of_payloadIs hpayload, priorBytes_of_free hfree, arrive_busy, hfree, hlt, Bool.false_eq_true,
    ↓reduceIte]

theorem exec_start_of_exceeded (hlt : isReservedLt lt = false) (htotal : total.toNat < len.toNat) :
    exec (.start lt pts len f total crc) s =
      .next (takeDrop (some f) .totalExceeded len.toNat 0 (arrive (some f) true 4 len.toNat s)) := by
  rw [show exec (.start lt pts len f total crc) s = execStart lt pts len f total crc s from rfl, execStart, hheader]
  simp only [payloadAt_of_payloadIs hpayload, priorBytes_of_free hfree, arrive_busy, hfree, hlt, Bool.false_eq_true,
    htotal, ↓reduceIte]

theorem exec_start_of_accepted (hlt : isReservedLt lt = false) (htotal : len.toNat ≤ total.toNat) :
    exec (.start lt pts len f total crc) s =
      acceptStart lt pts payload f total crc (arrive (some f) true 4 len.toNat s) := by
  rw [show exec (.start lt pts len f total crc) s = execStart lt pts len f total crc s from rfl, execStart, hheader]
  simp only [payloadAt_of_payloadIs hpayload, arrive_busy, hfree, hlt, Bool.false_eq_true,
    Nat.not_lt.mpr htotal, ↓reduceIte]

end

/-- R329: a START that is dropped on a FREE context loses nothing: the context held nothing. -/
theorem freeStart_droppedBy (hfree : busyBit s.rx.busy f = false) {reason : DropReason}
    (hreason : alwaysLosesOne reason = false) (n : Nat) :
    DroppedBy (some f) reason { pktsIn := 1, bytesIn := n, pktsDropped := 1, bytesDropped := n } (s.rx.off + 4 + n) s
      (takeDrop (some f) reason n 0 (arrive (some f) true 4 n s)) := by
  have hdrop := takeDrop_arrive_droppedBy hheader f reason true 4 n 0
  have hlost : lostOnDrop s.rx f reason 0 = 0 := by simp [lostOnDrop, hreason, hfree]
  rwa [hlost, arrivedDropCounters, Nat.zero_add] at hdrop

end

/-- Settles O35: the three drops in the order of their tests; a busy context always loses one. -/
theorem startDropped : Obligations.StartDropped := by
  intro s lt pts len f total crc payload hheader hpayload
  refine ⟨fun hbusy => ⟨_, exec_start_of_busy hheader hpayload hbusy,
      takeDrop_arrive_droppedBy hheader f .contextNotFree true 4 len.toNat _⟩,
    fun hfree hlt => ⟨_, exec_start_of_reserved hheader hpayload hfree ((not_legalLt_iff lt).mp hlt),
      freeStart_droppedBy hheader hfree rfl _⟩,
    fun hfree hlt htotal => ⟨_, exec_start_of_exceeded hheader hpayload hfree ((legalLt_iff lt).mp hlt) htotal,
      freeStart_droppedBy hheader hfree rfl _⟩⟩

/-- The state after a START that is taken, its fragment already written to `buf`. -/
def startTaken (lt : LabelType) (pts : Bool) (n : Nat) (f : Fid) (total : Index) (crc : Bool) (buf : Mem) (s : State) :
    State :=
  logEvent (.frag f)
    { s with
      rx := { setRxCtx s.rx f (startedCtx (rxCtx s.rx f) buf lt pts n total crc) with busy := setBusy s.rx.busy f } }

/-- A START always finds room: its fragment is no longer than the buffer. -/
theorem acceptStart_next (lt : LabelType) (pts : Bool) {payload : Bytes} (hlen : payload.length < 2048) (f : Fid)
    (total : Index) (crc : Bool) (s : State) :
    ∃ buf, memWrite s.params.rasmBufLen (rxCtx s.rx f).buf 0 payload = .ok buf ∧
      acceptStart lt pts payload f total crc s = .next (startTaken lt pts payload.length f total crc buf s) := by
  have hsize := s.params.rasmBufLen.property
  obtain ⟨buf, hwrite⟩ := memWrite_ok_of_le (size := s.params.rasmBufLen) (m := (rxCtx s.rx f).buf) (off := 0)
    (bytes := payload) (by omega)
  exact ⟨buf, hwrite, by rw [acceptStart, hwrite]; rfl⟩

section
variable (lt : LabelType) (pts : Bool) (n : Nat) (f : Fid) (total : Index) (crc : Bool) (buf : Mem) (s : State)

theorem rxCtx_startTaken_same : rxCtx (startTaken lt pts n f total crc buf s).rx f =
    startedCtx (rxCtx s.rx f) buf lt pts n total crc := rxCtx_setRxCtx_same ..

theorem startTaken_sameBut : RxSameBut f s.rx (startTaken lt pts n f total crc buf s).rx :=
  ⟨rfl, rfl, fun _ hg => busyBit_setBusy_ne _ hg, fun _ hg => rxCtx_setRxCtx_ne s.rx _ hg⟩

end

theorem payloadIs_length {s : State} {hl n : Nat} {payload : Bytes} (h : PayloadIs s hl n payload) :
    payload.length = n := by
  obtain ⟨hfits, rfl⟩ := h
  rw [List.length_take, List.length_drop]
  omega

theorem arrive_sameBut (f : Fid) (b : Bool) (hl n : Nat) (s : State) :
    RxSameBut f s.rx (arrive (some f) b hl n s).rx :=
  ⟨arrive_configured .., arrive_cfg .., fun _ _ => by rw [arrive_busy], fun _ hg => arrive_ctx_ne hg ..⟩

theorem arrive_buf (f : Fid) (b : Bool) (hl n : Nat) (s : State) :
    (rxCtx (arrive (some f) b hl n s).rx f).buf = (rxCtx s.rx f).buf := by rw [arrive_ctx_same]

/-- Settles O34: the START arrives and is taken; both are seen in its context and in no other. -/
theorem startAccepted : Obligations.StartAccepted := by
  intro s lt pts len f total crc payload hheader hpayload hfree hlegal htotal
  have hlen := payloadIs_length hpayload
  obtain ⟨buf, hwrite, htaken⟩ := acceptStart_next lt pts (hlen ▸ len.isLt) f total crc
    (arrive (some f) true 4 len.toNat s)
  rw [arrive_buf] at hwrite
  refine ⟨_, buf, (exec_start_of_accepted hheader hpayload hfree ((legalLt_iff lt).mp hlegal) htotal).trans htaken,
    ⟨rfl, rfl, rfl⟩, ?_, stored_of_memWrite hwrite, busyBit_setBusy_same .., rfl,
    (arrive_sameBut ..).trans (startTaken_sameBut ..), rfl, rfl⟩
  rw [rxCtx_startTaken_same, arrive_ctx_same, hlen]
  rfl

/-! ### CONT (R330) -/

section
variable {s : State} {len : BitVec 11} {f : Fid} {payload : Bytes} (hheader : s.scan.phase = .header)
  (hpayload : PayloadIs s 2 len.toNat payload) (hbusy : busyBit s.rx.busy f = true)
include hheader hpayload hbusy

theorem exec_cont_of_exceeded
    (htotal : (rxCtx s.rx f).totalLen.toNat < (rxCtx s.rx f).bytesReceived.toNat + len.toNat) :
    exec (.cont len f) s =
      .next (takeDrop (some f) .totalExceeded len.toNat (rxCtx s.rx f).bytesReceived.toNat
        (arrive (some f) false 2 len.toNat s)) := by
  rw [show exec (.cont len f) s = execCont len f s from rfl, execCont, hheader]
  simp [payloadAt_of_payloadIs hpayload, priorBytes_of_busy hbusy, hbusy, arrive_ctx_same, htotal]

theorem exec_cont_of_accepted
    (htotal : (rxCtx s.rx f).bytesReceived.toNat + len.toNat ≤ (rxCtx s.rx f).totalLen.toNat) :
    exec (.cont len f) s = acceptCont payload f (arrive (some f) false 2 len.toNat s) := by
  rw [show exec (.cont len f) s = execCont len f s from rfl, execCont, hheader]
  simp [payloadAt_of_payloadIs hpayload, hbusy, arrive_ctx_same, Nat.not_lt.mpr htotal]

theorem exec_endPpdu_of_accepted (htrailer : trlLen (rxCtx s.rx f).useCrc ≤ len.toNat)
    (hsum : (rxCtx s.rx f).bytesReceived.toNat + (len.toNat - trlLen (rxCtx s.rx f).useCrc) =
      (rxCtx s.rx f).totalLen.toNat) :
    exec (.endPpdu len f) s =
      acceptEnd payload f (rxCtx s.rx f).bytesReceived.toNat (arrive (some f) false 2 len.toNat s) := by
  rw [show exec (.endPpdu len f) s = execEndPpdu len f s from rfl, execEndPpdu, hheader]
  simp [payloadAt_of_payloadIs hpayload, priorBytes_of_busy hbusy, hbusy, arrive_ctx_same, htrailer, hsum]

end

/-- The receiver after `n` bytes have been appended to context `f`, already written to `buf`. -/
def appendRx (r : Rx) (f : Fid) (buf : Mem) (n : Nat) : Rx := setRxCtx r f (appendedCtx (rxCtx r f) buf n)

/-- Bytes within the declared length always find room. -/
theorem append_memWrite_ok {size : Nat} (hsize : 4095 ≤ size) {c : RxCtx} {bytes : Bytes}
    (h : c.bytesReceived.toNat + bytes.length ≤ c.totalLen.toNat) :
    ∃ buf, memWrite size c.buf c.bytesReceived.toNat bytes = .ok buf :=
  memWrite_ok_of_le (by have := c.totalLen.isLt; omega)

theorem acceptCont_next {payload : Bytes} {f : Fid} {s : State} {buf : Mem}
    (hwrite : memWrite s.params.rasmBufLen (rxCtx s.rx f).buf (rxCtx s.rx f).bytesReceived.toNat payload = .ok buf) :
    acceptCont payload f s =
      .next (logEvent (.frag f) { s with rx := appendRx s.rx f buf payload.length }) := by
  rw [acceptCont, hwrite]
  rfl

/-- Settles O36: within the declared length the CONT arrives and is appended; beyond it the drop loses the remainder. -/
theorem contRule : Obligations.ContRule := by
  rintro s len f payload c hheader hpayload hbusy rfl
  refine ⟨fun htotal => ?_, fun htotal => ⟨_, exec_cont_of_exceeded hheader hpayload hbusy htotal,
    remainderDrop_droppedBy hheader hbusy rfl ..⟩⟩
  have hlen := payloadIs_length hpayload
  obtain ⟨buf, hwrite⟩ := append_memWrite_ok s.params.rasmBufLen.property (bytes := payload) (hlen.symm ▸ htotal)
  have htaken := acceptCont_next (s := arrive (some f) false 2 len.toNat s) (f := f) (payload := payload) (buf := buf)
    (by rw [arrive_ctx_same]; exact hwrite)
  refine ⟨_, buf, (exec_cont_of_accepted hheader hpayload hbusy htotal).trans htaken, ⟨rfl, rfl, rfl⟩, ?_,
    stored_of_memWrite hwrite, rfl, rfl, (arrive_sameBut ..).trans (setRxCtx_sameBut ..), rfl, rfl⟩
  rw [logEvent_rx, appendRx, rxCtx_setRxCtx_same, arrive_ctx_same, hlen]
  rfl

/-! ### END (R331, R333) -/

/-- The bytes held and those appended behind them are the whole ALPDU. -/
theorem memRead_appended {size off : Nat} {m m' : Mem} {held body : Bytes} (hheld : memRead size m 0 off = .ok held)
    (hwrite : memWrite size m off body = .ok m') : memRead size m' 0 (off + body.length) = .ok (held ++ body) := by
  have hbefore : memRead size m' 0 off = .ok held := by
    rw [memRead_memWrite_disjoint hwrite (.inl (by omega)), hheld]
  refine memRead_append hbefore ?_
  rw [Nat.zero_add]
  exact memRead_memWrite_same hwrite

/-- The state of an END whose ALPDU is complete, its trailer cut off. -/
def endTaken (f : Fid) (buf : Mem) (alpdu payload : Bytes) (prior : Nat) (s : State) : State :=
  setPhase
    (.trailer f alpdu (payload.drop (payload.length - trlLen (rxCtx s.rx f).useCrc)) payload.length prior)
    { s with rx := appendRx s.rx f buf (payload.length - trlLen (rxCtx s.rx f).useCrc) }

theorem acceptEnd_next {payload alpdu : Bytes} {f : Fid} {s : State} {buf : Mem} (prior : Nat)
    (hwrite : memWrite s.params.rasmBufLen (rxCtx s.rx f).buf (rxCtx s.rx f).bytesReceived.toNat
      (payload.take (payload.length - trlLen (rxCtx s.rx f).useCrc)) = .ok buf)
    (hread : memRead s.params.rasmBufLen buf 0 (rxCtx s.rx f).totalLen.toNat = .ok alpdu) :
    acceptEnd payload f prior s = .next (endTaken f buf alpdu payload prior s) := by
  rw [acceptEnd, hwrite]
  dsimp only
  rw [hread]
  rfl

/-- Settles O38: the END arrives and its ALPDU bytes are appended, which fills the declared length. -/
theorem endAccepted : Obligations.EndAccepted := by
  rintro s len f payload held body c hheader hpayload hbusy rfl htrailer hsum hheld rfl
  have hlen := payloadIs_length hpayload
  have hbody : (payload.take (len.toNat - trlLen (rxCtx s.rx f).useCrc)).length =
      len.toNat - trlLen (rxCtx s.rx f).useCrc := by
    rw [List.length_take, hlen, Nat.min_eq_left (Nat.sub_le ..)]
  obtain ⟨buf, hwrite⟩ := append_memWrite_ok s.params.rasmBufLen.property
    (bytes := payload.take (len.toNat - trlLen (rxCtx s.rx f).useCrc)) (by rw [hbody]; exact hsum.le)
  have hread := memRead_appended hheld hwrite
  rw [hbody, hsum] at hread
  have htaken := acceptEnd_next (s := arrive (some f) false 2 len.toNat s) (f := f) (payload := payload) (buf := buf)
    (rxCtx s.rx f).bytesReceived.toNat (by rw [arrive_ctx_same, hlen]; exact hwrite)
    (by rw [arrive_ctx_same]; exact hread)
  refine ⟨_, buf, (exec_endPpdu_of_accepted hheader hpayload hbusy htrailer hsum).trans htaken, ⟨rfl, rfl, rfl⟩, ?_,
    stored_of_memWrite hwrite, rfl, rfl, (arrive_sameBut ..).trans (setRxCtx_sameBut ..), rfl, ?_⟩
  · have hfull : index ((rxCtx s.rx f).bytesReceived.toNat + (len.toNat - trlLen (rxCtx s.rx f).useCrc)) =
        (rxCtx s.rx f).totalLen := by
      rw [hsum, index, BitVec.ofNat_toNat, BitVec.setWidth_eq]
    rw [endTaken, setPhase_rx, appendRx, rxCtx_setRxCtx_same, arrive_ctx_same, appendedCtx, hlen, hfull, hbody]
    rfl
  · rw [endTaken, arrive_ctx_same, hlen]
    rfl

/-! ### Delivery (R350, R351) -/

section
variable {s : State} {f : Option Fid} {alpdu : Bytes} {lt : LabelType} {pts : Bool} {len prior : Nat}

/-- The four forms differ in what they make of the ALPDU alone. -/
theorem exec_of_formExpands {i : Instr} {r : Expanded} (hphase : s.scan.phase = .alpdu f alpdu lt pts len prior)
    (hform : formExpands s lt alpdu i = some r) : exec i s = .next (deliver f r len prior s) := by
  cases i with
  | ptOmit =>
    cases hform
    rw [show exec .ptOmit s = execPtOmit s from rfl, execPtOmit, hphase]
    rfl
  | ptComp code =>
    cases hform
    rw [show exec (.ptComp code) s = execPtComp code s from rfl, execPtComp, hphase]
  | ptFallback ptype =>
    cases hform
    rw [show exec (.ptFallback ptype) s = execPtFallback ptype s from rfl, execPtFallback, hphase]
  | ptUncomp ptype =>
    cases hform
    rw [show exec (.ptUncomp ptype) s = execPtUncomp ptype s from rfl, execPtUncomp, hphase]
  | pad | comp | start | cont | endPpdu | trlSeq | trlCrc | txNew | txDestroy | encap | emit | pack | dumpAlpdu
  | txStat | rxNew | rxDestroy | decap | rxStat | hdrsz | reserved12 | reserved13 | reserved14 | reserved15 =>
    cases hform

theorem deliver_of_error (f : Option Fid) (reason : DropReason) (len prior : Nat) (s : State) :
    deliver f (.error reason) len prior s = setPhase .header (takeDrop f reason len prior s) := rfl

theorem deliver_of_too_big {sdu : Bytes} (hsize : sduMax < sdu.length) (f : Option Fid) (ptype : Ptype)
    (len prior : Nat) (s : State) :
    deliver f (.ok (ptype, sdu)) len prior s = setPhase .header (takeDrop f .sduTooBigRx len prior s) :=
  congrArg (setPhase .header) (if_pos hsize)

theorem deliver_of_fits {sdu : Bytes} (hsize : sdu.length ≤ sduMax) (f : Option Fid) (ptype : Ptype)
    (len prior : Nat) (s : State) :
    deliver f (.ok (ptype, sdu)) len prior s = setPhase .header (deliverSdu f ptype sdu s) :=
  congrArg (setPhase .header) (if_neg (Nat.not_lt.mpr hsize))

theorem rxReleased_releaseDelivered (w : Nat) (f : Option Fid) (d : Counters) (r : Rx) :
    RxReleased w f d r (releaseDelivered f (countRx w r f d)) := by
  cases f with
  | none => exact rxReleased_countRx_none w r d
  | some f => exact rxReleased_releaseRx r f d

theorem deliverSdu_deliveredAs (f : Option Fid) (ptype : Ptype) (sdu : Bytes) (s : State) :
    DeliveredAs f ptype sdu s (setPhase .header (deliverSdu f ptype sdu s)) where
  only := ⟨rfl, rfl, rfl⟩
  rx := rxReleased_releaseDelivered ..
  off := by
    obtain ⟨-, -, hoff, -, -⟩ :=
      releaseDelivered_same f (countRx s.params.cntW s.rx f (deliveredCounters sdu.length))
    rw [setPhase_rx, deliverSdu_rx, hoff, countRx_off]
  scan := rfl

/-- A drop at delivery loses no packet, for the reasons met there. -/
theorem deliveryDrop_droppedBy {reason : DropReason} (halways : alwaysLosesOne reason = false)
    (hremainder : losesRemainder reason = false) (hprior : f = none → prior = 0) (len : Nat) (s : State) :
    DroppedBy f reason { pktsDropped := 1, bytesDropped := prior + len } s.rx.off s
      (setPhase .header (takeDrop f reason len prior s)) := by
  cases f with
  | none =>
    rw [hprior rfl, Nat.zero_add]
    exact takeDrop_none_droppedBy ..
  | some f =>
    have hlost : lostOnDrop s.rx f reason prior = 0 := by simp [lostOnDrop, halways, hremainder]
    have hdrop := takeDrop_droppedBy f reason len prior s
    rwa [hlost] at hdrop

end

/-- Settles O42: each form is a `deliver` of what it expands to, whose three ends are the three clauses. -/
theorem deliveryRule : Obligations.DeliveryRule := by
  intro s i f alpdu lt pts len prior r hphase hprior hform
  have hexec := exec_of_formExpands hphase hform
  refine ⟨?_, ?_, ?_⟩
  · rintro ptype sdu rfl hsize
    exact ⟨_, hexec.trans (congrArg _ (deliver_of_fits hsize ..)), deliverSdu_deliveredAs ..⟩
  · rintro ptype sdu rfl hsize
    exact ⟨_, hexec.trans (congrArg _ (deliver_of_too_big hsize ..)), deliveryDrop_droppedBy rfl rfl hprior ..⟩
  · rintro reason (rfl | rfl) rfl
    · exact ⟨_, hexec, deliveryDrop_droppedBy rfl rfl hprior ..⟩
    · exact ⟨_, hexec, deliveryDrop_droppedBy rfl rfl hprior ..⟩

end Sys2Proof.Machine
end

section
/-! What a wire unit can change, said once: the receiver's counters, and of its contexts the one the unit works on
(spec/47 R320). -/

namespace Sys2Proof.Machine

open Host (Outcome)

/-! ### The effect of a unit on the receiver -/

/-- A record is as it was, or updates were added to it that count as many packets and bytes ok as out (R389, R392). -/
def RecordKept (w : Nat) (c c' : Counters) : Prop :=
  c' = c ∨ ∃ d : Counters, (d.pktsOk = d.pktsOut ∧ d.bytesOk = d.bytesOut) ∧ c' = addCounters w c d

theorem RecordKept.refl (w : Nat) (c : Counters) : RecordKept w c c := .inl rfl

theorem RecordKept.add (w : Nat) (c : Counters) {d : Counters} (hd : d.pktsOk = d.pktsOut ∧ d.bytesOk = d.bytesOut) :
    RecordKept w c (addCounters w c d) := .inr ⟨d, hd, rfl⟩

theorem RecordKept.trans {w : Nat} {a b c : Counters} (h : RecordKept w a b) (h' : RecordKept w b c) :
    RecordKept w a c := by
  obtain rfl | ⟨d, ⟨hp, hb⟩, rfl⟩ := h
  · exact h'
  obtain rfl | ⟨d', ⟨hp', hb'⟩, rfl⟩ := h'
  · exact .inr ⟨d, ⟨hp, hb⟩, rfl⟩
  · exact .inr ⟨_, ⟨congrArg₂ (· + ·) hp hp', congrArg₂ (· + ·) hb hb'⟩, addCounters_addCounters a d d'⟩

/-- The receiver's counters have been added to as `RecordKept` says, and the transmitter is untouched. -/
structure CountsKept (s t : State) : Prop where
  tx : t.tx = s.tx
  agg : RecordKept s.params.cntW s.rx.agg t.rx.agg
  cnt : ∀ g, RecordKept s.params.cntW (rxCtx s.rx g).cnt (rxCtx t.rx g).cnt

/-- A unit of context `f`, or of none: beside the counters and `off` it changes only that context and its busy bit. -/
structure UnitEffect (f : Option Fid) (s t : State) : Prop extends CountsKept s t where
  params : t.params = s.params
  configured : t.rx.configured = s.rx.configured
  cfg : t.rx.cfg = s.rx.cfg
  busy : ∀ g, f ≠ some g → busyBit t.rx.busy g = busyBit s.rx.busy g
  ctx : ∀ g, f ≠ some g → rxCtx t.rx g = rxCtx s.rx g

theorem CountsKept.trans {s t u : State} (h : CountsKept s t) (hp : t.params = s.params) (h' : CountsKept t u) :
    CountsKept s u where
  tx := h'.tx.trans h.tx
  agg := h.agg.trans (hp ▸ h'.agg)
  cnt g := (h.cnt g).trans (hp ▸ h'.cnt g)

theorem UnitEffect.trans {f : Option Fid} {s t u : State} (h : UnitEffect f s t) (h' : UnitEffect f t u) :
    UnitEffect f s u where
  toCountsKept := h.toCountsKept.trans h.params h'.toCountsKept
  params := h'.params.trans h.params
  configured := h'.configured.trans h.configured
  cfg := h'.cfg.trans h.cfg
  busy g hg := (h'.busy g hg).trans (h.busy g hg)
  ctx g hg := (h'.ctx g hg).trans (h.ctx g hg)

/-- What changes no context may stand for the unit of any. -/
theorem UnitEffect.of_none {s t : State} (h : UnitEffect none s t) (f : Option Fid) : UnitEffect f s t :=
  { h with busy := fun g _ => h.busy g nofun, ctx := fun g _ => h.ctx g nofun }

section
variable {s t : State} {f : Option Fid}

/-- A change of the scan or of the host's side alone. -/
theorem UnitEffect.of_rx_eq (htx : t.tx = s.tx) (hp : t.params = s.params) (hrx : t.rx = s.rx) : UnitEffect f s t where
  tx := htx
  agg := hrx ▸ .refl ..
  cnt _ := hrx ▸ .refl ..
  params := hp
  configured := by rw [hrx]
  cfg := by rw [hrx]
  busy _ _ := by rw [hrx]
  ctx _ _ := by rw [hrx]

theorem unitEffect_setPhase (p : ScanPhase) : UnitEffect f s (setPhase p s) := .of_rx_eq rfl rfl rfl

theorem unitEffect_logEvent (e : Event) : UnitEffect f s (logEvent e s) := .of_rx_eq rfl rfl rfl

theorem unitEffect_logDrop (g : Option Fid) (x : DropReason) : UnitEffect f s (logDrop g x s) := .of_rx_eq rfl rfl rfl

theorem unitEffect_finishScan : UnitEffect f s (finishScan s) := .of_rx_eq rfl rfl rfl

theorem unitEffect_setOff (v : Nat) : UnitEffect f s (setOff v s) :=
  ⟨⟨rfl, .refl .., fun _ => .refl ..⟩, rfl, rfl, rfl, fun _ _ => rfl, fun _ _ => rfl⟩

theorem unitEffect_countRx {d : Counters} (hd : d.pktsOk = d.pktsOut ∧ d.bytesOk = d.bytesOut) :
    UnitEffect f s { s with rx := countRx s.params.cntW s.rx f d } where
  tx := rfl
  agg := by rw [countRx_agg]; exact .add _ _ hd
  cnt g := by
    cases f with
    | none => exact .refl ..
    | some f =>
      by_cases hg : g = f
      · subst hg
        rw [rxCtx_countRx_same]
        exact .add _ _ hd
      · rw [rxCtx_countRx_ne _ _ hg]
        exact .refl ..
  params := rfl
  configured := countRx_configured ..
  cfg := countRx_cfg ..
  busy _ _ := by rw [countRx_busy]
  ctx g hg := by
    cases f with
    | none => rfl
    | some f => exact rxCtx_countRx_ne _ _ fun h => hg (h ▸ rfl)

/-- The registers and the busy bit of a context are written, its counters are not. -/
theorem unitEffect_registers {f : Fid} {r : Rx} (hsame : RxSameBut f s.rx r) (hagg : r.agg = s.rx.agg)
    (hcnt : (rxCtx r f).cnt = (rxCtx s.rx f).cnt) : UnitEffect (some f) s { s with rx := r } where
  tx := rfl
  agg := .inl hagg
  cnt g := by
    by_cases hg : g = f
    · subst hg
      exact .inl hcnt
    · exact .inl (by rw [hsame.ctx g hg])
  params := rfl
  configured := hsame.configured
  cfg := hsame.cfg
  busy g hg := hsame.busy g fun h => hg (h ▸ rfl)
  ctx g hg := hsame.ctx g fun h => hg (h ▸ rfl)

theorem unitEffect_setRxCtx {f : Fid} {c : RxCtx} (hcnt : c.cnt = (rxCtx s.rx f).cnt) :
    UnitEffect (some f) s { s with rx := setRxCtx s.rx f c } :=
  unitEffect_registers (setRxCtx_sameBut ..) rfl (by rw [rxCtx_setRxCtx_same, hcnt])

theorem unitEffect_releaseRx (f : Fid) : UnitEffect (some f) s { s with rx := releaseRx s.rx f } :=
  unitEffect_registers ⟨rfl, rfl, fun _ hg => busyBit_clearBusy_ne _ hg, fun _ _ => rfl⟩ rfl rfl

/-! ### The shared operations of the receiver (R323, R340, R350) -/

theorem unitEffect_arrive (b : Bool) (hl n : Nat) : UnitEffect f s (arrive f b hl n s) :=
  (unitEffect_countRx ⟨rfl, rfl⟩).trans (unitEffect_setOff _)

theorem unitEffect_takeDrop (x : DropReason) (n prior : Nat) : UnitEffect f s (takeDrop f x n prior s) := by
  cases f with
  | none => exact (unitEffect_countRx ⟨rfl, rfl⟩).trans (unitEffect_logDrop ..)
  | some f => exact ((unitEffect_countRx ⟨rfl, rfl⟩).trans (unitEffect_releaseRx f)).trans (unitEffect_logDrop ..)

theorem unitEffect_takeDrop_arrive (b : Bool) (hl n prior : Nat) (x : DropReason) :
    UnitEffect f s (takeDrop f x n prior (arrive f b hl n s)) :=
  (unitEffect_arrive b hl n).trans (unitEffect_takeDrop ..)

theorem unitEffect_endTruncated : UnitEffect f s (endTruncated s) :=
  (((unitEffect_countRx ⟨rfl, rfl⟩).trans (unitEffect_logDrop ..)).trans unitEffect_finishScan).of_none f

theorem unitEffect_deliver (r : Expanded) (n prior : Nat) : UnitEffect f s (deliver f r n prior s) := by
  have hdrop (x : DropReason) : UnitEffect f s (setPhase .header (takeDrop f x n prior s)) :=
    (unitEffect_takeDrop ..).trans (unitEffect_setPhase _)
  obtain x | ⟨ptype, sdu⟩ := r
  · exact hdrop x
  rcases Nat.lt_or_ge sduMax sdu.length with hbig | hfits
  · rw [deliver_of_too_big hbig]
    exact hdrop _
  · rw [deliver_of_fits hfits]
    have hcount : UnitEffect f s { s with rx := countRx s.params.cntW s.rx f (deliveredCounters sdu.length) } :=
      unitEffect_countRx ⟨rfl, rfl⟩
    cases f with
    | none => exact hcount.trans ((unitEffect_logEvent _).trans (unitEffect_setPhase _))
    | some f =>
      exact (hcount.trans (unitEffect_releaseRx f)).trans ((unitEffect_logEvent _).trans (unitEffect_setPhase _))

theorem unitEffect_dropRouted (x : DropReason) :
    ∃ f, UnitEffect f s (dropRouted x s) := by
  unfold dropRouted
  split
  · exact ⟨_, (unitEffect_takeDrop ..).trans (unitEffect_setPhase _)⟩
  · exact ⟨_, (unitEffect_takeDrop ..).trans (unitEffect_setPhase _)⟩
  all_goals exact ⟨none, .of_rx_eq rfl rfl rfl⟩

theorem countsKept_onDecodeError (e : DecodeError) : CountsKept s (onDecodeError e s) := by
  cases e with
  | endOfFpdu | notACommandCode => exact (unitEffect_finishScan (f := none)).toCountsKept
  | truncatedHeader => exact (unitEffect_endTruncated (f := none)).toCountsKept
  | ptypeFieldTooShort | trailerTooShort =>
    obtain ⟨f, heffect⟩ := unitEffect_dropRouted (s := s) _
    exact heffect.toCountsKept

end

/-! ### The effect of each unit -/

section
variable {s t : State} {i : Instr} {f : Fid}

/-- A unit that completes is in its place. -/
theorem header_of_exec_next (hsite : siteOf i = .ppdu) (h : exec i s = .next t) : s.scan.phase = .header := by
  by_contra hphase
  cases (exec_ppdu_of_not_header hsite hphase).symm.trans h

theorem trailer_of_exec_next {b : Bool} (hsite : siteOf i = .trailer b) (h : exec i s = .next t) :
    ∃ f a trl l p, s.scan.phase = .trailer f a trl l p := by
  by_contra hphase
  cases (exec_trailer_of_not_trailer hsite fun f a trl l p hp => hphase ⟨f, a, trl, l, p, hp⟩).symm.trans h

theorem alpdu_of_exec_next {a b : Bool} (hsite : siteOf i = .alpduHdr a b) (h : exec i s = .next t) :
    ∃ f a lt pts l p, s.scan.phase = .alpdu f a lt pts l p := by
  by_contra hphase
  cases (exec_alpduHdr_of_not_alpdu hsite fun f a lt pts l p hp => hphase ⟨f, a, lt, pts, l, p, hp⟩).symm.trans h

theorem payloadIs_or_none (s : State) (hl n : Nat) : payloadAt s hl n = none ∨ ∃ payload, PayloadIs s hl n payload := by
  obtain ⟨hnone, -⟩ | ⟨payload, -, hfits, -, hbytes⟩ := payloadAt_cases s hl n
  · exact .inl hnone
  · exact .inr ⟨payload, hfits, hbytes⟩

theorem pad_effect (h : exec .pad s = .next t) : UnitEffect none s t := by
  cases (exec_pad_of_header (header_of_exec_next rfl h)).symm.trans h
  exact unitEffect_finishScan

theorem comp_effect {lt : LabelType} {pts : Bool} {len : BitVec 11} (h : exec (.comp lt pts len) s = .next t) :
    UnitEffect none s t := by
  have hheader := header_of_exec_next rfl h
  obtain hnone | ⟨payload, hpayload⟩ := payloadIs_or_none s 2 len.toNat
  · cases (exec_comp_of_no_payload hheader hnone lt pts).symm.trans h
    exact unitEffect_endTruncated
  cases hlt : isReservedLt lt with
  | true =>
    cases (exec_comp_of_reserved hheader hpayload hlt pts).symm.trans h
    exact unitEffect_takeDrop_arrive ..
  | false =>
    cases (exec_comp_of_legal hheader hpayload hlt pts).symm.trans h
    exact (unitEffect_arrive ..).trans (unitEffect_setPhase _)

theorem start_effect {lt : LabelType} {pts crc : Bool} {len : BitVec 11} {total : Index}
    (h : exec (.start lt pts len f total crc) s = .next t) : UnitEffect (some f) s t := by
  have hheader := header_of_exec_next rfl h
  obtain hnone | ⟨payload, hpayload⟩ := payloadIs_or_none s 4 len.toNat
  · cases (exec_start_of_no_payload hheader hnone ..).symm.trans h
    exact unitEffect_endTruncated
  cases hbusy : busyBit s.rx.busy f with
  | true =>
    cases (exec_start_of_busy hheader hpayload hbusy).symm.trans h
    exact unitEffect_takeDrop_arrive ..
  | false =>
    cases hlt : isReservedLt lt with
    | true =>
      cases (exec_start_of_reserved hheader hpayload hbusy hlt).symm.trans h
      exact unitEffect_takeDrop_arrive ..
    | false =>
      rcases Nat.lt_or_ge total.toNat len.toNat with htotal | htotal
      · cases (exec_start_of_exceeded hheader hpayload hbusy hlt htotal).symm.trans h
        exact unitEffect_takeDrop_arrive ..
      · obtain ⟨buf, -, htaken⟩ := acceptStart_next lt pts (payloadIs_length hpayload ▸ len.isLt) f total crc
          (arrive (some f) true 4 len.toNat s)
        cases ((exec_start_of_accepted hheader hpayload hbusy hlt htotal).trans htaken).symm.trans h
        refine (unitEffect_arrive ..).trans ((unitEffect_registers (startTaken_sameBut ..) rfl ?_).trans
          (unitEffect_logEvent _))
        rw [rxCtx_startTaken_same]
        rfl

theorem cont_effect {len : BitVec 11} (h : exec (.cont len f) s = .next t) : UnitEffect (some f) s t := by
  have hheader := header_of_exec_next rfl h
  obtain hnone | ⟨payload, hpayload⟩ := payloadIs_or_none s 2 len.toNat
  · cases (exec_cont_of_no_payload hheader hnone f).symm.trans h
    exact unitEffect_endTruncated
  cases hbusy : busyBit s.rx.busy f with
  | false =>
    cases (exec_cont_of_free hheader hpayload hbusy).symm.trans h
    exact unitEffect_takeDrop_arrive ..
  | true =>
    rcases Nat.lt_or_ge (rxCtx s.rx f).totalLen.toNat ((rxCtx s.rx f).bytesReceived.toNat + len.toNat)
      with htotal | htotal
    · cases (exec_cont_of_exceeded hheader hpayload hbusy htotal).symm.trans h
      exact unitEffect_takeDrop_arrive ..
    · obtain ⟨buf, hwrite⟩ := append_memWrite_ok s.params.rasmBufLen.property (bytes := payload)
        ((payloadIs_length hpayload).symm ▸ htotal)
      have htaken := acceptCont_next (s := arrive (some f) false 2 len.toNat s) (f := f) (payload := payload)
        (buf := buf) (by rw [arrive_ctx_same]; exact hwrite)
      cases ((exec_cont_of_accepted hheader hpayload hbusy htotal).trans htaken).symm.trans h
      exact (unitEffect_arrive ..).trans
        ((unitEffect_setRxCtx (c := appendedCtx _ buf payload.length) rfl).trans (unitEffect_logEvent _))

theorem acceptEnd_effect {payload : Bytes} {prior : Nat} (h : acceptEnd payload f prior s = .next t) :
    UnitEffect (some f) s t := by
  unfold acceptEnd at h
  dsimp only at h
  split at h
  · cases h
  split at h
  · cases h
  · cases h
    exact (unitEffect_setRxCtx (c := appendedCtx _ _ _) rfl).trans (unitEffect_setPhase _)

theorem endPpdu_effect {len : BitVec 11} (h : exec (.endPpdu len f) s = .next t) : UnitEffect (some f) s t := by
  have hheader := header_of_exec_next rfl h
  obtain hnone | ⟨payload, hpayload⟩ := payloadIs_or_none s 2 len.toNat
  · cases (exec_endPpdu_of_no_payload hheader hnone f).symm.trans h
    exact unitEffect_endTruncated
  cases hbusy : busyBit s.rx.busy f with
  | false =>
    cases (exec_endPpdu_of_free hheader hpayload hbusy).symm.trans h
    exact unitEffect_takeDrop_arrive ..
  | true =>
    rcases Nat.lt_or_ge len.toNat (trlLen (rxCtx s.rx f).useCrc) with htrailer | htrailer
    · cases (exec_endPpdu_of_short hheader hpayload hbusy htrailer).symm.trans h
      exact unitEffect_takeDrop_arrive ..
    by_cases hsum : (rxCtx s.rx f).bytesReceived.toNat + (len.toNat - trlLen (rxCtx s.rx f).useCrc) =
        (rxCtx s.rx f).totalLen.toNat
    · rw [exec_endPpdu_of_accepted hheader hpayload hbusy htrailer hsum] at h
      exact (unitEffect_arrive ..).trans (acceptEnd_effect h)
    · cases (exec_endPpdu_of_mismatch hheader hpayload hbusy htrailer hsum).symm.trans h
      exact unitEffect_takeDrop_arrive ..

section
variable {alpdu trl : Bytes} {len prior : Nat} (hphase : s.scan.phase = .trailer f alpdu trl len prior)
include hphase

theorem trlCrc_effect {crc : Crc} (h : exec (.trlCrc crc) s = .next t) : UnitEffect (some f) s t := by
  by_cases hmatch : crc = crc32 s.params.crc32 alpdu
  · cases (exec_trlCrc_of_match hphase hmatch).symm.trans h
    exact unitEffect_setPhase _
  · cases (exec_trlCrc_of_mismatch hphase hmatch).symm.trans h
    exact (unitEffect_takeDrop ..).trans (unitEffect_setPhase _)

theorem trlSeq_effect {seq : SeqNb} (h : exec (.trlSeq seq) s = .next t) : UnitEffect (some f) s t := by
  have hrecord : UnitEffect (some f) s { s with rx := seqRecorded s.rx f seq } := unitEffect_setRxCtx rfl
  cases hinit : (rxCtx s.rx f).seqInit with
  | false =>
    cases (exec_trlSeq_of_first hphase hinit seq).symm.trans h
    exact hrecord.trans (unitEffect_setPhase _)
  | true =>
    rcases Nat.lt_or_ge (seq - (rxCtx s.rx f).nextExpSeq).toNat s.params.seqAmbigMin with hgap | hambiguous
    · cases (exec_trlSeq_of_gap hphase hinit hgap).symm.trans h
      exact hrecord.trans ((unitEffect_countRx ⟨rfl, rfl⟩).trans (unitEffect_setPhase _))
    · cases (exec_trlSeq_of_ambiguous hphase hinit hambiguous).symm.trans h
      exact hrecord.trans ((unitEffect_takeDrop ..).trans (unitEffect_setPhase _))

end

/-- Each ALPDU header form says what the ALPDU expands to. -/
theorem formExpands_of_site {a b : Bool} (hsite : siteOf i = .alpduHdr a b) (s : State) (lt : LabelType)
    (alpdu : Bytes) : ∃ r, formExpands s lt alpdu i = some r := by
  cases i with
  | ptOmit | ptComp | ptFallback | ptUncomp => exact ⟨_, rfl⟩
  | pad | comp | start | cont | endPpdu | trlSeq | trlCrc | txNew | txDestroy | encap | emit | pack | dumpAlpdu
  | txStat | rxNew | rxDestroy | decap | rxStat | hdrsz | reserved12 | reserved13 | reserved14 | reserved15 =>
    cases hsite

/-- The fragment-id of the END or ALPDU whose bytes are read next. -/
def phaseFid : ScanPhase → Option Fid
  | .trailer f .. => some f
  | .alpdu f .. => f
  | .idle | .header => none

/-- The fragment-id a unit works on: the one its header names, or that of the END or ALPDU in hand. -/
def unitFid (s : State) : Instr → Option Fid
  | .start _ _ _ f _ _ | .cont _ f | .endPpdu _ f => some f
  | .trlSeq _ | .trlCrc _ | .ptOmit | .ptComp _ | .ptFallback _ | .ptUncomp _ => phaseFid s.scan.phase
  | .pad | .comp .. | .txNew _ | .txDestroy | .encap .. | .emit .. | .pack .. | .dumpAlpdu _ | .txStat .. | .rxNew _
  | .rxDestroy | .decap _ | .rxStat .. | .hdrsz .. | .reserved12 | .reserved13 | .reserved14 | .reserved15 => none

theorem unitFid_of_trailer {b : Bool} (hsite : siteOf i = .trailer b) (s : State) :
    unitFid s i = phaseFid s.scan.phase := by
  cases i with
  | trlSeq | trlCrc => rfl
  | pad | comp | start | cont | endPpdu | ptOmit | ptComp | ptFallback | ptUncomp | txNew | txDestroy | encap | emit
  | pack | dumpAlpdu | txStat | rxNew | rxDestroy | decap | rxStat | hdrsz | reserved12 | reserved13 | reserved14
  | reserved15 => cases hsite

theorem unitFid_of_alpduHdr {a b : Bool} (hsite : siteOf i = .alpduHdr a b) (s : State) :
    unitFid s i = phaseFid s.scan.phase := by
  cases i with
  | ptOmit | ptComp | ptFallback | ptUncomp => rfl
  | pad | comp | start | cont | endPpdu | trlSeq | trlCrc | txNew | txDestroy | encap | emit | pack | dumpAlpdu
  | txStat | rxNew | rxDestroy | decap | rxStat | hdrsz | reserved12 | reserved13 | reserved14 | reserved15 =>
    cases hsite

/-- The ALPDU header delivers or drops the SDU of the ALPDU in hand. -/
theorem alpduHdr_effect {a b : Bool} (hsite : siteOf i = .alpduHdr a b) (h : exec i s = .next t) :
    UnitEffect (unitFid s i) s t := by
  obtain ⟨f, bytes, lt, pts, l, p, hphase⟩ := alpdu_of_exec_next hsite h
  obtain ⟨r, hform⟩ := formExpands_of_site hsite s lt bytes
  cases (exec_of_formExpands hphase hform).symm.trans h
  rw [unitFid_of_alpduHdr hsite, hphase]
  exact unitEffect_deliver ..

/-- R320: a wire unit changes nothing but the context it works on, and the aggregate. -/
theorem unit_effect (hunit : ∀ o, siteOf i ≠ .command o) (h : exec i s = .next t) :
    UnitEffect (unitFid s i) s t := by
  cases i with
  | pad => exact pad_effect h
  | comp => exact comp_effect h
  | start => exact start_effect h
  | cont => exact cont_effect h
  | endPpdu => exact endPpdu_effect h
  | trlSeq =>
    obtain ⟨f, a, trl, l, p, hphase⟩ := trailer_of_exec_next rfl h
    rw [unitFid, hphase]
    exact trlSeq_effect hphase h
  | trlCrc =>
    obtain ⟨f, a, trl, l, p, hphase⟩ := trailer_of_exec_next rfl h
    rw [unitFid, hphase]
    exact trlCrc_effect hphase h
  | ptOmit | ptComp | ptFallback | ptUncomp => exact alpduHdr_effect rfl h
  | txNew | txDestroy | encap | emit | pack | dumpAlpdu | txStat | rxNew | rxDestroy | decap | rxStat | hdrsz
  | reserved12 | reserved13 | reserved14 | reserved15 => exact absurd rfl (hunit _)

end

/-! ### The machines are independent (R320) -/

theorem UnitEffect.sameBut {f : Fid} {s t : State} (h : UnitEffect (some f) s t) : RxSameBut f s.rx t.rx where
  configured := h.configured
  cfg := h.cfg
  busy g hg := h.busy g fun he => hg (Option.some.inj he).symm
  ctx g hg := h.ctx g fun he => hg (Option.some.inj he).symm

/-- Eight busy bits and eight contexts: where none differs, the bitmap and the contexts are the same. -/
theorem UnitEffect.sameButAgg {s t : State} (h : UnitEffect none s t) : RxSameButAgg s.rx t.rx where
  configured := h.configured
  cfg := h.cfg
  busy := by
    apply BitVec.eq_of_getLsbD_eq
    intro i hi
    have hbit := h.busy (BitVec.ofNat 3 i) nofun
    rwa [busyBit, busyBit, BitVec.toNat_ofNat, Nat.mod_eq_of_lt hi] at hbit
  ctx := by
    apply Vector.ext
    intro i hi
    have hctx := h.ctx (BitVec.ofNat 3 i) nofun
    simpa only [rxCtx, BitVec.toNat_ofNat, Nat.mod_eq_of_lt (show i < 2 ^ 3 from hi)] using hctx

/-- Settles O48: `unit_effect`, with the fragment-id of each kind of unit. -/
theorem machinesIndependent : Obligations.MachinesIndependent := by
  intro s t f i h
  refine ⟨fun hunit => ?_, ?_⟩
  · have hsame (hcommand : ∀ o, siteOf i ≠ .command o) (hfid : unitFid s i = some f) : RxSameBut f s.rx t.rx :=
      UnitEffect.sameBut (hfid ▸ unit_effect hcommand h)
    obtain ⟨lt, pts, len, total, crc, rfl⟩ | ⟨len, rfl⟩ | ⟨len, rfl⟩ | ⟨a, trl, l, p, hphase, hsite⟩ |
      ⟨a, trl, l, p, hphase, hsite⟩ := hunit
    · exact hsame nofun rfl
    · exact hsame nofun rfl
    · exact hsame nofun rfl
    · exact hsame (hsite ▸ nofun) (by rw [unitFid_of_trailer hsite, hphase, phaseFid])
    · exact hsame (hsite ▸ nofun) (by rw [unitFid_of_trailer hsite, hphase, phaseFid])
  · rintro ⟨lt, pts, len, rfl⟩
    exact (comp_effect h).sameButAgg

end Sys2Proof.Machine
end

section
/-! The whole machine: what a scan and each command can do, said once, and from it that the units share nothing (spec/10
R20, R62), that a step keeps the invariant, and that no run from reset faults (spec/20 R80). -/

namespace Sys2Proof.Machine

open Host (Outcome)

/-! ### A scan (R307, R321) -/

section
variable {s t : State}

/-- What is fetched for a unit of the scan is no command. -/
theorem UnitOf.not_command {p : ScanPhase} {i : Instr} (h : UnitOf p i) (o : Operands) : siteOf i ≠ .command o := by
  intro hsite
  cases p with
  | idle => exact h
  | header => cases hsite.symm.trans h
  | trailer =>
    obtain ⟨b, hb⟩ := h
    cases hsite.symm.trans hb
  | alpdu =>
    obtain ⟨a, b, hab⟩ := h
    cases hsite.symm.trans hab

theorem scanStep_countsKept (h : scanStep s = .next t) : CountsKept s t := by
  unfold scanStep at h
  split at h
  case h_1 i hfetch =>
    have hunit := fetchUnit_unitOf hfetch
    exact (unit_effect hunit.not_command ((exec_eq_execUnit hunit).trans h)).toCountsKept
  case h_2 e hfetch =>
    cases h
    exact countsKept_onDecodeError e

theorem countsKept_refl (s : State) : CountsKept s s := ⟨rfl, .refl .., fun _ => .refl ..⟩

theorem runScan_countsKept {rounds : Nat} (h : runScan rounds s = .next t) : CountsKept s t := by
  induction rounds generalizing s with
  | zero =>
    cases h
    exact countsKept_refl _
  | succ rounds ih =>
    unfold runScan at h
    split_ifs at h with hidle
    · cases h
      exact countsKept_refl _
    · split at h
      case h_1 u hround =>
        exact (scanStep_countsKept hround).trans ((scanStep_keepsParams _).of_next u hround) (ih h)
      case h_2 | h_3 => cases h

/-- A scan that begins: the bursts are cleared, and the FPDU's bytes are in hand. -/
def scanBegun (fpdu : Bytes) (s : State) : State :=
  { s with rx := clearBursts s.rx, scan := { phase := .header, fpdu := fpdu, events := [], err := false } }

theorem beginScan_of_short {fpdu : Bytes} (h : fpdu.length < implicitPayloadLabelSize s.rx.cfg) :
    beginScan fpdu s = endTruncated (setOff 0 (scanBegun fpdu s)) := if_pos h

theorem beginScan_of_label {fpdu : Bytes} (h : implicitPayloadLabelSize s.rx.cfg ≤ fpdu.length) :
    beginScan fpdu s = setOff (implicitPayloadLabelSize s.rx.cfg) (scanBegun fpdu s) := if_neg (Nat.not_lt.mpr h)

theorem scanBegun_countsKept (fpdu : Bytes) (s : State) : CountsKept s (scanBegun fpdu s) where
  tx := rfl
  agg := .refl ..
  cnt g := .inl (by rw [scanBegun, rxCtx_clearBursts])

theorem beginScan_countsKept (fpdu : Bytes) (s : State) : CountsKept s (beginScan fpdu s) := by
  rcases Nat.lt_or_ge fpdu.length (implicitPayloadLabelSize s.rx.cfg) with hshort | hlabel
  · rw [beginScan_of_short hshort]
    exact (scanBegun_countsKept fpdu s).trans rfl
      ((unitEffect_setOff (f := none) 0).trans unitEffect_endTruncated).toCountsKept
  · rw [beginScan_of_label hlabel]
    exact (scanBegun_countsKept fpdu s).trans rfl (unitEffect_setOff (f := none) _).toCountsKept

end

/-! ### The commands (spec/42 to spec/48) -/

/-- All that a command with a next state can have done: answer, or answer with a changed unit. -/
inductive CommandEffect (s : State) : Instr → State → Prop where
  | answered {i : Instr} (r : Response) : CommandEffect s i (respond r s)
  | txCreated {w : CfgWord} (r : Response) (hvalid : cfgValid w = true) :
      CommandEffect s (.txNew w) (respond r { s with tx := newTx w })
  | txDestroyed (r : Response) : CommandEffect s .txDestroy (respond r { s with tx := Tx.reset })
  | encapsulated {sdu : Bytes} {ptype : Ptype} {f : Fid} {buf : Mem} {t : State}
      (htook : EncapTook sdu ptype f buf s t) : CommandEffect s (.encap (some sdu) ptype f) t
  | emitted {f : Fid} {burst : Nat} {e : Emission} (r : Response) (hemit : emit s.params s.tx f burst = .ok e) :
      CommandEffect s (.emit f burst) (respond r { s with tx := e.tx })
  | packed {size : Nat} {label : Option Bytes} {sched : List Fid} {start : Bytes} {k : Packing} (r : Response)
      (hserve : serveSched s.params size sched { tx := s.tx, out := start, failed := false } = .ok k) :
      CommandEffect s (.pack size label sched) (respond r { s with tx := k.tx })
  | rxCreated {w : CfgWord} (r : Response) (hvalid : cfgValid w = true) :
      CommandEffect s (.rxNew w) (respond r { s with rx := newRx w, scan := Scan.idle })
  | rxDestroyed (r : Response) : CommandEffect s .rxDestroy (respond r { s with rx := Rx.reset, scan := Scan.idle })
  | decapsulated {fpdu : Bytes} {t : State} (hconf : s.rx.configured = true)
      (hrun : runScan (scanRounds fpdu) (beginScan fpdu s) = .next t) : CommandEffect s (.decap (some fpdu)) t

section
variable {s t : State} {i : Instr}

theorem commandEffect_of_answer {r : Response} (hexec : exec i s = answer r s) (h : exec i s = .next t) :
    CommandEffect s i t := by
  cases hexec.symm.trans h
  exact .answered r

theorem txNew_effect {w : CfgWord} (h : exec (.txNew w) s = .next t) : CommandEffect s (.txNew w) t := by
  cases hvalid : cfgValid w with
  | true =>
    cases (exec_txNew_of_valid hvalid s).symm.trans h
    exact .txCreated _ hvalid
  | false => exact commandEffect_of_answer (exec_txNew_of_invalid hvalid s) h

theorem rxNew_effect {w : CfgWord} (h : exec (.rxNew w) s = .next t) : CommandEffect s (.rxNew w) t := by
  cases hvalid : cfgValid w with
  | true =>
    cases (exec_rxNew_of_valid hvalid s).symm.trans h
    exact .rxCreated _ hvalid
  | false => exact commandEffect_of_answer (exec_rxNew_of_invalid hvalid s) h

theorem txDestroy_effect (h : exec .txDestroy s = .next t) : CommandEffect s .txDestroy t := by
  cases hconf : s.tx.configured with
  | false => exact commandEffect_of_answer (exec_txDestroy_of_unconfigured hconf) h
  | true =>
    cases (exec_txDestroy_of_configured hconf).symm.trans h
    exact .txDestroyed _

theorem rxDestroy_effect (h : exec .rxDestroy s = .next t) : CommandEffect s .rxDestroy t := by
  cases hconf : s.rx.configured with
  | false => exact commandEffect_of_answer (exec_rxDestroy_of_unconfigured hconf) h
  | true =>
    cases (exec_rxDestroy_of_configured hconf).symm.trans h
    exact .rxDestroyed _

theorem encap_effect {sdu : Option Bytes} {ptype : Ptype} {f : Fid} (h : exec (.encap sdu ptype f) s = .next t) :
    CommandEffect s (.encap sdu ptype f) t := by
  obtain ⟨x, hanswer, -⟩ | ⟨bytes, buf, u, rfl, htook, hencap⟩ := exec_encap_cases sdu ptype f s
  · exact commandEffect_of_answer hanswer h
  · cases htook.symm.trans h
    exact .encapsulated hencap

theorem emit_effect {f : Fid} {burst : Nat} (h : exec (.emit f burst) s = .next t) :
    CommandEffect s (.emit f burst) t := by
  obtain ⟨e, hemit, rfl⟩ := exec_emit_next h
  exact .emitted _ hemit

theorem pack_effect {size : Nat} {label : Option Bytes} {sched : List Fid}
    (h : exec (.pack size label sched) s = .next t) : CommandEffect s (.pack size label sched) t := by
  cases hconf : s.tx.configured with
  | false => exact commandEffect_of_answer (exec_pack_of_unconfigured hconf size label sched) h
  | true =>
    obtain ⟨x, -, hanswer⟩ | ⟨start, hpack⟩ := exec_pack_of_configured hconf size label sched
    · exact commandEffect_of_answer hanswer h
    · rw [hpack, packFrom] at h
      split at h
      case h_1 => cases h
      case h_2 k hserve =>
        cases h
        exact .packed _ hserve

theorem dumpAlpdu_effect {f : Fid} (h : exec (.dumpAlpdu f) s = .next t) : CommandEffect s (.dumpAlpdu f) t := by
  cases hconf : s.tx.configured with
  | false => exact commandEffect_of_answer (exec_dumpAlpdu_of_unconfigured hconf) h
  | true =>
    cases hbusy : busyBit s.tx.busy f with
    | false => exact commandEffect_of_answer (exec_dumpAlpdu_of_free hconf hbusy) h
    | true =>
      rw [show exec (.dumpAlpdu f) s = execDumpAlpdu f s from rfl, execDumpAlpdu, if_pos hconf, if_pos hbusy] at h
      dsimp only at h
      split at h
      case h_1 => cases h
      case h_2 =>
        cases h
        exact .answered _

theorem txStat_effect {sel n : Nat} (h : exec (.txStat sel n) s = .next t) : CommandEffect s (.txStat sel n) t := by
  cases hconf : s.tx.configured with
  | false => exact commandEffect_of_answer (exec_txStat_of_unconfigured hconf sel) h
  | true =>
    obtain ⟨r, hread, -⟩ := answerCounter_status (txRecord s.tx sel) n s
    exact commandEffect_of_answer ((exec_txStat_of_configured hconf sel).trans hread) h

theorem rxStat_effect {sel n : Nat} (h : exec (.rxStat sel n) s = .next t) : CommandEffect s (.rxStat sel n) t := by
  cases hconf : s.rx.configured with
  | false => exact commandEffect_of_answer (exec_rxStat_of_unconfigured hconf sel) h
  | true =>
    obtain ⟨r, hread, -⟩ := answerCounter_status (rxRecord s.rx sel) n s
    exact commandEffect_of_answer ((exec_rxStat_of_configured hconf sel).trans hread) h

theorem decap_effect {fpdu : Option Bytes} (h : exec (.decap fpdu) s = .next t) : CommandEffect s (.decap fpdu) t := by
  cases hconf : s.rx.configured with
  | false => exact commandEffect_of_answer (exec_decap_of_unconfigured hconf fpdu) h
  | true =>
    cases fpdu with
    | none => exact commandEffect_of_answer (exec_decap_none hconf) h
    | some bytes => exact .decapsulated hconf ((if_pos hconf).symm.trans h)

theorem hdrsz_effect {w : CfgWord} {k : FpduType} (h : exec (.hdrsz w k) s = .next t) :
    CommandEffect s (.hdrsz w k) t := by
  by_cases hvalid : cfgValid w = true
  · cases hsize : headerSize k with
    | some n => exact commandEffect_of_answer (exec_hdrsz_of_size hvalid hsize s) h
    | none => exact commandEffect_of_answer (exec_hdrsz_of_no_size hvalid hsize s) h
  · exact commandEffect_of_answer (exec_hdrsz_of_invalid hvalid s) h

theorem exec_command_effect {o : Operands} (hcommand : siteOf i = .command o) (h : exec i s = .next t) :
    CommandEffect s i t := by
  cases i with
  | txNew => exact txNew_effect h
  | rxNew => exact rxNew_effect h
  | txDestroy => exact txDestroy_effect h
  | rxDestroy => exact rxDestroy_effect h
  | encap => exact encap_effect h
  | emit => exact emit_effect h
  | pack => exact pack_effect h
  | dumpAlpdu => exact dumpAlpdu_effect h
  | txStat => exact txStat_effect h
  | rxStat => exact rxStat_effect h
  | decap => exact decap_effect h
  | hdrsz => exact hdrsz_effect h
  | reserved12 | reserved13 | reserved14 | reserved15 => exact commandEffect_of_answer rfl h
  | pad | comp | start | cont | endPpdu | ptOmit | ptComp | ptFallback | ptUncomp | trlSeq | trlCrc => cases hcommand

/-! ### The units share nothing (R20, R62) -/

/-- The commands of the receiver. -/
def ofReceiver : Instr → Bool
  | .rxNew _ | .rxDestroy | .decap _ | .rxStat .. => true
  | _ => false

theorem CommandEffect.rx_eq (h : CommandEffect s i t) (hunit : ofReceiver i = false) : t.rx = s.rx := by
  cases h with
  | answered | txCreated | txDestroyed | emitted | packed => rfl
  | encapsulated htook =>
    rw [htook.state]
    rfl
  | rxCreated | rxDestroyed | decapsulated => cases hunit

theorem CommandEffect.tx_eq (h : CommandEffect s i t) (hunit : ofReceiver i = true) : t.tx = s.tx := by
  cases h with
  | answered | rxCreated | rxDestroyed => rfl
  | decapsulated hconf hrun => exact (runScan_countsKept hrun).tx.trans (beginScan_countsKept ..).tx
  | txCreated | txDestroyed | encapsulated | emitted | packed => cases hunit

/-- Settles O57: the commands change their own unit, `unit_effect` the receiver. -/
theorem unitsShareNothing : Obligations.UnitsShareNothing := by
  intro s t i h
  have hwire (hsite : ∀ o, siteOf i ≠ .command o) : t.tx = s.tx := (unit_effect hsite h).tx
  constructor
  · rintro (⟨w, rfl⟩ | rfl | ⟨sdu, ptype, f, rfl⟩ | ⟨f, b, rfl⟩ | ⟨n, l, fs, rfl⟩ | ⟨f, rfl⟩ | ⟨a, n, rfl⟩)
    all_goals exact (exec_command_effect rfl h).rx_eq rfl
  · rintro (⟨w, rfl⟩ | rfl | ⟨fpdu, rfl⟩ | ⟨a, n, rfl⟩ | hsite | ⟨b, hsite⟩ | ⟨a, b, hsite⟩)
    case inr.inr.inr.inr.inl => exact hwire (hsite ▸ nofun)
    case inr.inr.inr.inr.inr.inl => exact hwire (hsite ▸ nofun)
    case inr.inr.inr.inr.inr.inr => exact hwire (hsite ▸ nofun)
    all_goals exact (exec_command_effect rfl h).tx_eq rfl

/-! ### The invariant of the machine -/

/-- A command of the transmitter leaves the receiver and the scan, where the invariant stays. -/
theorem inv_of_rxUntouched (h : Inv s) (htx : TxInv t.tx) (hsame : RxUntouched s t) : Inv t where
  tx := htx
  rx := by
    rw [hsame.rx, hsame.params]
    exact h.rx
  scan := by
    rw [hsame.rx, hsame.scan]
    exact h.scan

theorem RxScanInv.inv (h : RxScanInv s) (htx : TxInv s.tx) : Inv s := ⟨htx, h.rx, h.scan⟩

theorem CommandEffect.inv (h : CommandEffect s i t) (hinv : Inv s) : Inv t := by
  cases h with
  | answered r => exact inv_of_rxUntouched hinv hinv.tx ⟨rfl, rfl, rfl⟩
  | txCreated r hvalid => exact inv_of_rxUntouched hinv (newTx_inv hvalid) ⟨rfl, rfl, rfl⟩
  | txDestroyed r => exact inv_of_rxUntouched hinv destroyedTx_inv ⟨rfl, rfl, rfl⟩
  | encapsulated htook =>
    rw [htook.state]
    exact inv_of_rxUntouched hinv (encap_inv hinv.tx htook.configured htook.size htook.fill _ _) ⟨rfl, rfl, rfl⟩
  | emitted r hemit => exact inv_of_rxUntouched hinv (emit_inv hinv.tx hemit) ⟨rfl, rfl, rfl⟩
  | packed r hserve =>
    exact inv_of_rxUntouched hinv (serveSched_inv (k := ⟨s.tx, _, false⟩) hinv.tx hserve) ⟨rfl, rfl, rfl⟩
  | rxCreated r hvalid => exact RxScanInv.inv (.idle (newRx_inv hvalid) rfl) hinv.tx
  | rxDestroyed r => exact RxScanInv.inv (.idle destroyedRx_inv rfl) hinv.tx
  | decapsulated hconf hrun =>
    obtain ⟨u, hexec, hscan, -, huntouched, -⟩ := execDecap_done hinv.rx hconf _
    cases ((if_pos hconf).symm.trans hexec).symm.trans hrun
    exact hscan.inv (huntouched.tx ▸ hinv.tx)

theorem Inv.accept (h : Inv s) (q : Request) (rest : List Request) : Inv (accept q rest s) := ⟨h.tx, h.rx, h.scan⟩

theorem Inv.issue (h : Inv s) (q : Request) : Inv (issue q s) := ⟨h.tx, h.rx, h.scan⟩

theorem requestInstr_command (q : Request) : ∃ o, siteOf (requestInstr q) = .command o := by
  unfold requestInstr decodeCommand
  split <;> exact ⟨_, rfl⟩

/-- What a step between commands can do. -/
theorem commandStep_cases (s : State) :
    (s.host.requests = [] ∧ commandStep s = .next s) ∨
    ∃ q rest, s.host.requests = q :: rest ∧
      ((allowedTo s q.producer (requestInstr q) = true ∧ commandStep s = exec (requestInstr q) (accept q rest s)) ∨
        (allowedTo s q.producer (requestInstr q) = false ∧ commandStep s = .refused .foreignProducer)) := by
  unfold commandStep
  split
  case h_1 hnone => exact .inl ⟨hnone, rfl⟩
  case h_2 q rest hrequests =>
    refine .inr ⟨q, rest, hrequests, ?_⟩
    split_ifs with hallowed
    · exact .inl ⟨hallowed, rfl⟩
    · exact .inr ⟨Bool.eq_false_iff.mpr hallowed, rfl⟩

theorem step_of_idle (h : s.scan.phase = .idle) : step s = commandStep s := if_pos h

theorem step_of_running (h : s.scan.phase ≠ .idle) : step s = scanStep s := (if_neg h).trans (unitStep_eq_scanStep s)

/-- A step changes nothing, executes an accepted command, or is a round of the scan. -/
theorem step_next_cases (h : step s = .next t) :
    t = s ∨ (∃ q rest, CommandEffect (accept q rest s) (requestInstr q) t) ∨
      (s.scan.phase ≠ .idle ∧ scanStep s = .next t) := by
  by_cases hidle : s.scan.phase = .idle
  · rw [step_of_idle hidle] at h
    obtain ⟨-, hstay⟩ | ⟨q, rest, -, ⟨-, hexec⟩ | ⟨-, hrefused⟩⟩ := commandStep_cases s
    · cases hstay.symm.trans h
      exact .inl rfl
    · obtain ⟨o, hcommand⟩ := requestInstr_command q
      exact .inr (.inl ⟨q, rest, exec_command_effect hcommand (hexec.symm.trans h)⟩)
    · cases hrefused.symm.trans h
  · exact .inr (.inr ⟨hidle, (step_of_running hidle).symm.trans h⟩)

theorem step_inv (hinv : Inv s) (h : step s = .next t) : Inv t := by
  obtain rfl | ⟨q, rest, heffect⟩ | ⟨hrunning, hround⟩ := step_next_cases h
  · exact hinv
  · exact heffect.inv (hinv.accept q rest)
  · obtain ⟨u, hscan, hok⟩ := scanStep_round ⟨hinv.rx, hinv.scan⟩ hrunning
    cases hscan.symm.trans hround
    exact hok.inv.inv (hok.frame.untouched.tx ▸ hinv.tx)

/-- Settles O54: by the three things a step can be. -/
theorem stepKeepsInvariant : Obligations.StepKeepsInvariant := fun _ _ => step_inv

/-! ### Safety (R80) -/

/-- Under the invariant a step has a next state, or another producer's command is refused. -/
theorem step_answers (hinv : Inv s) : (∃ t, step s = .next t) ∨ step s = .refused .foreignProducer := by
  by_cases hidle : s.scan.phase = .idle
  · rw [step_of_idle hidle]
    obtain ⟨-, hstay⟩ | ⟨q, rest, -, ⟨-, hexec⟩ | ⟨-, hrefused⟩⟩ := commandStep_cases s
    · exact .inl ⟨s, hstay⟩
    · have hinv' := hinv.accept q rest
      obtain ⟨t, r, hnext, -, -⟩ := command_answersListed hinv'.tx hinv'.rx (requestInstr_command q)
      exact .inl ⟨t, hexec.trans hnext⟩
    · exact .inr hrefused
  · obtain ⟨t, hround, -⟩ := scanStep_round ⟨hinv.rx, hinv.scan⟩ hidle
    exact .inl ⟨t, (step_of_running hidle).trans hround⟩

theorem step_ne_fault (hinv : Inv s) (e : Fault) : step s ≠ .fault e := by
  obtain ⟨t, hnext⟩ | hrefused := step_answers hinv
  · rw [hnext]
    exact nofun
  · rw [hrefused]
    exact nofun

theorem reset_inv (p : Config.Params) : Inv { State.reset with params := p } :=
  RxScanInv.inv (s := { State.reset with params := p }) (.idle destroyedRx_inv rfl) destroyedTx_inv

theorem reachable_inv (h : Reachable s) : Inv s := by
  induction h with
  | reset p => exact reset_inv p
  | issue q h ih => exact ih.issue q
  | step h hs ih => exact step_inv ih hs

/-- Settles O55: reachable states meet the invariant, under which `step_answers`. -/
theorem noBufferFault : Obligations.NoBufferFault := by
  refine ⟨fun s e hinv => step_ne_fault hinv e, fun s h => ⟨reachable_inv h, step_ne_fault (reachable_inv h)⟩,
    fun s e hinv h => ?_⟩
  obtain ⟨t, hnext⟩ | hrefused := step_answers hinv
  · cases hnext.symm.trans h
  · cases hrefused.symm.trans h
    rfl

end

end Sys2Proof.Machine
end

section
/-! The statistics (spec/48 R380 to R392): the relations between the counters, one unit at a time. A receiver record is
only ever added to by updates that count as much ok as out; a transmitter command moves one context. -/

namespace Sys2Proof.Machine

/-! ### Records -/

/-- The nine counters have `w` bits (R35). -/
def CountersFit (w : Nat) (c : Counters) : Prop := ∀ v ∈ countersOf c, v < 2 ^ w

theorem countersFit_zero (w : Nat) : CountersFit w {} := by
  intro v hv
  have hzero : v = 0 := by simpa [countersOf] using hv
  exact hzero ▸ Nat.two_pow_pos w

/-- Adding nothing changes a record whose counters have their width. -/
theorem addCounters_zero {w : Nat} {c : Counters} (h : CountersFit w c) : addCounters w c {} = c := by
  simp only [CountersFit, countersOf, List.forall_mem_cons] at h
  obtain ⟨h0, h1, h2, h3, h4, h5, h6, h7, h8, -⟩ := h
  simp only [addCounters, addCount, Nat.add_zero, Nat.mod_eq_of_lt h0, Nat.mod_eq_of_lt h1, Nat.mod_eq_of_lt h2,
    Nat.mod_eq_of_lt h3, Nat.mod_eq_of_lt h4, Nat.mod_eq_of_lt h5, Nat.mod_eq_of_lt h6, Nat.mod_eq_of_lt h7,
    Nat.mod_eq_of_lt h8]

/-! ### The receiver (R392) -/

/-- What the relations say of one record of the receiver. -/
structure RxRecordOk (w : Nat) (c : Counters) : Prop where
  fits : CountersFit w c
  pkts : c.pktsOk = c.pktsOut
  bytes : c.bytesOk = c.bytesOut

theorem rxRecordOk_zero (w : Nat) : RxRecordOk w {} := ⟨countersFit_zero w, rfl, rfl⟩

theorem RecordKept.rxRecordOk {w : Nat} {c c' : Counters} (h : RecordKept w c c') (hc : RxRecordOk w c) :
    RxRecordOk w c' := by
  obtain rfl | ⟨d, ⟨hpkts, hbytes⟩, rfl⟩ := h
  · exact hc
  · exact ⟨addCounters_width c d, by simp only [addCounters, hc.pkts, hpkts],
      by simp only [addCounters, hc.bytes, hbytes]⟩

def RxAgree (w : Nat) (r : Rx) : Prop := ∀ c, RxRecord r c → RxRecordOk w c

theorem CountsKept.rxAgree {s t : State} (h : CountsKept s t) (hagree : RxAgree s.params.cntW s.rx) :
    RxAgree s.params.cntW t.rx := by
  rintro c (rfl | ⟨g, rfl⟩)
  · exact h.agg.rxRecordOk (hagree _ (.inl rfl))
  · exact (h.cnt g).rxRecordOk (hagree _ (.inr ⟨g, rfl⟩))

/-- A new or destroyed receiver has all its counters 0. -/
theorem rxAgree_of_zero (w : Nat) {r : Rx} (hagg : r.agg = {}) (hctx : ∀ f, rxCtx r f = RxCtx.reset) :
    RxAgree w r := by
  rintro c (rfl | ⟨g, rfl⟩)
  · rw [hagg]
    exact rxRecordOk_zero w
  · rw [hctx]
    exact rxRecordOk_zero w

/-! ### The transmitter (R381 to R383, R392) -/

/-- The packet a transmitter context holds. -/
def pendingPackets (t : Tx) (f : Fid) : Nat := if busyBit t.busy f then 1 else 0

theorem pending_of_free {t : Tx} {f : Fid} (h : busyBit t.busy f = false) :
    pendingPackets t f = 0 ∧ pendingBytes t f = 0 := by simp [pendingPackets, pendingBytes, h]

theorem pending_of_busy {t : Tx} {f : Fid} (h : busyBit t.busy f = true) :
    pendingPackets t f = 1 ∧ pendingBytes t f = (txCtx t f).sduLen.toNat := by simp [pendingPackets, pendingBytes, h]

/-- The counters of a transmitter record that never move (R382). -/
def TxStill (c : Counters) : Prop := c.pktsOk = 0 ∧ c.bytesOk = 0 ∧ c.pktsLost = 0

/-- What the relations say of the transmitter. -/
structure TxAgree (w : Nat) (t : Tx) : Prop where
  fits : ∀ c, TxRecord t c → CountersFit w c
  ctxs : ∀ f, TxBalance w (txCtx t f).cnt (pendingPackets t f) (pendingBytes t f)
  agg : TxBalance w t.agg (allFids.map (pendingPackets t)).sum (allFids.map (pendingBytes t)).sum
  still : ∀ c, TxRecord t c → TxStill c

theorem countersAgree_iff (s : State) :
    CountersAgree s ↔ TxAgree s.params.cntW s.tx ∧ RxAgree s.params.cntW s.rx := by
  constructor
  · intro h
    exact ⟨⟨fun c hc => h.width c (.inl hc), h.txCtxs, h.txAgg, h.txStill⟩,
      fun c hc => ⟨h.width c (.inr hc), (h.rx c hc).1, (h.rx c hc).2⟩⟩
  · rintro ⟨htx, hrx⟩
    exact
      { width := fun c hc => hc.elim (htx.fits c) (fun hc => (hrx c hc).fits)
        txCtxs := htx.ctxs
        txAgg := htx.agg
        txStill := htx.still
        rx := fun c hc => ⟨(hrx c hc).pkts, (hrx c hc).bytes⟩ }

theorem txBalance_zero (w : Nat) : TxBalance w {} 0 0 := ⟨(Nat.zero_mod _).symm, (Nat.zero_mod _).symm⟩

/-- A new or destroyed transmitter has all its counters 0 and no context busy. -/
theorem txAgree_of_zero (w : Nat) {t : Tx} (hbusy : t.busy = 0) (hagg : t.agg = {})
    (hctx : ∀ f, (txCtx t f).cnt = {}) : TxAgree w t := by
  have hfree (f : Fid) := pending_of_free (t := t) (f := f) (by rw [hbusy, busyBit_zero])
  have hrecord (c : Counters) (h : TxRecord t c) : c = {} := by
    obtain rfl | ⟨f, rfl⟩ := h
    · exact hagg
    · exact hctx f
  refine ⟨fun c hc => hrecord c hc ▸ countersFit_zero w, fun f => ?_, ?_, fun c hc => hrecord c hc ▸ ⟨rfl, rfl, rfl⟩⟩
  · obtain ⟨hpackets, hbytes⟩ := hfree f
    rw [hctx, hpackets, hbytes]
    exact txBalance_zero w
  · rw [funext fun f => (hfree f).1, funext fun f => (hfree f).2, hagg]
    exact txBalance_zero w

/-! ### One context moves -/

theorem mod_balance {m a b c p p' da db dc : Nat} (h : a = (b + c + p) % m) (hp : p' + (db + dc) = p + da) :
    (a + da) % m = ((b + db) % m + (c + dc) % m + p') % m :=
  calc (a + da) % m = (b + c + p + da) % m := by rw [h, Nat.mod_add_mod]
    _ = (b + db + (c + dc) + p') % m := by congr 1; omega
    _ = _ := (((Nat.mod_modEq _ _).add (Nat.mod_modEq _ _)).add_right p').symm

theorem TxBalance.add {w : Nat} {c d : Counters} {packets bytes packets' bytes' : Nat}
    (h : TxBalance w c packets bytes) (hpackets : packets' + (d.pktsOut + d.pktsDropped) = packets + d.pktsIn)
    (hbytes : bytes' + (d.bytesOut + d.bytesDropped) = bytes + d.bytesIn) :
    TxBalance w (addCounters w c d) packets' bytes' :=
  ⟨mod_balance h.1 hpackets, mod_balance h.2 hbytes⟩

theorem TxStill.add {c d : Counters} (h : TxStill c) (hd : TxStill d) (w : Nat) : TxStill (addCounters w c d) := by
  obtain ⟨hpkts, hbytes, hlost⟩ := h
  obtain ⟨hpkts', hbytes', hlost'⟩ := hd
  simp [TxStill, addCounters, addCount, hpkts, hbytes, hlost, hpkts', hbytes', hlost']

theorem mem_allFids : ∀ f : Fid, f ∈ allFids := by decide

/-- A sum over the eight contexts where one summand changes. -/
theorem sum_allFids_update {a b : Fid → Nat} {f : Fid} {x y : Nat} (hother : ∀ g, g ≠ f → b g = a g)
    (h : b f + x = a f + y) : (allFids.map b).sum + x = (allFids.map a).sum + y := by
  have hmem : f ∈ allFids := mem_allFids f
  have hnodup : allFids.Nodup := by decide
  have hrest : (allFids.erase f).map b = (allFids.erase f).map a :=
    List.map_congr_left fun g hg => hother g (hnodup.mem_erase_iff.mp hg).1
  rw [← List.sum_map_erase b hmem, ← List.sum_map_erase a hmem, hrest]
  omega

/-- Context `f` moves: it and the aggregate are added `d`, which accounts for what the context holds then. -/
structure TxMoved (w : Nat) (f : Fid) (d : Counters) (t t' : Tx) : Prop where
  same : TxSameBut f t t'
  agg : t'.agg = addCounters w t.agg d
  cnt : (txCtx t' f).cnt = addCounters w (txCtx t f).cnt d
  still : TxStill d
  packets : pendingPackets t' f + (d.pktsOut + d.pktsDropped) = pendingPackets t f + d.pktsIn
  bytes : pendingBytes t' f + (d.bytesOut + d.bytesDropped) = pendingBytes t f + d.bytesIn

section
variable {w : Nat} {f : Fid} {d : Counters} {t t' : Tx}

theorem TxMoved.pending_ne (h : TxMoved w f d t t') {g : Fid} (hg : g ≠ f) :
    pendingPackets t' g = pendingPackets t g ∧ pendingBytes t' g = pendingBytes t g := by
  simp only [pendingPackets, pendingBytes, h.same.busy g hg, h.same.ctx g hg, and_self]

theorem TxMoved.record (h : TxMoved w f d t t') {c : Counters} (hc : TxRecord t' c) :
    TxRecord t c ∨ ∃ c0, TxRecord t c0 ∧ c = addCounters w c0 d := by
  obtain rfl | ⟨g, rfl⟩ := hc
  · exact .inr ⟨_, .inl rfl, h.agg⟩
  · by_cases hg : g = f
    · subst hg
      exact .inr ⟨_, .inr ⟨g, rfl⟩, h.cnt⟩
    · exact .inl (.inr ⟨g, congrArg TxCtx.cnt (h.same.ctx g hg)⟩)

theorem TxAgree.moved (hagree : TxAgree w t) (h : TxMoved w f d t t') : TxAgree w t' where
  fits c hc := by
    obtain hold | ⟨c0, -, rfl⟩ := h.record hc
    · exact hagree.fits c hold
    · exact addCounters_width c0 d
  ctxs g := by
    by_cases hg : g = f
    · subst hg
      rw [h.cnt]
      exact (hagree.ctxs g).add h.packets h.bytes
    · obtain ⟨hpackets, hbytes⟩ := h.pending_ne hg
      rw [hpackets, hbytes, h.same.ctx g hg]
      exact hagree.ctxs g
  agg := by
    rw [h.agg]
    exact hagree.agg.add (sum_allFids_update (fun g hg => (h.pending_ne hg).1) h.packets)
      (sum_allFids_update (fun g hg => (h.pending_ne hg).2) h.bytes)
  still c hc := by
    obtain hold | ⟨c0, hc0, rfl⟩ := h.record hc
    · exact hagree.still c hold
    · exact (hagree.still c0 hc0).add h.still w

/-- The registers of a context are written, neither its counters nor what it holds. -/
theorem TxAgree.setTxCtx (hagree : TxAgree w t) {c : TxCtx} (hcnt : c.cnt = (txCtx t f).cnt)
    (hlen : c.sduLen = (txCtx t f).sduLen) : TxAgree w (setTxCtx t f c) := by
  refine hagree.moved (f := f) (d := {}) ⟨setTxCtx_sameBut .., ?_, ?_, ⟨rfl, rfl, rfl⟩, rfl, ?_⟩
  · exact (addCounters_zero (hagree.fits _ (.inl rfl))).symm
  · rw [txCtx_setTxCtx_same, hcnt, addCounters_zero (hagree.fits _ (.inr ⟨f, rfl⟩))]
  · rw [pendingBytes, txCtx_setTxCtx_same, hlen]
    rfl

/-- A busy context is released; its SDU is counted as sent or as dropped. -/
theorem TxAgree.release (hagree : TxAgree w t) (hbusy : busyBit t.busy f = true) (hstill : TxStill d)
    (hpackets : d.pktsOut + d.pktsDropped = 1 + d.pktsIn)
    (hbytes : d.bytesOut + d.bytesDropped = (txCtx t f).sduLen.toNat + d.bytesIn) : TxAgree w (releaseTx w t f d) := by
  obtain ⟨hpackets', hbytes'⟩ := pending_of_busy hbusy
  obtain ⟨hnopackets, hnobytes⟩ := pending_of_free (t := releaseTx w t f d) (f := f) (busyBit_clearBusy_same ..)
  refine hagree.moved ⟨releaseTx_sameBut .., rfl, ?_, hstill, ?_, ?_⟩
  · rw [txCtx_releaseTx_same]
    rfl
  · rw [hnopackets, hpackets', Nat.zero_add, hpackets]
  · rw [hnobytes, hbytes', Nat.zero_add, hbytes]

theorem TxAgree.take (hagree : TxAgree w t) (hfree : busyBit t.busy f = false) {c : TxCtx} {n : Nat}
    (hcnt : c.cnt = (txCtx t f).cnt) (hlen : c.sduLen.toNat = n) : TxAgree w (takeTx w t f c n) := by
  obtain ⟨hnopackets, hnobytes⟩ := pending_of_free hfree
  obtain ⟨hpackets, hbytes⟩ := pending_of_busy (takeTx_busyBit w t f c n)
  refine hagree.moved ⟨takeTx_sameBut .., rfl, ?_, ⟨rfl, rfl, rfl⟩, ?_, ?_⟩
  · rw [txCtx_takeTx_same, hcnt]
  · rw [hpackets, hnopackets]
    rfl
  · rw [hbytes, txCtx_takeTx_same, hnobytes, hlen]
    exact (Nat.zero_add n).symm

theorem writeTrailer_kept {p : Config.Params} {c c' : TxCtx} (h : writeTrailer p c = .ok c') :
    c'.cnt = c.cnt ∧ c'.sduLen = c.sduLen := by
  obtain ⟨-, -, -, -, -, rfl⟩ | ⟨-, -, -, rfl⟩ := writeTrailer_cases h
  · exact ⟨rfl, rfl⟩
  · exact ⟨rfl, rfl⟩

theorem TxAgree.emit {p : Config.Params} {burst : Nat} {e : Emission} (hagree : TxAgree p.cntW t)
    (h : emit p t f burst = .ok e) : TxAgree p.cntW e.tx := by
  cases emit_cases h with
  | nullTrmt | nInitBuf | timeout | firstTooSmall | laterTooSmall => exact hagree
  | comp hready | endPpdu hready => exact hagree.release hready.busy ⟨rfl, rfl, rfl⟩ rfl rfl
  | tooMuchFrag hready => exact hagree.release hready.busy ⟨rfl, rfl, rfl⟩ rfl (Nat.zero_add _)
  | start hready hfrag hfits hb c hwrite =>
    obtain ⟨hcnt, hlen⟩ := writeTrailer_kept hwrite
    exact hagree.setTxCtx hcnt hlen
  | cont => exact hagree.setTxCtx rfl rfl

theorem TxAgree.serveSched {p : Config.Params} {size : Nat} {sched : List Fid} {k k' : Packing}
    (hagree : TxAgree p.cntW k.tx) (h : serveSched p size sched k = .ok k') : TxAgree p.cntW k'.tx := by
  refine serveSched_induction (fun k => TxAgree p.cntW k.tx) (fun f k e hk _ he => ?_) sched hagree h
  have hemit := hk.emit he
  split
  · exact hemit
  · exact hemit
  · exact hemit
  · exact hemit

end

/-! ### The steps -/

section
variable {s t : State}

theorem encapTook_agree {sdu : Bytes} {ptype : Ptype} {f : Fid} {buf : Mem} (h : EncapTook sdu ptype f buf s t)
    (hagree : TxAgree s.params.cntW s.tx) : TxAgree s.params.cntW t.tx := by
  have hsize := h.size
  rw [h.state]
  exact hagree.take h.free rfl (index_toNat (Nat.lt_of_le_of_lt hsize (by decide)))

theorem CommandEffect.counters {i : Instr} (h : CommandEffect s i t) (hagree : CountersAgree s) :
    CountersAgree t := by
  obtain ⟨htx, hrx⟩ := (countersAgree_iff s).mp hagree
  rw [countersAgree_iff]
  cases h with
  | answered => exact ⟨htx, hrx⟩
  | txCreated => exact ⟨txAgree_of_zero _ rfl rfl fun f => congrArg TxCtx.cnt (txCtx_newTx _ f), hrx⟩
  | txDestroyed => exact ⟨txAgree_of_zero _ rfl rfl fun f => congrArg TxCtx.cnt (txCtx_reset f), hrx⟩
  | encapsulated htook =>
    have htx' := encapTook_agree htook htx
    rw [htook.state] at htx' ⊢
    exact ⟨htx', hrx⟩
  | emitted r hemit => exact ⟨htx.emit hemit, hrx⟩
  | packed r hserve => exact ⟨TxAgree.serveSched (k := ⟨s.tx, _, false⟩) htx hserve, hrx⟩
  | rxCreated => exact ⟨htx, rxAgree_of_zero _ rfl (rxCtx_newRx _)⟩
  | rxDestroyed => exact ⟨htx, rxAgree_of_zero _ rfl rxCtx_reset⟩
  | decapsulated hconf hrun =>
    have hparams := ((runScan_keepsParams ..).of_next t hrun).trans (beginScan_params ..)
    have hkept := (beginScan_countsKept ..).trans (beginScan_params ..) (runScan_countsKept hrun)
    rw [hparams, hkept.tx]
    exact ⟨htx, hkept.rxAgree hrx⟩

theorem scanStep_counters (h : scanStep s = .next t) (hagree : CountersAgree s) : CountersAgree t := by
  obtain ⟨htx, hrx⟩ := (countersAgree_iff s).mp hagree
  have hkept := scanStep_countsKept h
  rw [countersAgree_iff, (scanStep_keepsParams s).of_next t h, hkept.tx]
  exact ⟨htx, hkept.rxAgree hrx⟩

theorem CountersAgree.accept (h : CountersAgree s) (q : Request) (rest : List Request) :
    CountersAgree (accept q rest s) := ⟨h.width, h.txCtxs, h.txAgg, h.txStill, h.rx⟩

/-- Settles O59: by the three things a step can be. -/
theorem stepKeepsCounters : Obligations.StepKeepsCounters := by
  intro s t _ hagree h
  obtain rfl | ⟨q, rest, heffect⟩ | ⟨-, hround⟩ := step_next_cases h
  · exact hagree
  · exact heffect.counters (hagree.accept q rest)
  · exact scanStep_counters hround hagree

/-- Settles O53: at reset no context is busy and every counter is 0. -/
theorem resetMeetsInvariant : Obligations.ResetMeetsInvariant := fun p =>
  ⟨reset_inv p, (countersAgree_iff _).mpr
    ⟨txAgree_of_zero _ rfl rfl fun f => congrArg TxCtx.cnt (txCtx_reset f), rxAgree_of_zero _ rfl rxCtx_reset⟩⟩

end

end Sys2Proof.Machine
end

section
/-! DECAP as one step and as the run of its units (spec/46 R301, R307, spec/20 R86), and what a step executes (spec/30
R116, spec/46 R302, R304, spec/47 R350, spec/20 R87). -/

namespace Sys2Proof.Machine

open Host (Outcome)

/-! ### DECAP (R301, R307) -/

section
variable {s t : State}

theorem exec_decap_of_configured (h : s.rx.configured = true) (fpdu : Bytes) :
    exec (.decap (some fpdu)) s = runScan (scanRounds fpdu) (beginScan fpdu s) := if_pos h

theorem runScan_of_idle (h : s.scan.phase = .idle) (rounds : Nat) : runScan rounds s = .next s := by
  cases rounds with
  | zero => rfl
  | succ rounds => exact if_pos h

/-- Settles O45: the scan has ended before its first round. -/
theorem decapShortFpdu : Obligations.DecapShortFpdu := by
  intro s fpdu hconf hshort
  have hexec : exec (.decap (some fpdu)) s = .next (endTruncated (setOff 0 (scanBegun fpdu s))) := by
    rw [exec_decap_of_configured hconf, beginScan_of_short hshort]
    exact runScan_of_idle rfl _
  refine ⟨_, hexec, ⟨rfl, rfl, rfl, rfl⟩, ⟨rfl, rfl, rfl⟩, rfl, endTruncated_response _, ?_⟩
  rw [endTruncated_rx]
  exact ⟨rfl, rfl, rxCtx_clearBursts s.rx, rfl⟩

/-- The rounds of a scan that ends are the steps of its units. -/
theorem scanRun_of_runScan {rounds : Nat} (h : runScan rounds s = .next t) (hidle : t.scan.phase = .idle) :
    ScanRun s t := by
  induction rounds generalizing s with
  | zero =>
    cases h
    exact .ended hidle
  | succ rounds ih =>
    unfold runScan at h
    split_ifs at h with hended
    · cases h
      exact .ended hended
    · split at h
      case h_1 u hround => exact .unit hended ((step_of_running hended).trans hround) (ih h)
      case h_2 | h_3 => cases h

/-- A scan has one end. -/
theorem ScanRun.unique {u u' : State} (h : ScanRun s u) (h' : ScanRun s u') : u' = u := by
  induction h with
  | ended hidle =>
    cases h' with
    | ended => rfl
    | unit hrunning => exact absurd hidle hrunning
  | unit hrunning hstep hrun ih =>
    cases h' with
    | ended hidle => exact absurd hidle hrunning
    | unit hrunning' hstep' hrun' =>
      cases hstep.symm.trans hstep'
      exact ih hrun'

/-- Settles O47: the run begins where `beginScan` leaves the scan. -/
theorem decapRunsItsUnits : Obligations.DecapRunsItsUnits := by
  intro s fpdu hinv hconf hlabel
  obtain ⟨t, hexec, -, hidle, -⟩ := execDecap_done hinv hconf fpdu
  have hrun := scanRun_of_runScan ((exec_decap_of_configured hconf fpdu).symm.trans hexec) hidle
  rw [beginScan_of_label hlabel] at hrun
  exact ⟨t, setOff (implicitPayloadLabelSize s.rx.cfg) (scanBegun fpdu s), ⟨rfl, rfl, rfl⟩, hconf, rfl, rfl, rfl,
    rxCtx_clearBursts s.rx, rfl, rfl, hexec, hrun, fun t' hrun' => hrun.unique hrun'⟩

end

/-! ### What a step executes (R86, R116, R307) -/

section
variable {s : State}

theorem step_of_fetch {i : Instr} (hrunning : s.scan.phase ≠ .idle) (hfetch : fetchUnit s = .ok i) :
    step s = exec i s := by
  rw [step, if_neg hrunning, unitStep, hfetch]

theorem step_of_fetch_error {e : DecodeError} (hrunning : s.scan.phase ≠ .idle) (hfetch : fetchUnit s = .error e) :
    step s = .next (onDecodeError e s) := by
  rw [step, if_neg hrunning, unitStep, hfetch]

/-- What stands at the scan's place: the bytes and the site they are decoded at. -/
theorem fetchUnit_of_header (h : s.scan.phase = .header) :
    fetchUnit s =
      (decodeWith s.params.ppduLayout .ppdu (s.scan.fpdu.drop s.rx.off)).map (fun r => r.1) := by
  rw [fetchUnit, h]

theorem fetchUnit_of_trailer {f : Fid} {alpdu trl : Bytes} {len prior : Nat}
    (h : s.scan.phase = .trailer f alpdu trl len prior) :
    fetchUnit s = (decode (.trailer (rxCtx s.rx f).useCrc) trl).map (fun r => r.1) := by
  rw [fetchUnit, h]

theorem fetchUnit_of_alpdu {f : Option Fid} {alpdu : Bytes} {lt : LabelType} {pts : Bool} {len prior : Nat}
    (h : s.scan.phase = .alpdu f alpdu lt pts len prior) :
    fetchUnit s = (decode (.alpduHdr pts (useCompressedPtype s.rx.cfg)) alpdu).map (fun r => r.1) := by
  rw [fetchUnit, h]

theorem running_of_header (h : s.scan.phase = .header) : s.scan.phase ≠ .idle := h ▸ nofun

theorem running_of_trailer {f : Fid} {alpdu trl : Bytes} {len prior : Nat}
    (h : s.scan.phase = .trailer f alpdu trl len prior) : s.scan.phase ≠ .idle := h ▸ nofun

theorem running_of_alpdu {f : Option Fid} {alpdu : Bytes} {lt : LabelType} {pts : Bool} {len prior : Nat}
    (h : s.scan.phase = .alpdu f alpdu lt pts len prior) : s.scan.phase ≠ .idle := h ▸ nofun

theorem step_of_decoded_header {i : Instr} {rest : Bytes} (h : s.scan.phase = .header)
    (hdecode : decodeWith s.params.ppduLayout .ppdu (s.scan.fpdu.drop s.rx.off) = .ok (i, rest)) :
    step s = exec i s :=
  step_of_fetch (running_of_header h) (by rw [fetchUnit_of_header h, hdecode]; rfl)

theorem step_of_decoded_trailer {i : Instr} {rest : Bytes} {f : Fid} {alpdu trl : Bytes} {len prior : Nat}
    (h : s.scan.phase = .trailer f alpdu trl len prior)
    (hdecode : decode (.trailer (rxCtx s.rx f).useCrc) trl = .ok (i, rest)) : step s = exec i s :=
  step_of_fetch (running_of_trailer h) (by rw [fetchUnit_of_trailer h, hdecode]; rfl)

theorem step_of_decoded_alpdu {i : Instr} {rest : Bytes} {f : Option Fid} {alpdu : Bytes} {lt : LabelType} {pts : Bool}
    {len prior : Nat} (h : s.scan.phase = .alpdu f alpdu lt pts len prior)
    (hdecode : decode (.alpduHdr pts (useCompressedPtype s.rx.cfg)) alpdu = .ok (i, rest)) : step s = exec i s :=
  step_of_fetch (running_of_alpdu h) (by rw [fetchUnit_of_alpdu h, hdecode]; rfl)

/-- A command byte carries the code of its request in its low four bits (R116). -/
theorem decode_command_byte (q : Request) :
    decode (.command q.operands) [q.code.setWidth 8] = .ok (requestInstr q, []) := by
  have hhigh : (q.code.setWidth 8).extractLsb' 4 4 = 0 := by
    apply BitVec.eq_of_getLsbD_eq
    intro i hi
    simp
  have hlow : (q.code.setWidth 8).extractLsb' 0 4 = q.code := by
    apply BitVec.eq_of_getLsbD_eq
    intro i hi
    simp [hi, show i < 8 by omega]
  exact (if_pos hhigh).trans (by rw [hlow]; rfl)

theorem step_of_allowed {q : Request} {rest : List Request} (hidle : s.scan.phase = .idle)
    (hrequests : s.host.requests = q :: rest) (hallowed : allowedTo s q.producer (requestInstr q) = true) :
    step s = exec (requestInstr q) (accept q rest s) := by
  rw [step_of_idle hidle, commandStep, hrequests]
  exact if_pos hallowed

theorem step_of_not_allowed {q : Request} {rest : List Request} (hidle : s.scan.phase = .idle)
    (hrequests : s.host.requests = q :: rest) (hforeign : ¬ allowedTo s q.producer (requestInstr q) = true) :
    step s = .refused .foreignProducer := by
  rw [step_of_idle hidle, commandStep, hrequests]
  exact if_neg hforeign

/-- Settles O50: the four places a step fetches from. -/
theorem stepRunsDecoded : Obligations.StepRunsDecoded := by
  refine ⟨fun s q rest i hidle hrequests hdecode hallowed => ?_,
    fun s i rest hphase hdecode => step_of_decoded_header hphase hdecode,
    fun s i rest f alpdu trl len prior hphase hdecode => step_of_decoded_trailer hphase hdecode,
    fun s i rest f alpdu lt pts len prior hphase hdecode => step_of_decoded_alpdu hphase hdecode⟩
  cases (decode_command_byte q).symm.trans hdecode
  exact step_of_allowed hidle hrequests hallowed

/-! ### Where no unit can be decoded (R302, R304, R350) -/

theorem toNat_div_64_of_start {b : Byte} (h : isStartByte b = true) : b.toNat / 64 = 2 := by
  have hbits := congrArg BitVec.toNat ((isStartByte_iff b).mp h)
  rw [toNat_extract, BitVec.toNat_ofNat] at hbits
  have hlt := b.isLt
  omega

theorem not_start_of_toNat_div_64 {b : Byte} (h : b.toNat / 64 ≠ 2) : isStartByte b = false :=
  Bool.eq_false_iff.mpr fun hstart => h (toNat_div_64_of_start hstart)

theorem isStartByte_of_toNat_div_64 {b : Byte} (h : b.toNat / 64 = 2) : isStartByte b = true := by
  refine (isStartByte_iff b).mpr (BitVec.eq_of_toNat_eq ?_)
  rw [toNat_extract, BitVec.toNat_ofNat]
  omega

/-- R304: a header of four bytes for a START, of two for the others, runs past the end. -/
theorem decodePpduWith_of_cut (l : Config.PpduLayout) {b : Byte} {rest : Bytes} (hpad : b ≠ 0)
    (hcut : rest.length < if b.toNat / 64 = 2 then 3 else 1) :
    decodePpduWith l (b :: rest) = .error .truncatedHeader := by
  refine (if_neg hpad).trans ?_
  by_cases hstart : b.toNat / 64 = 2
  · rw [if_pos hstart] at hcut
    refine (if_pos (isStartByte_of_toNat_div_64 hstart)).trans ?_
    split
    case h_1 =>
      simp only [List.length_cons] at hcut
      omega
    case h_2 => rfl
  · rw [if_neg hstart, Nat.lt_one_iff, List.length_eq_zero_iff] at hcut
    refine (if_neg (Bool.eq_false_iff.mp (not_start_of_toNat_div_64 hstart))).trans ?_
    rw [hcut]

/-- R350: neither form of the protocol-type field fits the ALPDU. -/
theorem decodeAlpduHdr_of_short {useCompressed : Bool} {alpdu : Bytes}
    (hshort : if useCompressed = true then alpdu = [] ∨ alpdu.head? = some 0xff ∧ alpdu.length < 3
      else alpdu.length < 2) : decodeAlpduHdr false useCompressed alpdu = .error .ptypeFieldTooShort := by
  refine (if_neg Bool.false_ne_true).trans ?_
  cases useCompressed with
  | true =>
    obtain rfl | ⟨hcode, hlen⟩ := hshort
    · rfl
    · match alpdu with
      | [] => rfl
      | [code] =>
        cases hcode
        rfl
      | [code, lo] =>
        cases hcode
        rfl
      | code :: lo :: hi :: rest =>
        simp only [List.length_cons] at hlen
        omega
  | false =>
    match alpdu with
    | [] => rfl
    | [lo] => rfl
    | lo :: hi :: rest =>
      have hlen : (lo :: hi :: rest).length < 2 := hshort
      simp only [List.length_cons] at hlen
      omega

theorem dropRouted_of_alpdu {f : Option Fid} {alpdu : Bytes} {lt : LabelType} {pts : Bool} {len prior : Nat}
    (h : s.scan.phase = .alpdu f alpdu lt pts len prior) (reason : DropReason) :
    dropRouted reason s = setPhase .header (takeDrop f reason len prior s) := by
  rw [dropRouted, h]

/-- Settles O51: the three decode errors and what the scan does on each. -/
theorem stepWithoutUnit : Obligations.StepWithoutUnit := by
  refine ⟨fun s hphase hend => ?_, fun s b rest hphase hdrop hpad hcut => ?_,
    fun s f alpdu lt len prior hphase hprior hshort => ?_⟩
  · have hfetch : fetchUnit s = .error .endOfFpdu := by
      rw [fetchUnit_of_header hphase, hend, List.drop_length]
      rfl
    exact ⟨_, step_of_fetch_error (running_of_header hphase) hfetch, rfl, rfl, rfl, ⟨rfl, rfl, rfl⟩,
      finishScan_response s⟩
  · have hfetch : fetchUnit s = .error .truncatedHeader := by
      rw [fetchUnit_of_header hphase, hdrop, decodeWith, decodePpduWith_of_cut _ hpad hcut]
      rfl
    have hleft : s.scan.fpdu.length - s.rx.off = rest.length + 1 := by
      rw [← List.length_drop, hdrop, List.length_cons]
    exact ⟨_, step_of_fetch_error (running_of_header hphase) hfetch, endTruncated_sameButAgg s,
      (endTruncated_agg s).trans (by rw [hleft]), rfl, rfl, endTruncated_queueKept s, endTruncated_response s⟩
  · have hfetch : fetchUnit s = .error .ptypeFieldTooShort := by
      rw [fetchUnit_of_alpdu hphase, decode, decodeWith, decodeAlpduHdr_of_short hshort]
      rfl
    refine ⟨_, step_of_fetch_error (running_of_alpdu hphase) hfetch, ?_⟩
    rw [onDecodeError, dropRouted_of_alpdu hphase]
    exact deliveryDrop_droppedBy rfl rfl hprior ..

/-! ### The single-writer rule (R87) -/

/-- The fragment-ids a command names, as the rule lists them. -/
theorem mem_namedFids_iff (i : Instr) (f : Fid) :
    f ∈ namedFids i ↔ (∃ b, i = .emit f b) ∨ i = .dumpAlpdu f ∨ ∃ n l fs, i = .pack n l fs ∧ f ∈ fs := by
  cases i with
  | emit g b => simp [namedFids, eq_comm]
  | dumpAlpdu g => simp [namedFids, eq_comm]
  | pack n l fs => simp [namedFids]
  | pad | comp | start | cont | endPpdu | ptOmit | ptComp | ptFallback | ptUncomp | trlSeq | trlCrc | txNew | txDestroy
  | encap | txStat | rxNew | rxDestroy | decap | rxStat | hdrsz | reserved12 | reserved13 | reserved14 | reserved15 =>
    simp [namedFids]

theorem mayName_iff (s : State) (producer : Nat) (f : Fid) :
    mayName s producer f = true ↔ busyBit s.tx.busy f = false ∨ s.host.owner[f.toNat]'f.isLt = producer := by
  simp [mayName]

theorem allowedTo_iff (s : State) (producer : Nat) (i : Instr) :
    allowedTo s producer i = true ↔
      ∀ f ∈ namedFids i, busyBit s.tx.busy f = false ∨ s.host.owner[f.toNat]'f.isLt = producer := by
  simp only [allowedTo, List.all_eq_true, mayName_iff]

/-- Settles O52: an accepted ENCAP is `EncapTook`, which records the owner; a command is allowed as `allowedTo_iff`
says. -/
theorem foreignProducerRefused : Obligations.ForeignProducerRefused := by
  refine ⟨fun s t sdu ptype f hexec hok => ?_, fun s q rest names hidle hrequests hnames => ⟨fun hown => ?_,
    fun f hf hbusy hforeign => ?_⟩⟩
  · obtain ⟨_, _, _, htook⟩ := encapTook_of_answered hexec hok
    rw [htook.state]
    rfl
  · refine step_of_allowed hidle hrequests ((allowedTo_iff ..).mpr fun f hf => hown f ?_)
    exact (hnames f).mpr ((mem_namedFids_iff ..).mp hf)
  · refine step_of_not_allowed hidle hrequests fun hallowed => ?_
    obtain hfree | hown := (allowedTo_iff ..).mp hallowed f ((mem_namedFids_iff ..).mpr ((hnames f).mp hf))
    · exact Bool.eq_false_iff.mp hfree hbusy
    · exact hforeign hown

end

end Sys2Proof.Machine
end

section
/-! The round trip (spec/41 R178, spec/46 R315, spec/47 R355), the transmitter's half: the PPDUs that EMITs make of a
pending ALPDU are one COMP, or a START, CONTs and an END that cut the ALPDU and its trailer in their order. -/

namespace Sys2Proof.Machine

/-! ### The PPDUs of an ALPDU (spec/44 R243 to R250) -/

/-- What the PPDUs of one ALPDU share: their layout and fragment-id, the fields of the first header, the ALPDU and its
trailer. -/
structure Shipment where
  layout : Config.PpduLayout
  fid : Fid
  lt : LabelType
  pts : Bool
  useCrc : Bool
  alpdu : Bytes
  trailer : Bytes

namespace Shipment

variable (a : Shipment)

def compPpdu : Bytes := encodeWith a.layout (.comp a.lt a.pts (BitVec.ofNat 11 a.alpdu.length)) ++ a.alpdu

def startPpdu (n : Nat) : Bytes :=
  encodeWith a.layout (.start a.lt a.pts (BitVec.ofNat 11 n) a.fid (index a.alpdu.length) a.useCrc) ++ a.alpdu.take n

def contPpdu (k n : Nat) : Bytes := encodeWith a.layout (.cont (BitVec.ofNat 11 n) a.fid) ++ (a.alpdu.drop k).take n

/-- How many payload bytes an END has that comes after `k` bytes. -/
def endLen (k : Nat) : Nat := a.alpdu.length - k + a.trailer.length

def endPpdu (k : Nat) : Bytes :=
  encodeWith a.layout (.endPpdu (BitVec.ofNat 11 (a.endLen k)) a.fid) ++ (a.alpdu.drop k ++ a.trailer)

end Shipment

/-- PPDUs that carry on after `k` bytes of the ALPDU, to its END. -/
inductive Fragments (a : Shipment) : Nat → List Bytes → Prop where
  | last {k : Nat} (hk : k ≤ a.alpdu.length) (hlen : a.endLen k ≤ ppduLenMax) : Fragments a k [a.endPpdu k]
  | more {k n : Nat} {ppdus : List Bytes} (hk : k + n ≤ a.alpdu.length) (hlen : n ≤ ppduLenMax)
      (hrest : Fragments a (k + n) ppdus) : Fragments a k (a.contPpdu k n :: ppdus)

/-- All PPDUs of the ALPDU. -/
inductive Ppdus (a : Shipment) : List Bytes → Prop where
  | whole (hlen : a.alpdu.length ≤ ppduLenMax) : Ppdus a [a.compPpdu]
  | parts {n : Nat} {ppdus : List Bytes} (hn : n ≤ a.alpdu.length) (hlen : n ≤ ppduLenMax)
      (htotal : a.alpdu.length < 4096) (hrest : Fragments a n ppdus) : Ppdus a (a.startPpdu n :: ppdus)

/-! ### A pending ALPDU and one being sent -/

/-- The context holds `alpdu` and has emitted nothing of it (R221). -/
structure Pending (c : TxCtx) (alpdu : Bytes) : Prop where
  fresh : c.isFragmented = false
  read : memRead fragBufLen c.buf c.head.toNat (alpduLen c) = .ok alpdu
  headLe : c.head.toNat ≤ c.sduEnd.toNat
  room : c.sduEnd.toNat ≤ alpduHdrMax + sduMax

/-- What is sent of the ALPDU a context holds. -/
def shipment (p : Config.Params) (c : TxCtx) (f : Fid) (alpdu : Bytes) : Shipment where
  layout := p.ppduLayout
  fid := f
  lt := c.lt
  pts := c.pts
  useCrc := c.useCrc
  alpdu := alpdu
  trailer := startTrailer p c alpdu

/-- `k` bytes of the ALPDU have been sent; ALPDU and trailer stand in the buffer from `head` on (R245, R248). -/
structure Sending (a : Shipment) (k : Nat) (c : TxCtx) : Prop where
  fragmented : c.isFragmented = true
  read : memRead fragBufLen c.buf c.head.toNat (a.alpdu.length + a.trailer.length) = .ok (a.alpdu ++ a.trailer)
  sduEnd : c.sduEnd.toNat = c.head.toNat + a.alpdu.length
  tail : c.tail.toNat = c.sduEnd.toNat + a.trailer.length
  cursor : c.cursor.toNat = c.head.toNat + k
  sent : k ≤ a.alpdu.length

theorem startTrailer_length (p : Config.Params) (c : TxCtx) (alpdu : Bytes) :
    (startTrailer p c alpdu).length = trlLen c.useCrc := by
  cases hcrc : c.useCrc with
  | true => simp [startTrailer, hcrc, le32, trlLen]
  | false => simp [startTrailer, hcrc, trlLen]

/-- A read inside the range of another gives a part of its bytes. -/
theorem memRead_slice {size off n k j : Nat} {m : Mem} {bytes : Bytes} (h : memRead size m off n = .ok bytes)
    (hfits : k + j ≤ n) : memRead size m (off + k) j = .ok ((bytes.drop k).take j) := by
  obtain ⟨hlen, hbyte⟩ := memRead_ok_iff.mp h
  refine memRead_ok_iff.mpr ⟨by rw [List.length_take, List.length_drop]; omega, fun i hi => ?_⟩
  rw [List.getElem?_take_of_lt hi, List.getElem?_drop, Nat.add_assoc]
  exact hbyte (k + i) (by omega)

section
variable {p : Config.Params} {t : Tx} {f : Fid} {burst : Nat} {e : Emission} {alpdu : Bytes}

theorem Pending.length {c : TxCtx} (h : Pending c alpdu) : alpduLen c = alpdu.length := (memRead_length h.read).symm

theorem Pending.sduEnd {c : TxCtx} (h : Pending c alpdu) : c.sduEnd.toNat = c.head.toNat + alpdu.length := by
  have hle := h.headLe
  rw [← h.length, alpduLen]
  omega

/-- The trailer of a START is written behind the ALPDU, which stays. -/
theorem Pending.sending {c : TxCtx} (h : Pending c alpdu) (p : Config.Params) (f : Fid) {n : Nat}
    (hn : n ≤ alpdu.length) :
    ∃ c', writeTrailer p c = .ok c' ∧ c'.head = c.head ∧ alpduLen c' = alpduLen c ∧ c'.lt = c.lt ∧ c'.pts = c.pts ∧
      c'.useCrc = c.useCrc ∧
      Sending (shipment p c f alpdu) n
        { c' with cursor := index (c'.head.toNat + n), isFragmented := true, fragCount := 1 } := by
  have hend := h.sduEnd
  have hroom := h.room
  have htrl := startTrailer_length p c alpdu
  obtain ⟨-, htrl4⟩ := trlLen_le c.useCrc
  obtain ⟨buf, hwrite, htrailer⟩ := writeTrailer_stores (p := p) h.read
    (by rw [htrl, fragBufLen]; simp only [alpduHdrMax, sduMax] at hroom; omega)
  have hread : memRead fragBufLen buf c.head.toNat (alpduLen c) = .ok alpdu := by
    rw [memRead_memWrite_disjoint hwrite (.inl (by rw [h.length, ← hend])), h.read]
  have hboth := memRead_append hread (by rw [h.length, ← hend]; exact memRead_memWrite_same hwrite)
  rw [h.length] at hboth
  simp only [alpduHdrMax, sduMax] at hroom
  refine ⟨_, htrailer, rfl, rfl, rfl, rfl, rfl, rfl, hboth, hend, ?_, ?_, hn⟩
  · exact index_toNat (by omega)
  · exact index_toNat (n := c.head.toNat + n) (by omega)

/-- The first EMIT sends the whole ALPDU or a START. -/
theorem Pending.emit (h : Pending (txCtx t f) alpdu) (hemit : emit p t f burst = .ok e) :
    (e.status = .okAndDone → Ppdus (shipment p (txCtx t f) f alpdu) [e.ppdu]) ∧
    (e.status = .ok → ∃ n, n ≤ alpdu.length ∧ n ≤ ppduLenMax ∧ alpdu.length < 4096 ∧
      e.ppdu = (shipment p (txCtx t f) f alpdu).startPpdu n ∧
      Sending (shipment p (txCtx t f) f alpdu) n (txCtx e.tx f)) := by
  cases emit_cases hemit with
  | nullTrmt | nInitBuf | timeout | firstTooSmall | laterTooSmall | tooMuchFrag => exact ⟨nofun, nofun⟩
  | comp hready hfrag hfits payload hread =>
    obtain ⟨hmax, -⟩ := hfits
    cases h.read.symm.trans hread
    rw [h.length] at hmax ⊢
    exact ⟨fun _ => .whole hmax, nofun⟩
  | start hready hfrag hfits hb c hwrite payload hread =>
    obtain ⟨-, hshort, hmax, -⟩ := startLen_bounds hfits hb
    rw [h.length] at hshort
    obtain ⟨c', hwrite', hhead, hlen, hlt, hpts, hcrc, hsending⟩ := h.sending p f (Nat.le_of_lt hshort)
    cases hwrite'.symm.trans hwrite
    refine ⟨nofun, fun _ => ⟨startLen burst, Nat.le_of_lt hshort, hmax, ?_, ?_, ?_⟩⟩
    · have hroom := h.room
      have hend := h.sduEnd
      simp only [alpduHdrMax, sduMax] at hroom
      omega
    · have hslice := memRead_slice (k := 0) (j := startLen burst) hsending.read (Nat.le_add_right_of_le (by
        rw [Nat.zero_add]; exact Nat.le_of_lt hshort))
      cases hslice.symm.trans hread
      have htake : (alpdu ++ startTrailer p (txCtx t f) alpdu).take (startLen burst) = alpdu.take (startLen burst) :=
        List.take_append_of_le_length (Nat.le_of_lt hshort)
      rw [hlt, hpts, hcrc, hlen, h.length]
      exact congrArg (_ ++ ·) htake
    · rw [txCtx_setTxCtx_same]
      exact hsending
  | endPpdu hready hfrag => cases hfrag.symm.trans h.fresh
  | cont hready hfrag => cases hfrag.symm.trans h.fresh

/-- A later EMIT sends the END or a CONT. -/
theorem Sending.emit {a : Shipment} {k : Nat} (h : Sending a k (txCtx t f)) (hfid : a.fid = f)
    (hlayout : a.layout = p.ppduLayout) (hemit : emit p t f burst = .ok e) :
    (e.status = .okAndDone → Fragments a k [e.ppdu]) ∧
    (e.status = .ok → ∃ n, k + n ≤ a.alpdu.length ∧ n ≤ ppduLenMax ∧ e.ppdu = a.contPpdu k n ∧
      Sending a (k + n) (txCtx e.tx f)) := by
  have hend := h.sduEnd
  have htail := h.tail
  have hcursor := h.cursor
  have hsent := h.sent
  cases emit_cases hemit with
  | nullTrmt | nInitBuf | timeout | firstTooSmall | laterTooSmall | tooMuchFrag => exact ⟨nofun, nofun⟩
  | comp hready hfrag => cases hfrag.symm.trans h.fragmented
  | start hready hfrag => cases hfrag.symm.trans h.fragmented
  | endPpdu hready hfrag hb hfits hcap payload hread =>
    have hlen : remTotal (txCtx t f) = a.endLen k := by
      rw [remTotal, remAlpdu, Shipment.endLen]
      omega
    obtain ⟨-, hmax⟩ := Nat.le_min.mp hfits
    rw [hlen, hcursor] at hread
    rw [hlen] at hmax
    have hslice := memRead_slice (k := k) (j := a.endLen k) h.read (by rw [Shipment.endLen]; omega)
    cases hslice.symm.trans hread
    have hall : ((a.alpdu ++ a.trailer).drop k).take (a.endLen k) = a.alpdu.drop k ++ a.trailer := by
      rw [List.drop_append_of_le_length hsent, List.take_of_length_le]
      rw [List.length_append, List.length_drop, Shipment.endLen]
    rw [hlen, hall, ← hfid, ← hlayout]
    exact ⟨fun _ => .last hsent hmax, nofun⟩
  | cont hready hfrag hb hfits hpos hcap payload hread =>
    obtain ⟨hrem, hmax, -⟩ := contLen_bounds (t := t) (f := f) (burst := burst)
    rw [remAlpdu] at hrem
    have hfit : k + contLen t f burst ≤ a.alpdu.length := by omega
    rw [hcursor] at hread
    have hslice := memRead_slice (k := k) (j := contLen t f burst) h.read (by omega)
    cases hslice.symm.trans hread
    refine ⟨nofun, fun _ => ⟨contLen t f burst, hfit, hmax, ?_, ?_⟩⟩
    · rw [List.drop_append_of_le_length hsent, List.take_append_of_le_length (by rw [List.length_drop]; omega), ← hfid,
        ← hlayout]
      rfl
    · rw [txCtx_setTxCtx_same]
      have hnext : (index ((txCtx t f).cursor.toNat + contLen t f burst)).toNat =
          (txCtx t f).head.toNat + (k + contLen t f burst) := by
        rw [index_toNat (by omega)]
        omega
      exact ⟨h.fragmented, h.read, hend, htail, hnext, hfit⟩

end

/-! ### The run of EMITs -/

section
variable {s t : State} {f : Fid} {ppdus : List Bytes}

theorem exec_emit_answer {burst : Nat} {r : Response} (h : exec (.emit f burst) s = .next t)
    (hr : t.host.response = some r) :
    ∃ e, emit s.params s.tx f burst = .ok e ∧ e.status = r.status ∧ e.ppdu = r.bytes ∧ t.tx = e.tx ∧
      RxUntouched s t := by
  obtain ⟨e, hemit, rfl⟩ := exec_emit_next h
  cases hr
  exact ⟨e, hemit, rfl, rfl, rfl, rfl, rfl, rfl⟩

theorem emitRun_rxUntouched (h : EmitRun f s ppdus t) : RxUntouched s t := by
  induction h with
  | last hs hr =>
    obtain ⟨-, -, -, -, -, hsame⟩ := exec_emit_answer hs hr
    exact hsame
  | more hs hr hd hm ih =>
    obtain ⟨-, -, -, -, -, hsame⟩ := exec_emit_answer hs hr
    exact ⟨ih.rx.trans hsame.rx, ih.scan.trans hsame.scan, ih.params.trans hsame.params⟩

theorem Sending.fragments_of_emitRun {a : Shipment} {k : Nat} (h : Sending a k (txCtx s.tx f)) (hfid : a.fid = f)
    (hlayout : a.layout = s.params.ppduLayout) (hrun : EmitRun f s ppdus t) : Fragments a k ppdus := by
  induction hrun generalizing k with
  | last hs hr hd =>
    obtain ⟨e, hemit, hstatus, hppdu, -, -⟩ := exec_emit_answer hs hr
    obtain ⟨hdone, -⟩ := h.emit hfid hlayout hemit
    exact hppdu ▸ hdone (hstatus.trans hd)
  | more hs hr hd hm ih =>
    obtain ⟨e, hemit, hstatus, hppdu, htx, hsame⟩ := exec_emit_answer hs hr
    obtain ⟨-, hok⟩ := h.emit hfid hlayout hemit
    obtain ⟨n, hfit, hmax, hcont, hsending⟩ := hok (hstatus.trans hd)
    rw [← hppdu, hcont]
    exact .more hfit hmax (ih (htx ▸ hsending) (hsame.params ▸ hlayout))

theorem Pending.ppdus_of_emitRun {alpdu : Bytes} (h : Pending (txCtx s.tx f) alpdu) (hrun : EmitRun f s ppdus t) :
    Ppdus (shipment s.params (txCtx s.tx f) f alpdu) ppdus := by
  cases hrun with
  | last hs hr hd =>
    obtain ⟨e, hemit, hstatus, hppdu, -, -⟩ := exec_emit_answer hs hr
    obtain ⟨hdone, -⟩ := h.emit hemit
    exact hppdu ▸ hdone (hstatus.trans hd)
  | more hs hr hd hm =>
    obtain ⟨e, hemit, hstatus, hppdu, htx, hsame⟩ := exec_emit_answer hs hr
    obtain ⟨-, hok⟩ := h.emit hemit
    obtain ⟨n, hn, hmax, htotal, hstart, hsending⟩ := hok (hstatus.trans hd)
    rw [← hppdu, hstart]
    exact .parts hn hmax htotal ((htx ▸ hsending : Sending _ n (txCtx _ f)).fragments_of_emitRun rfl
      (by rw [hsame.params]; rfl) hm)

/-- What an ENCAP left is pending. -/
theorem EncapTook.pending {sdu : Bytes} {ptype : Ptype} {buf : Mem} (h : EncapTook sdu ptype f buf s t) :
    Pending (txCtx t.tx f) (encode (chooseHeader s.params s.tx.cfg ptype) ++ sdu) where
  fresh := by
    rw [h.txCtx_eq]
    rfl
  read := h.memRead_alpdu
  headLe := by
    rw [h.head_toNat, h.sduEnd_toNat]
    exact Nat.le_add_right_of_le (Nat.sub_le ..)
  room := by
    rw [h.sduEnd_toNat]
    exact Nat.add_le_add_left h.size _

end

end Sys2Proof.Machine
end

section
/-! The round trip, the receiver's half: one DECAP of the PPDUs of an ALPDU reassembles it (spec/47 R326 to R333), finds
its trailer good (R344, R345) and delivers its SDU (R350). -/

namespace Sys2Proof.Machine

open Host (Outcome)

/-! ### What the receiver makes of the ALPDU (spec/41 R178, spec/47 R350) -/

/-- Under these parameters and this configuration the ALPDU is decoded and expands to the SDU. -/
def Expands (p : Config.Params) (cfg : CfgWord) (a : Shipment) (ptype : Ptype) (sdu : Bytes) : Prop :=
  ∃ i rest, decode (.alpduHdr a.pts (useCompressedPtype cfg)) a.alpdu = .ok (i, rest) ∧
    ∀ s : State, s.params = p → s.rx.cfg = cfg → formExpands s a.lt a.alpdu i = some (.ok (ptype, sdu))

/-- The trailer is one the receiver's context `c` accepts: the CRC of the ALPDU, or the number it expects. -/
def TrailerFits (p : Config.Params) (a : Shipment) (c : RxCtx) : Prop :=
  if a.useCrc = true then a.trailer = le32 (crc32 p.crc32 a.alpdu)
  else 0 < p.seqAmbigMin ∧ ∃ seq : SeqNb, a.trailer = [seq.setWidth 8] ∧ (c.seqInit = true → c.nextExpSeq = seq)

/-! ### The scan's place -/

/-- The scan of a DECAP from here on ends with OK and these events. -/
def EndsWith (s : State) (events : List Event) : Prop :=
  ∃ t, ScanRun s t ∧ t.host.response = some { status := .ok, events := events }

theorem EndsWith.of_step {s t : State} {events : List Event} (hrunning : s.scan.phase ≠ .idle)
    (hstep : step s = .next t) (h : EndsWith t events) : EndsWith s events := by
  obtain ⟨u, hrun, hresponse⟩ := h
  exact ⟨u, .unit hrunning hstep hrun, hresponse⟩

/-- The parameters, the configuration, the bytes not yet scanned and the events so far, with nothing dropped. -/
structure Scanning (p : Config.Params) (cfg : CfgWord) (ahead : Bytes) (events : List Event) (s : State) : Prop where
  params : s.params = p
  cfg : s.rx.cfg = cfg
  ahead : s.scan.fpdu.drop s.rx.off = ahead
  events : s.scan.events = events
  err : s.scan.err = false

/-- A context IN_PROGRESS holds the first `k` bytes of the ALPDU, with the fields of its START. -/
structure Holds (p : Config.Params) (a : Shipment) (k : Nat) (c : RxCtx) : Prop where
  total : c.totalLen.toNat = a.alpdu.length
  received : c.bytesReceived.toNat = k
  held : memRead p.rasmBufLen c.buf 0 k = .ok (a.alpdu.take k)
  lt : c.lt = a.lt
  pts : c.pts = a.pts
  useCrc : c.useCrc = a.useCrc
  trailer : TrailerFits p a c

section
variable {p : Config.Params} {cfg : CfgWord} {events : List Event} {s t : State}

/-- A unit that moves `off` past the bytes `hdr` and `payload`. -/
theorem Scanning.advance {hdr payload rest : Bytes} (h : Scanning p cfg (hdr ++ (payload ++ rest)) events s)
    {hl n : Nat} (hhdr : hdr.length = hl) (hpayload : payload.length = n) (hparams : t.params = s.params)
    (hcfg : t.rx.cfg = s.rx.cfg) (hoff : t.rx.off = s.rx.off + hl + n) {ph : ScanPhase} {events' : List Event}
    (hscan : t.scan = { s.scan with phase := ph, events := events' }) : Scanning p cfg rest events' t where
  params := hparams.trans h.params
  cfg := hcfg.trans h.cfg
  ahead := by
    rw [hscan, hoff, ← hhdr, ← hpayload, Nat.add_assoc, ← List.drop_drop, h.ahead, ← List.append_assoc,
      ← List.length_append, List.drop_left]
  events := congrArg Scan.events hscan
  err := (congrArg Scan.err hscan).trans h.err

theorem Scanning.payloadIs {hdr payload rest : Bytes} (h : Scanning p cfg (hdr ++ (payload ++ rest)) events s)
    {hl n : Nat} (hhdr : hdr.length = hl) (hpos : 0 < hl) (hpayload : payload.length = n) :
    PayloadIs s hl n payload := by
  have hlen := congrArg List.length h.ahead
  rw [List.length_drop, List.length_append, List.length_append] at hlen
  refine ⟨by omega, ?_⟩
  rw [← List.drop_drop, h.ahead, ← hhdr, List.drop_left, ← hpayload, List.take_left]

theorem Scanning.congr {ahead : Bytes} (h : Scanning p cfg ahead events s) (hparams : t.params = s.params)
    (hcfg : t.rx.cfg = s.rx.cfg) (hoff : t.rx.off = s.rx.off) {ph : ScanPhase} {events' : List Event}
    (hscan : t.scan = { s.scan with phase := ph, events := events' }) : Scanning p cfg ahead events' t where
  params := hparams.trans h.params
  cfg := hcfg.trans h.cfg
  ahead := by rw [hscan, hoff, h.ahead]
  events := congrArg Scan.events hscan
  err := (congrArg Scan.err hscan).trans h.err

/-! ### The end of the FPDU (R302) -/

theorem endsWith_of_step {r : Response} (hrunning : s.scan.phase ≠ .idle) (hstep : step s = .next t)
    (hidle : t.scan.phase = .idle) (hresponse : t.host.response = some r)
    (hr : r = { status := .ok, events := events }) : EndsWith s events :=
  ⟨t, .unit hrunning hstep (.ended hidle), by rw [hresponse, hr]⟩

/-- Zeros, or nothing, end the scan. -/
theorem Scanning.ends {zeros : Nat} (h : Scanning p cfg (List.replicate zeros 0) events s)
    (hheader : s.scan.phase = .header) : EndsWith s events := by
  have hanswer : ({ status := if s.scan.err = true then .err else .ok, events := s.scan.events } : Response) =
      { status := .ok, events := events } := by
    rw [h.err, h.events]
    rfl
  have hrunning := running_of_header hheader
  cases zeros with
  | zero =>
    have hfetch : fetchUnit s = .error .endOfFpdu := by
      rw [fetchUnit_of_header hheader, h.ahead]
      rfl
    exact endsWith_of_step hrunning (step_of_fetch_error hrunning hfetch) rfl (finishScan_response s) hanswer
  | succ zeros =>
    have hpad : step s = exec .pad s := step_of_decoded_header (rest := List.replicate zeros 0) hheader (by
      rw [h.ahead]
      rfl)
    exact endsWith_of_step hrunning (hpad.trans (exec_pad_of_header hheader)) rfl (finishScan_response s) hanswer

/-! ### Delivery (R350) -/

section
variable {a : Shipment} {ptype : Ptype} {sdu : Bytes} {zeros len prior : Nat}
  (hexpands : Expands p cfg a ptype sdu) (hsize : sdu.length ≤ sduMax)
include hexpands hsize

theorem Scanning.delivers {f : Option Fid} (h : Scanning p cfg (List.replicate zeros 0) events s)
    (hphase : s.scan.phase = .alpdu f a.alpdu a.lt a.pts len prior) : EndsWith s (events ++ [.sdu f ptype sdu]) := by
  obtain ⟨i, rest, hdecode, hform⟩ := hexpands
  have hexec := exec_of_formExpands hphase (hform s h.params h.cfg)
  rw [deliver_of_fits hsize] at hexec
  have hstep := (step_of_decoded_alpdu hphase (h.cfg.symm ▸ hdecode)).trans hexec
  obtain ⟨⟨-, hparams, -⟩, hreleased, hoff, hscan⟩ := deliverSdu_deliveredAs f ptype sdu s
  refine .of_step (running_of_alpdu hphase) hstep ?_
  have hnext := h.congr hparams hreleased.cfg hoff hscan
  rw [h.events] at hnext
  exact hnext.ends rfl

/-! ### The trailer (R344, R345) -/

theorem Scanning.passes {t : State} {c : RxCtx} {agg : Counters}
    (h : Scanning p cfg (List.replicate zeros 0) events s) (hrunning : s.scan.phase ≠ .idle)
    (hstep : step s = .next t) (hlt : (rxCtx s.rx a.fid).lt = a.lt) (hpts : (rxCtx s.rx a.fid).pts = a.pts)
    (hpassed : TrailerPassed a.fid a.alpdu len prior c agg s t) :
    EndsWith s (events ++ [.sdu (some a.fid) ptype sdu]) := by
  obtain ⟨⟨-, hparams, -⟩, hsame, -, hoff, -, -, hscan⟩ := hpassed
  have hnext := h.congr hparams hsame.cfg hoff hscan
  rw [h.events] at hnext
  have hphase := congrArg Scan.phase hscan
  rw [hlt, hpts] at hphase
  exact .of_step hrunning hstep (hnext.delivers hexpands hsize hphase)

theorem Scanning.trailer {c : RxCtx} (h : Scanning p cfg (List.replicate zeros 0) events s)
    (hphase : s.scan.phase = .trailer a.fid a.alpdu a.trailer len prior) (hc : rxCtx s.rx a.fid = c)
    (hlt : c.lt = a.lt) (hpts : c.pts = a.pts) (hcrc : c.useCrc = a.useCrc) (hfits : TrailerFits p a c) :
    EndsWith s (events ++ [.sdu (some a.fid) ptype sdu]) := by
  subst hc
  have hrunning := running_of_trailer hphase
  obtain ⟨-, hcrcRule⟩ := trlCrcRule
  obtain ⟨-, hseqRule⟩ := trlSeqRule
  cases huse : a.useCrc with
  | true =>
    rw [TrailerFits, if_pos huse] at hfits
    have hstep : step s = exec (.trlCrc (crc32 p.crc32 a.alpdu)) s :=
      step_of_decoded_trailer (rest := []) hphase (by
        rw [hcrc, huse, hfits]
        exact encodeDecodeRoundTrip.2 (.trlCrc (crc32 p.crc32 a.alpdu)) [] rfl)
    obtain ⟨hgood, -⟩ := hcrcRule s (crc32 p.crc32 a.alpdu) _ _ _ _ _ hphase
    obtain ⟨t, hexec, hpassed⟩ := hgood (by rw [h.params])
    exact h.passes hexpands hsize hrunning (hstep.trans hexec) hlt hpts hpassed
  | false =>
    rw [TrailerFits, if_neg (Bool.eq_false_iff.mp huse)] at hfits
    obtain ⟨hmin, seq, htrl, hexpected⟩ := hfits
    have hstep : step s = exec (.trlSeq seq) s :=
      step_of_decoded_trailer (rest := []) hphase (by
        rw [hcrc, huse, htrl]
        exact encodeDecodeRoundTrip.2 (.trlSeq seq) [] rfl)
    obtain ⟨hfirst, hlater, -⟩ := hseqRule s seq _ _ _ _ _ _ _ hphase rfl rfl
    cases hinit : (rxCtx s.rx a.fid).seqInit with
    | false =>
      obtain ⟨t, hexec, hpassed⟩ := hfirst hinit
      exact h.passes hexpands hsize hrunning (hstep.trans hexec) hlt hpts hpassed
    | true =>
      have hnogap : (8 + seq.toNat - (rxCtx s.rx a.fid).nextExpSeq.toNat) % 8 < s.params.seqAmbigMin := by
        rw [hexpected hinit, Nat.add_sub_cancel, h.params]
        exact hmin
      obtain ⟨t, hexec, hpassed⟩ := hlater hinit hnogap
      exact h.passes hexpands hsize hrunning (hstep.trans hexec) hlt hpts hpassed

end

end

end Sys2Proof.Machine
end

section
/-! The round trip, PPDU by PPDU (spec/47 R325 to R333), and the whole of it (spec/41 R178, spec/46 R315). -/

namespace Sys2Proof.Machine

open Host (Outcome)

/-! ### The buffer of the receiver -/

/-- Bytes stored behind those that were held are read together with them. -/
theorem Stored.memRead_append {size off : Nat} {m m' : Mem} {held bytes : Bytes} (h : Stored size m m' off bytes)
    (hheld : memRead size m 0 off = .ok held) : memRead size m' 0 (off + bytes.length) = .ok (held ++ bytes) := by
  obtain ⟨hlen, hbyte⟩ := memRead_ok_iff.mp hheld
  have hbefore : memRead size m' 0 off = .ok held := by
    refine memRead_ok_iff.mpr ⟨hlen, fun i hi => ?_⟩
    obtain ⟨hbound, hold⟩ := hbyte i hi
    have hsome : held[i]? = some (held[i]'(hlen ▸ hi)) := List.getElem?_eq_getElem _
    have hread := h.rest (0 + i) (.inl (by omega))
    rw [hsome] at hold ⊢
    rw [readByte_ok hbound hold] at hread
    exact readByte_ok_iff.mp hread
  refine Machine.memRead_append hbefore ?_
  rw [Nat.zero_add]
  exact h.stored

/-! ### The steps of a DECAP over the PPDUs of one ALPDU -/

theorem Fragments.length {a : Shipment} {k : Nat} {ppdus : List Bytes} (h : Fragments a k ppdus) :
    ∃ m, ppdus.length = m + 1 := by
  cases h with
  | last => exact ⟨0, rfl⟩
  | more => exact ⟨_, rfl⟩

theorem Holds.length_lt {p : Config.Params} {a : Shipment} {k : Nat} {c : RxCtx} (h : Holds p a k c) :
    a.alpdu.length < 4096 := h.total ▸ c.totalLen.isLt

section
variable {p : Config.Params} {cfg : CfgWord} {events : List Event} {s : State} {a : Shipment} {k n : Nat}
  (hlayout : a.layout = p.ppduLayout) (hheader : s.scan.phase = .header)
include hlayout hheader

theorem Scanning.step_of_decoded {i : Instr} {rest rest' : Bytes}
    (h : Scanning p cfg rest events s) (hdecode : decodePpduWith a.layout rest = .ok (i, rest')) :
    step s = exec i s :=
  step_of_decoded_header hheader (by
    rw [h.ahead, h.params, ← hlayout]
    exact hdecode)

/-- R326: a START on a free context holds the first bytes. -/
theorem Scanning.start {rest : Bytes} (h : Scanning p cfg (a.startPpdu n ++ rest) events s)
    (hfree : busyBit s.rx.busy a.fid = false) (hlt : LegalLt a.lt) (hn : n ≤ a.alpdu.length) (hlen : n ≤ ppduLenMax)
    (htotal : a.alpdu.length < 4096) (hfits : TrailerFits p a (rxCtx s.rx a.fid)) :
    ∃ t, step s = .next t ∧ t.scan.phase = .header ∧ Scanning p cfg rest (events ++ [.frag a.fid]) t ∧
      busyBit t.rx.busy a.fid = true ∧ Holds p a n (rxCtx t.rx a.fid) := by
  have hfield := length_field_toNat hlen
  have hpayload : (a.alpdu.take n).length = (BitVec.ofNat 11 n).toNat := by
    rw [hfield, List.length_take, Nat.min_eq_left hn]
  have hindex := index_toNat htotal
  have hlegal : a.layout.legal = true := hlayout ▸ p.ppduLayout.property
  rw [Shipment.startPpdu, List.append_assoc] at h
  have hstep := h.step_of_decoded hlayout hheader (decodePpduWith_start hlegal ..)
  obtain ⟨t, buf, hexec, ⟨-, hparams, -⟩, hctx, hstored, hbusy, -, hsame, hoff, hscan⟩ :=
    startAccepted s a.lt a.pts (BitVec.ofNat 11 n) a.fid (index a.alpdu.length) a.useCrc _ hheader
      (h.payloadIs rfl (by decide) hpayload) hfree hlt (by rw [hfield, hindex]; exact hn)
  have hnext := h.advance rfl hpayload hparams hsame.cfg hoff hscan
  rw [h.events] at hnext
  have hread := hstored.stored
  rw [h.params, hpayload, hfield] at hread
  have hreceived : (BitVec.ofNat 12 (BitVec.ofNat 11 n).toNat).toNat = n := by
    rw [hfield]
    exact index_toNat (Nat.lt_of_le_of_lt hn htotal)
  refine ⟨t, hstep.trans hexec, (congrArg Scan.phase hscan).trans hheader, hnext, hbusy, ?_⟩
  rw [hctx]
  exact ⟨hindex, hreceived, hread, rfl, rfl, rfl, hfits⟩

/-- R330: a CONT is appended. -/
theorem Scanning.cont {rest : Bytes} (h : Scanning p cfg (a.contPpdu k n ++ rest) events s)
    (hbusy : busyBit s.rx.busy a.fid = true) (hholds : Holds p a k (rxCtx s.rx a.fid)) (hk : k + n ≤ a.alpdu.length)
    (hlen : n ≤ ppduLenMax) (hnonzero : (a.contPpdu k n).head? ≠ some 0) :
    ∃ t, step s = .next t ∧ t.scan.phase = .header ∧ Scanning p cfg rest (events ++ [.frag a.fid]) t ∧
      busyBit t.rx.busy a.fid = true ∧ Holds p a (k + n) (rxCtx t.rx a.fid) := by
  have hfield := length_field_toNat hlen
  have hpayload : ((a.alpdu.drop k).take n).length = (BitVec.ofNat 11 n).toNat := by
    rw [hfield, List.length_take, List.length_drop]
    omega
  have hlegal : a.layout.legal = true := hlayout ▸ p.ppduLayout.property
  have hpad : (contWord a.layout (BitVec.ofNat 11 n) a.fid).extractLsb' 8 8 ≠ 0 := fun hzero =>
    hnonzero (congrArg some hzero)
  rw [Shipment.contPpdu, List.append_assoc] at h
  have hstep := h.step_of_decoded hlayout hheader (decodePpduWith_cont hlegal _ _ a.fid hpad)
  obtain ⟨haccept, -⟩ := contRule s (BitVec.ofNat 11 n) a.fid _ _ hheader
    (h.payloadIs rfl Nat.two_pos hpayload) hbusy rfl
  rw [hfield, hholds.received, hholds.total] at haccept
  obtain ⟨t, buf, hexec, ⟨-, hparams, -⟩, hctx, hstored, hbusy', -, hsame, hoff, hscan⟩ := haccept hk
  rw [← hfield] at hoff
  have hnext := h.advance rfl hpayload hparams hsame.cfg hoff hscan
  rw [h.events] at hnext
  rw [h.params] at hstored
  have hread := hstored.memRead_append hholds.held
  rw [hpayload, hfield, ← List.take_add] at hread
  have hreceived : (BitVec.ofNat 12 (k + n)).toNat = k + n :=
    index_toNat (Nat.lt_of_le_of_lt hk hholds.length_lt)
  refine ⟨t, hstep.trans hexec, (congrArg Scan.phase hscan).trans hheader, hnext, by rw [hbusy', hbusy], ?_⟩
  rw [hctx]
  exact ⟨hholds.total, hreceived, hread, hholds.lt, hholds.pts, hholds.useCrc, hholds.trailer⟩

section
variable {ptype : Ptype} {sdu : Bytes} {zeros : Nat} (hexpands : Expands p cfg a ptype sdu)
  (hsize : sdu.length ≤ sduMax)
include hexpands hsize

/-- R331, R333: an END completes the ALPDU and leaves its trailer. -/
theorem Scanning.endPpdu (h : Scanning p cfg (a.endPpdu k ++ List.replicate zeros 0) events s)
    (hbusy : busyBit s.rx.busy a.fid = true) (hholds : Holds p a k (rxCtx s.rx a.fid)) (hk : k ≤ a.alpdu.length)
    (hlen : a.endLen k ≤ ppduLenMax) (htrl : a.trailer.length = trlLen a.useCrc) :
    EndsWith s (events ++ [.sdu (some a.fid) ptype sdu]) := by
  have hfield := length_field_toNat hlen
  have hpayload : (a.alpdu.drop k ++ a.trailer).length = (BitVec.ofNat 11 (a.endLen k)).toNat := by
    rw [hfield, List.length_append, List.length_drop, Shipment.endLen]
  have hcut : a.endLen k - trlLen a.useCrc = (a.alpdu.drop k).length := by
    rw [Shipment.endLen, htrl, Nat.add_sub_cancel, List.length_drop]
  have hlegal : a.layout.legal = true := hlayout ▸ p.ppduLayout.property
  rw [Shipment.endPpdu, List.append_assoc] at h
  have hstep := h.step_of_decoded hlayout hheader (decodePpduWith_end hlegal ..)
  have haccept := endAccepted s (BitVec.ofNat 11 (a.endLen k)) a.fid _ (a.alpdu.take k) (a.alpdu.drop k) _ hheader
    (h.payloadIs rfl Nat.two_pos hpayload) hbusy rfl
  rw [hfield, hholds.received, hholds.total, hholds.useCrc, h.params, hcut, List.take_left, List.drop_left] at haccept
  obtain ⟨t, buf, hexec, ⟨-, hparams, -⟩, hctx, -, -, -, hsame, hoff, hscan⟩ :=
    haccept (by rw [← htrl]; exact Nat.le_add_left ..) (by rw [List.length_drop]; omega) hholds.held rfl
  rw [← hfield] at hoff
  have hnext := h.advance rfl hpayload hparams hsame.cfg hoff hscan
  rw [h.events] at hnext
  have hphase := congrArg Scan.phase hscan
  rw [List.take_append_drop] at hphase
  exact .of_step (running_of_header hheader) (hstep.trans hexec)
    (hnext.trailer hexpands hsize hphase hctx hholds.lt hholds.pts rfl hholds.trailer)

/-- R325: a COMP is delivered with no context. -/
theorem Scanning.comp (h : Scanning p cfg (a.compPpdu ++ List.replicate zeros 0) events s) (hlt : LegalLt a.lt)
    (hlen : a.alpdu.length ≤ ppduLenMax) : EndsWith s (events ++ [.sdu none ptype sdu]) := by
  have hfield := length_field_toNat hlen
  have hlegal : a.layout.legal = true := hlayout ▸ p.ppduLayout.property
  rw [Shipment.compPpdu, List.append_assoc] at h
  have hstep := h.step_of_decoded hlayout hheader (decodePpduWith_comp hlegal ..)
  obtain ⟨haccept, -⟩ := compRule s a.lt a.pts (BitVec.ofNat 11 a.alpdu.length) _ hheader
    (h.payloadIs rfl Nat.two_pos hfield.symm)
  obtain ⟨t, hexec, ⟨-, hparams, -⟩, hsame, -, hoff, hscan⟩ := haccept hlt
  have hnext := h.advance rfl hfield.symm hparams hsame.cfg hoff hscan
  rw [h.events] at hnext
  exact .of_step (running_of_header hheader) (hstep.trans hexec)
    (hnext.delivers hexpands hsize (congrArg Scan.phase hscan))

end

end

/-! ### All PPDUs -/

section
variable {p : Config.Params} {cfg : CfgWord} {a : Shipment} {ptype : Ptype} {sdu : Bytes} {zeros : Nat}
  {ppdus : List Bytes} (hlayout : a.layout = p.ppduLayout) (htrl : a.trailer.length = trlLen a.useCrc)
  (hexpands : Expands p cfg a ptype sdu) (hsize : sdu.length ≤ sduMax)
include hlayout htrl hexpands hsize

theorem Fragments.delivered {k : Nat} (hfragments : Fragments a k ppdus) {s : State} {events : List Event}
    (h : Scanning p cfg (ppdus.flatten ++ List.replicate zeros 0) events s) (hheader : s.scan.phase = .header)
    (hbusy : busyBit s.rx.busy a.fid = true) (hholds : Holds p a k (rxCtx s.rx a.fid))
    (hnonzero : ∀ ppdu ∈ ppdus, ppdu.head? ≠ some 0) :
    EndsWith s (events ++ (List.replicate (ppdus.length - 1) (.frag a.fid) ++ [.sdu (some a.fid) ptype sdu])) := by
  induction hfragments generalizing s events with
  | last hk hlen =>
    rw [List.flatten_singleton] at h
    exact h.endPpdu hlayout hheader hexpands hsize hbusy hholds hk hlen htrl
  | @more k n ppdus hk hlen hrest ih =>
    rw [List.flatten_cons, List.append_assoc] at h
    obtain ⟨hhead, htail⟩ := List.forall_mem_cons.mp hnonzero
    obtain ⟨t, hstep, hheader', hnext, hbusy', hholds'⟩ := h.cont hlayout hheader hbusy hholds hk hlen hhead
    have hend := ih hnext hheader' hbusy' hholds' htail
    obtain ⟨m, hm⟩ := hrest.length
    rw [hm, List.append_assoc] at hend
    rw [List.length_cons, hm]
    exact .of_step (running_of_header hheader) hstep hend

/-- One DECAP of the PPDUs of an ALPDU gives its SDU, after a FRAG event for each PPDU but the last. -/
theorem Ppdus.delivered (hppdus : Ppdus a ppdus) {s : State}
    (h : Scanning p cfg (ppdus.flatten ++ List.replicate zeros 0) [] s) (hheader : s.scan.phase = .header)
    (hfree : busyBit s.rx.busy a.fid = false) (hlt : LegalLt a.lt) (hfits : TrailerFits p a (rxCtx s.rx a.fid))
    (hnonzero : ∀ ppdu ∈ ppdus, ppdu.head? ≠ some 0) :
    EndsWith s (List.replicate (ppdus.length - 1) (.frag a.fid) ++
      [.sdu (if ppdus.length = 1 then none else some a.fid) ptype sdu]) := by
  cases hppdus with
  | whole hlen =>
    rw [List.flatten_singleton] at h
    exact h.comp hlayout hheader hexpands hsize hlt hlen
  | @parts n ppdus hn hlen htotal hrest =>
    rw [List.flatten_cons, List.append_assoc] at h
    obtain ⟨-, htail⟩ := List.forall_mem_cons.mp hnonzero
    obtain ⟨t, hstep, hheader', hnext, hbusy, hholds⟩ := h.start hlayout hheader hfree hlt hn hlen htotal hfits
    have hend := hrest.delivered hlayout htrl hexpands hsize hnext hheader' hbusy hholds htail
    obtain ⟨m, hm⟩ := hrest.length
    rw [hm] at hend
    rw [List.length_cons, hm, if_neg (by omega)]
    exact .of_step (running_of_header hheader) hstep hend

end

/-! ### The ALPDU header (R178, R222, R350) -/

section
variable {p : Config.Params} {cfg : CfgWord} {a : Shipment} {ptype : Ptype} {sdu : Bytes}

/-- The header form says what the ALPDU expands to; the field is decoded as it was encoded. -/
theorem expands_of_form {i : Instr} (hsite : siteOf i = .alpduHdr false (useCompressedPtype cfg))
    (hwf : i.wellFormed = true) (hpts : a.pts = false) (halpdu : a.alpdu = encode i ++ sdu)
    (hform : ∀ s : State, s.params = p → s.rx.cfg = cfg → formExpands s a.lt a.alpdu i = some (.ok (ptype, sdu))) :
    Expands p cfg a ptype sdu := by
  refine ⟨i, sdu, ?_, hform⟩
  rw [hpts, halpdu, ← hsite]
  exact encodeDecodeRoundTrip.2 i sdu hwf

theorem codeIsNotFallback_of_ptypeCompress {code : Byte} (hff : p.codeL2s ≠ 0xff)
    (h : ptypeCompress p ptype = some code) : codeIsNotFallback code = true := by
  have hrow := mem_ptypeTable_of_ptypeCompress h
  rw [ptypeTable_eq, List.mem_append, List.mem_singleton] at hrow
  have hfixed : fixedRows.all (fun row => codeIsNotFallback row.2) = true := rfl
  obtain hrow | hrow := hrow
  · exact List.all_eq_true.mp hfixed _ hrow
  · cases hrow
    exact bne_iff_ne.mpr hff

/-- An omitted protocol type is the one the label type or the implicit code says. -/
theorem ptypeExpand_of_omittable (hl2s : validImplicit p.codeL2s = false) (homit : Omittable cfg ptype)
    (hne : ptype ≠ 0x0082)
    (hip : implicitProtocolType cfg = 0x30 →
      ∃ b rest, sdu = b :: rest ∧ ((ptype = 0x0800 ∧ b.toNat / 16 = 4) ∨ (ptype = 0x86dd ∧ b.toNat / 16 = 6))) :
    ptypeExpand p (implicitProtocolType cfg) sdu = .ok (ptype, sdu) := by
  obtain ⟨-, hsupp⟩ := homit
  obtain ⟨-, -, -, -, -, hlaw⟩ := ptypeRoundTrip p _ rfl
  obtain ⟨-, hfixed, hnibble⟩ := hlaw hl2s
  by_cases h30 : implicitProtocolType cfg = 0x30
  · rw [h30] at hsupp ⊢
    exact (hnibble ptype sdu hsupp hne).mpr (hip h30)
  · exact hfixed ptype _ sdu hsupp hne h30

/-- R178 with R222: what the chosen header form says is read back. -/
theorem expands_of_chooseHeader (hl2s : validImplicit p.codeL2s = false) (hff : p.codeL2s ≠ 0xff)
    (hlt : a.lt = labelTypeOf ptype) (hpts : a.pts = suppressesPtype p cfg ptype)
    (halpdu : a.alpdu = encode (chooseHeader p cfg ptype) ++ sdu)
    (hip : chooseHeader p cfg ptype = .ptOmit → implicitProtocolType cfg = 0x30 → ptype ≠ 0x0082 →
      ∃ b rest, sdu = b :: rest ∧ ((ptype = 0x0800 ∧ b.toNat / 16 = 4) ∨ (ptype = 0x86dd ∧ b.toNat / 16 = 6))) :
    Expands p cfg a ptype sdu := by
  rw [suppressesPtype] at hpts
  by_cases homit : Omittable cfg ptype
  · have hchoice : chooseHeader p cfg ptype = .ptOmit := chooseHeader_of_omittable homit
    rw [hchoice] at hpts halpdu hip
    have hsdu : a.alpdu = sdu := halpdu
    refine ⟨.ptOmit, sdu, by rw [hpts, hsdu]; rfl, fun s hparams hcfg => ?_⟩
    rw [formExpands, hlt, hsdu, hparams, hcfg]
    by_cases hsignal : ptype = 0x0082
    · subst hsignal
      rfl
    · rw [labelTypeOf, if_neg (show ¬ ptype = ptypeL2s from hsignal),
        ptypeExpand_of_omittable hl2s homit hsignal fun h30 => hip rfl h30 hsignal]
      rfl
  by_cases hcomp : useCompressedPtype cfg = true
  · cases hcode : ptypeCompress p ptype with
    | some code =>
      rw [chooseHeader_of_named homit hcomp hcode] at hpts halpdu
      refine expands_of_form (i := .ptComp code) (by rw [hcomp]; rfl) (codeIsNotFallback_of_ptypeCompress hff hcode)
        hpts halpdu fun s hparams _ => ?_
      obtain ⟨-, -, -, -, -, hlaw⟩ := ptypeRoundTrip p _ rfl
      obtain ⟨hnamed, -, -⟩ := hlaw hl2s
      rw [formExpands, hparams, halpdu]
      exact congrArg some (hnamed ptype code sdu hcode)
    | none =>
      rw [chooseHeader_of_unnamed homit hcomp hcode] at hpts halpdu
      refine expands_of_form (i := .ptFallback ptype) (by rw [hcomp]; rfl) rfl hpts halpdu fun s _ _ => ?_
      rw [formExpands, halpdu]
      rfl
  · rw [chooseHeader_of_uncompressed homit hcomp] at hpts halpdu
    refine expands_of_form (i := .ptUncomp ptype) (by rw [Bool.eq_false_iff.mpr hcomp]; rfl) rfl hpts halpdu
      fun s _ _ => ?_
    rw [formExpands, halpdu]
    rfl

end

/-! ### The round trip -/

theorem legalLt_labelTypeOf (ptype : Ptype) : LegalLt (labelTypeOf ptype) := by
  rw [labelTypeOf]
  split
  · exact .inr rfl
  · exact .inl rfl

/-- The trailer of an ALPDU is the one the receiver expects, where they agree on the next number. -/
theorem trailerFits_shipment {p : Config.Params} {c : TxCtx} {f : Fid} {alpdu : Bytes} {r : RxCtx}
    (hmin : 0 < p.seqAmbigMin) (hseq : r.seqInit = true → r.nextExpSeq = c.nextSeqNb) :
    TrailerFits p (shipment p c f alpdu) r := by
  unfold TrailerFits
  split_ifs with hcrc
  · exact if_pos hcrc
  · exact ⟨hmin, c.nextSeqNb, if_neg hcrc, hseq⟩

/-- A DECAP ends as its scan does, which begins behind the label (R301, R321). -/
theorem exec_decap_of_endsWith {s : State} {label bytes : Bytes} {events : List Event}
    (hinv : RxInv s.params.rasmBufLen s.rx) (hconf : s.rx.configured = true)
    (hlabel : label.length = implicitPayloadLabelSize s.rx.cfg)
    (h : ∀ u : State, u.scan.phase = .header → Scanning s.params s.rx.cfg bytes [] u → u.rx.busy = s.rx.busy →
      (∀ f, rxCtx u.rx f = { rxCtx s.rx f with burstBytes := 0 }) → EndsWith u events) :
    ∃ t, exec (.decap (some (label ++ bytes))) s = .next t ∧
      t.host.response = some { status := .ok, events := events } := by
  obtain ⟨t, u, ⟨-, hparams, -⟩, -, hcfg, hbusy, -, hctx, hoff, hscan, hexec, -, hunique⟩ :=
    decapRunsItsUnits s (label ++ bytes) hinv hconf (by rw [← hlabel, List.length_append]; exact Nat.le_add_right ..)
  have hahead : u.scan.fpdu.drop u.rx.off = bytes := by rw [hscan, hoff, ← hlabel, List.drop_left]
  obtain ⟨t', hrun, hresponse⟩ := h u (congrArg Scan.phase hscan)
    ⟨hparams, hcfg, hahead, congrArg Scan.events hscan, congrArg Scan.err hscan⟩ hbusy hctx
  exact ⟨t, hexec, hunique t' hrun ▸ hresponse⟩

section
variable {s t : State} {sdu : Bytes} {ptype : Ptype} {f : Fid} {buf : Mem}

/-- What is sent after an ENCAP. -/
def encapShipment (s t : State) (sdu : Bytes) (ptype : Ptype) (f : Fid) : Shipment :=
  shipment s.params (txCtx t.tx f) f (encode (chooseHeader s.params s.tx.cfg ptype) ++ sdu)

theorem EncapTook.rxUntouched (h : EncapTook sdu ptype f buf s t) : RxUntouched s t := by
  rw [h.state]
  exact ⟨rfl, rfl, rfl⟩

theorem EncapTook.ppdus_of_emitRun (h : EncapTook sdu ptype f buf s t) {u : State} {ppdus : List Bytes}
    (hrun : EmitRun f t ppdus u) : Ppdus (encapShipment s t sdu ptype f) ppdus := by
  rw [encapShipment, ← h.rxUntouched.params]
  have hpending := h.pending
  rw [← h.rxUntouched.params] at hpending
  exact hpending.ppdus_of_emitRun hrun

theorem EncapTook.lt (h : EncapTook sdu ptype f buf s t) :
    (encapShipment s t sdu ptype f).lt = labelTypeOf ptype := congrArg TxCtx.lt h.txCtx_eq

theorem EncapTook.pts (h : EncapTook sdu ptype f buf s t) :
    (encapShipment s t sdu ptype f).pts = suppressesPtype s.params s.tx.cfg ptype := congrArg TxCtx.pts h.txCtx_eq

theorem EncapTook.nextSeqNb (h : EncapTook sdu ptype f buf s t) :
    (txCtx t.tx f).nextSeqNb = (txCtx s.tx f).nextSeqNb := by
  rw [h.txCtx_eq]
  rfl

end

/-- Settles O60: the EMITs make the PPDUs of the ALPDU (`EncapTook.ppdus_of_emitRun`), and over them the DECAP's scan ends
with its SDU (`Ppdus.delivered`). -/
theorem sduRoundTrip : Obligations.SduRoundTrip := by
  intro s s1 s2 sdu label ptype f ppdus zeros hinv hidle hconf hcfg hl2s hff hmin hfree hseq hip hencap hok hrun
    hnonzero hlabel
  obtain ⟨_, buf, hsdu, htook⟩ := encapTook_of_answered hencap hok
  cases hsdu
  have hemits := emitRun_rxUntouched hrun
  have hrx : s2.rx = s.rx := hemits.rx.trans htook.rxUntouched.rx
  have hparams : s2.params = s.params := hemits.params.trans htook.rxUntouched.params
  have hexpands : Expands s.params s.tx.cfg (encapShipment s s1 sdu ptype f) ptype sdu :=
    expands_of_chooseHeader hl2s hff htook.lt htook.pts rfl hip
  rw [List.append_assoc]
  refine exec_decap_of_endsWith (by rw [hrx, hparams]; exact hinv.rx) (by rw [hrx, hconf]) (by rw [hrx, hcfg, hlabel])
    fun u hheader hscan hbusy hctx => ?_
  rw [hrx] at hscan hbusy hctx
  rw [hparams, hcfg] at hscan
  have hfits : TrailerFits s.params (encapShipment s s1 sdu ptype f) (rxCtx u.rx f) := by
    refine trailerFits_shipment hmin fun hinit => ?_
    rw [hctx] at hinit ⊢
    exact (hseq hinit).trans htook.nextSeqNb.symm
  exact (htook.ppdus_of_emitRun hrun).delivered rfl (startTrailer_length ..) hexpands htook.size hscan hheader
    (by rw [hbusy]; exact hfree) (htook.lt ▸ legalLt_labelTypeOf ptype) hfits hnonzero

end Sys2Proof.Machine
end
